-- ==== Sys2Proof/Word.lean ====
section
/-! DEFINITION. The widths the spec gives the block's values (00_scope.md R7, R12; 20_memory.md R61, R64). -/

namespace Sys2Proof

/-- A byte: "Byte size is 8 bits everywhere" (20_memory.md R61). -/
abbrev Byte := BitVec 8

/-- A GPIO controller register, `REG_BITS` = 32 bits, one bit per line (10_state.md R21). -/
abbrev Word := BitVec 32

end Sys2Proof
end

