-- ==== Sys2Proof/Config.lean ====
section
/-! DEFINITION. The parameters of the block (00_scope.md R7): the constants the spec fixes, the record of its OPEN
parameters, and the free values (constants without a body, of which nothing can be proved). -/

namespace Sys2Proof

/-- A GPIO line, identified by (bank, bit) (00_scope.md R16, 30_encoding.md R90: `b` 2 bits, `i` 5 bits). -/
structure Line where
  bank : Fin 4
  bit  : Fin 32
deriving DecidableEq, Repr, Inhabited

/-- The four role lines of 00_scope.md R16. -/
inductive Role where
  | cs | ds | mux0 | mux1
deriving DecidableEq, Repr

/-- The registers of one window (20_memory.md R62). -/
inductive Reg where
  | oe | dataIn | dataOut | clearDataOut | setDataOut
deriving DecidableEq, Repr

/-- A profile, the `BusConfig` triple of 10_state.md R28, R29. -/
structure Profile where
  mode  : BitVec 2
  word  : BitVec 8
  speed : BitVec 32
deriving DecidableEq, Repr, Inhabited

/-- The two interpretation variants of the single-wire sensor (30_encoding.md R105). -/
inductive SensorKind where
  | integerOnly | fractional
deriving DecidableEq, Repr

namespace Config

/-! ## Parameters with a value (00_scope.md R7) -/

/-- `WINDOW_SIZE`: bytes mapped per window. -/
def windowSize : Nat := 4096
/-- `SEC_MODE`: clock mode of the secondary profile. -/
def secMode : BitVec 2 := 3
/-- `SEC_WORD`: word size in bits of the secondary profile. -/
def secWord : BitVec 8 := 8
/-- `DHT_PAIRS`: low/high pairs measured per read. -/
def dhtPairs : Nat := 41
/-- `DHT_SPIN_BOUND`: largest count a polled phase may reach. -/
def dhtSpinBound : Nat := 32000
/-- `T_WAKE` in milliseconds (a lower bound on the wake hold). -/
def tWakeMs : Nat := 500
/-- `T_REQ` in milliseconds ("about 20 ms"). -/
def tReqMs : Nat := 20
/-- `EXT_PARK`: the selector code written by `unselect_extension`. -/
def extPark : BitVec 4 := 0
/-- The value listed for the parameter `RAW_READ_FILL`, the byte shifted out during a raw one-byte read (D15). -/
def rawReadFill : Byte := 0
/-- The value listed for the parameter `EXT_SEL_ENCODE`, zero-extension to 8 bits (30_encoding.md R100, D18): the payload
byte of each of the 16 selector codes. -/
def extSelDefault : Vector Byte 16 := Vector.ofFn (fun ext => BitVec.ofNat 8 ext.val)

/-! ## Free values. No body: no proof can see what they are. Each is applied to the draw counter of State, which
every use advances, so a claim holds whatever the environment answers (00_scope.md R10, R16 "Draw"). -/

/-- A free answer `Ok`/`Fail` of the environment. -/
opaque freeFlag : Nat → Bool
/-- A free 32-bit level word (pads, and the `DATAIN` bits of driven lines). -/
opaque freeWord : Nat → Word
/-- A free byte: draw number, position in the buffer. -/
opaque freeByte : Nat → Nat → Byte
/-- A free signed count or status. -/
opaque freeInt : Nat → Int
/-- What the profile registers hold while the bus is closed: "unspecified" (10_state.md R38). -/
opaque freeProfile : Nat → Profile
/-- The reset draw of `OE[b]`: "unspecified: any 32-bit value" (10_state.md R38). -/
opaque resetOe : Fin 4 → Word
/-- The reset draw of `DATAOUT[b]` (10_state.md R38). -/
opaque resetDataOut : Fin 4 → Word

end Config

/-! ## The OPEN parameters -/

/-- The OPEN parameters of 00_scope.md R7 as data, and with them the two parameters for which R7 lists a value and
93_implementation_defined.md Part 1 still takes an argument, `EXT_SEL_ENCODE` and `RAW_READ_FILL`. -/
structure BoardData where
  /-- `BANK_BASE[0..3]`. -/
  base      : Vector Nat 4
  /-- `OFF_OE`, `OFF_DATAIN`, `OFF_DATAOUT`, `OFF_CLEARDATAOUT`, `OFF_SETDATAOUT`. -/
  offOe     : Nat
  offIn     : Nat
  offOut    : Nat
  offClear  : Nat
  offSet    : Nat
  /-- `PIN_TABLE`: partial function from logical pin id to line. -/
  pinTable  : List (BitVec 16 × Line)
  /-- `PIN_CS`, `PIN_DS`, `PIN_MUX0`, `PIN_MUX1`. -/
  pinCs     : BitVec 16
  pinDs     : BitVec 16
  pinMux0   : BitVec 16
  pinMux1   : BitVec 16
  /-- `SEC_SPEED_HZ`. -/
  secSpeed  : BitVec 32
  /-- `MAX_LEN`. -/
  maxLen    : Nat
  /-- `N_REQ`. -/
  nReq      : Nat
  /-- `EXT_SEL_ENCODE`: the payload byte of each selector code (30_encoding.md R100). -/
  extSel    : Vector Byte 16
  /-- `RAW_READ_FILL`. -/
  rawFill   : Byte
deriving DecidableEq, Repr

namespace BoardData

/-- The byte offset of a register inside its window. -/
def offset (d : BoardData) : Reg → Nat
  | .oe => d.offOe
  | .dataIn => d.offIn
  | .dataOut => d.offOut
  | .clearDataOut => d.offClear
  | .setDataOut => d.offSet

/-- The logical id of a role line. -/
def rolePin (d : BoardData) : Role → BitVec 16
  | .cs => d.pinCs
  | .ds => d.pinDs
  | .mux0 => d.pinMux0
  | .mux1 => d.pinMux1

/-- `PIN_TABLE(id)`. -/
def pin (d : BoardData) (id : BitVec 16) : Option Line := d.pinTable.lookup id

/-- The lines of the four roles, where the table has them. -/
def roleLines (d : BoardData) : List (Option Line) :=
  [d.pin d.pinCs, d.pin d.pinDs, d.pin d.pinMux0, d.pin d.pinMux1]

/-- What the spec requires of the OPEN parameters: bases window-aligned and windows not overlapping (20_memory.md R62,
R66); offsets distinct, multiples of 4, below `WINDOW_SIZE` (00_scope.md R7); the four role lines exist and are
pairwise distinct (D10); `SEC_SPEED_HZ` nonzero (10_state.md R29); `MAX_LEN` at least 1 and at most 65535
(00_scope.md R7, 30_encoding.md R90); `N_REQ` at least 1. -/
abbrev Lawful (d : BoardData) : Prop :=
  ((∀ b : Fin 4, d.base[b] % Config.windowSize = 0) ∧ d.base.toList.Nodup) ∧
  ((∀ o ∈ [d.offOe, d.offIn, d.offOut, d.offClear, d.offSet], o % 4 = 0 ∧ o < Config.windowSize) ∧
    [d.offOe, d.offIn, d.offOut, d.offClear, d.offSet].Nodup) ∧
  ((∀ r ∈ d.roleLines, r.isSome = true) ∧ d.roleLines.Nodup) ∧
  d.secSpeed ≠ 0 ∧ (1 ≤ d.maxLen ∧ d.maxLen ≤ 65535) ∧ 1 ≤ d.nReq

end BoardData

/-- A board: OPEN parameters that meet what the spec requires of them. -/
structure Board where
  data   : BoardData
  lawful : data.Lawful
deriving DecidableEq, Repr

namespace Board

/-- The line of a role: what `PIN_TABLE` gives for its pin (40_gpio.md R127). -/
def roleLine (bd : Board) (r : Role) : Line := (bd.data.pin (bd.data.rolePin r)).getD default

/-- The physical address of a register (20_memory.md R63). -/
def addr (bd : Board) (b : Fin 4) (r : Reg) : Nat := bd.data.base[b] + bd.data.offset r

/-- `spi.secondary`, the constant secondary profile (10_state.md R28). -/
def secondary (bd : Board) : Profile := ⟨Config.secMode, Config.secWord, bd.data.secSpeed⟩

/-- The example board: register map of 93_implementation_defined.md entry G1 (general knowledge, not normative), pins
of the conventions of 95_test_vectors.md ("chosen for the vectors only"). -/
def example95 : Board where
  data := {
    base := #v[0x44E07000, 0x4804C000, 0x481AC000, 0x481AE000]
    offOe := 0x134, offIn := 0x138, offOut := 0x13C, offClear := 0x190, offSet := 0x194
    pinTable := [(13, ⟨0, 5⟩), (12, ⟨1, 17⟩), (10, ⟨1, 16⟩), (11, ⟨1, 18⟩), (20, ⟨2, 3⟩), (7, ⟨1, 28⟩)]
    pinCs := 13, pinDs := 12, pinMux0 := 10, pinMux1 := 11
    secSpeed := 500000, maxLen := 65535, nReq := 4
    extSel := Config.extSelDefault, rawFill := Config.rawReadFill }
  lawful := by decide

/-- The board takes the values 00_scope.md R7 lists for `EXT_SEL_ENCODE` and `RAW_READ_FILL`. -/
abbrev Listed (bd : Board) : Prop :=
  bd.data.extSel = Config.extSelDefault ∧ bd.data.rawFill = Config.rawReadFill

/-- The board with the listed values of those two parameters. -/
def withListed (bd : Board) : Board where
  data := { bd.data with extSel := Config.extSelDefault, rawFill := Config.rawReadFill }
  lawful := bd.lawful

end Board

/-- The board this block is wired to, a free value: the OPEN parameters have no value (00_scope.md R7). -/
opaque Config.boardChoice : Option Board

/-- The board at reset: the two parameters with a listed value have it ("the value this hardware takes", 00_scope.md R7).
`boardChoice` has no body, so nothing can be proved of the others; the example board only serves to give the type a
member. -/
def Config.board : Board := (Config.boardChoice.getD Board.example95).withListed

end Sys2Proof
end

