-- ==== Sys2Proof/Syntax.lean ====
section
/-! DEFINITION. The instructions: the 20 operations of 00_scope.md R3 as commands (30_encoding.md R90) and the three
address-frame operations of R97, one constructor per row of opcode_table.json. -/

namespace Sys2Proof

/-- One constructor per row of spec/opcode_table.json, operands as in the table of 30_encoding.md R90. -/
inductive Instr where
  /-- `gpio.resolve(logical_id)` -/
  | gpioResolve (id : BitVec 16)
  /-- `gpio.set_output(line)` -/
  | gpioSetOutput (l : Line)
  /-- `gpio.set_input(line)` -/
  | gpioSetInput (l : Line)
  /-- `gpio.set_high(line)` -/
  | gpioSetHigh (l : Line)
  /-- `gpio.set_low(line)` -/
  | gpioSetLow (l : Line)
  /-- `gpio.read(line)` -/
  | gpioRead (l : Line)
  /-- `serial_bus.open(path, mode, word_size, speed)` -/
  | serialOpen (path : List Byte) (mode : BitVec 2) (word : BitVec 8) (speed : BitVec 32)
  /-- `serial_bus.transfer(tx, len)` -/
  | serialTransfer (len : BitVec 16) (tx : List Byte)
  /-- `serial_bus.transfer_secondary(tx, len)` -/
  | serialTransferSecondary (len : BitVec 16) (tx : List Byte)
  /-- `serial_bus.close()` -/
  | serialClose
  /-- `addressing.select(address, operation)` -/
  | addrSelect (address : BitVec 4) (operation : BitVec 3)
  /-- `addressing.write_to_module(address, data, len)` -/
  | addrWrite (address : BitVec 4) (len : BitVec 16) (data : List Byte)
  /-- `addressing.read_from_module(address)` -/
  | addrRead (address : BitVec 4)
  /-- `addressing.set_extension_address(address)` -/
  | addrSetExt (address : BitVec 4)
  /-- `addressing.unselect_extension()` -/
  | addrUnselectExt
  /-- `register_bus.open_channel_handle(target)` -/
  | regOpenHandle (target : BitVec 7)
  /-- `register_bus.select_channel(local, ext)`; `ext` counts only when `extPresent` -/
  | regSelect (loc : BitVec 2) (extPresent : Bool) (ext : BitVec 4)
  /-- `register_bus.read(target, reg, len)`; `reg` counts only when `noAddr` is false -/
  | regRead (target : BitVec 7) (noAddr : Bool) (reg : Byte) (len : BitVec 16)
  /-- `register_bus.write(target, reg, data, len)` -/
  | regWrite (target : BitVec 7) (noAddr : Bool) (reg : Byte) (len : BitVec 16) (data : List Byte)
  /-- `single_wire.read(kind, line)` -/
  | wireRead (kind : SensorKind) (l : Line)
  /-- AddressFrame `OP_WRITE` (30_encoding.md R95, R97) -/
  | frameWrite (address : BitVec 4)
  /-- AddressFrame `OP_READ_READY` -/
  | frameReadReady (address : BitVec 4)
  /-- AddressFrame `OP_READ_EXEC` -/
  | frameReadExec (address : BitVec 4)
deriving DecidableEq, Repr

end Sys2Proof
end

