-- ==== Sys2Proof/WellFormed.lean ====
section
/-! DEFINITION. Which instructions can be written as bytes (`encodable`) and which of those keep the operand contract of
the spec that does not depend on the board (`wellFormed`). -/

namespace Sys2Proof

namespace Instr

/-- A buffer has exactly `len` bytes (30_encoding.md R92: the byte count is the `len` operand before it). -/
def lenMatches (len : BitVec 16) (data : List Byte) : Bool := data.length == len.toNat

/-- The lengths an instruction names are those of its buffers, so that it can be written as bytes. -/
def encodable : Instr → Bool
  | .gpioResolve _ => true
  | .gpioSetOutput _ => true
  | .gpioSetInput _ => true
  | .gpioSetHigh _ => true
  | .gpioSetLow _ => true
  | .gpioRead _ => true
  | .serialOpen path _ _ _ => decide (path.length < 65536)
  | .serialTransfer len tx => lenMatches len tx
  | .serialTransferSecondary len tx => lenMatches len tx
  | .serialClose => true
  | .addrSelect _ _ => true
  | .addrWrite _ len data => lenMatches len data
  | .addrRead _ => true
  | .addrSetExt _ => true
  | .addrUnselectExt => true
  | .regOpenHandle _ => true
  | .regSelect _ _ _ => true
  | .regRead _ _ _ _ => true
  | .regWrite _ _ _ len data => lenMatches len data
  | .wireRead _ _ => true
  | .frameWrite _ => true
  | .frameReadReady _ => true
  | .frameReadExec _ => true

/-- The operand contract: profile fields in range (10_state.md R29: word size 1 to 255, speed nonzero) and lengths at
least 1 (U6). The reserved frame operations and the parked extension codes are well-formed operands: the operation
answers them with `ContractViolation` (R97, R182). -/
def inContract : Instr → Bool
  | .gpioResolve _ => true
  | .gpioSetOutput _ => true
  | .gpioSetInput _ => true
  | .gpioSetHigh _ => true
  | .gpioSetLow _ => true
  | .gpioRead _ => true
  | .serialOpen _ _ word speed => word != 0 && speed != 0
  | .serialTransfer len _ => len != 0
  | .serialTransferSecondary len _ => len != 0
  | .serialClose => true
  | .addrSelect _ _ => true
  | .addrWrite _ len _ => len != 0
  | .addrRead _ => true
  | .addrSetExt _ => true
  | .addrUnselectExt => true
  | .regOpenHandle _ => true
  | .regSelect _ _ _ => true
  | .regRead _ _ _ len => len != 0
  | .regWrite _ _ _ len _ => len != 0
  | .wireRead _ _ => true
  | .frameWrite _ => true
  | .frameReadReady _ => true
  | .frameReadExec _ => true

/-- A well-formed instruction: it can be written as bytes and keeps the operand contract. -/
def wellFormed (i : Instr) : Bool := i.encodable && i.inContract

end Instr

end Sys2Proof
end

