-- ==== Sys2Proof/Decode.lean ====
section
/-! DEFINITION. From bytes to an instruction, rejecting by name, and back. Two formats as in the "format" column of
opcode_table.json: a command (an 8-bit opcode, then its operands, 30_encoding.md R90, R92) and an address frame (one
byte, R95). The byte layout of operands is not in the spec (assumption 1): each operand field takes the least number of
whole bytes that hold its width, least significant byte first, unused high bits zero; the opaque `path` is preceded by
its 16-bit length. -/

namespace Sys2Proof

/-- The two encodings of opcode_table.json. -/
inductive Format where
  | command | addressFrame
deriving DecidableEq, Repr

/-- Why bytes name no instruction. -/
inductive DecodeError where
  /-- The opcode is none of the 20 of 30_encoding.md R90 (R94). -/
  | unknownOpcode (b : Byte)
  /-- The message ends inside an operand. -/
  | truncated
  /-- An operand byte has a bit set above the operand's width ("cannot be written", R94). -/
  | operandTooWide
  /-- Bytes are left after the last operand. -/
  | trailingBytes
  /-- A frame whose parity bit is not the XOR of its address bits (R96). -/
  | badParity
  /-- A frame with operation 0 or 4 to 7 (R97: reserved). -/
  | reservedFrameOperation
deriving DecidableEq, Repr

/-! ## The command opcodes (30_encoding.md R90) -/

/-- The 20 operations that have an opcode. -/
inductive Op where
  | gpioResolve | gpioSetOutput | gpioSetInput | gpioSetHigh | gpioSetLow | gpioRead
  | serialOpen | serialTransfer | serialTransferSecondary | serialClose
  | addrSelect | addrWrite | addrRead | addrSetExt | addrUnselectExt
  | regOpenHandle | regSelect | regRead | regWrite
  | wireRead
deriving DecidableEq, Repr

/-- The opcode column of 30_encoding.md R90: `(unit, index)`. -/
def Op.code : Op → Byte
  | .gpioResolve => 0x10
  | .gpioSetOutput => 0x11
  | .gpioSetInput => 0x12
  | .gpioSetHigh => 0x13
  | .gpioSetLow => 0x14
  | .gpioRead => 0x15
  | .serialOpen => 0x20
  | .serialTransfer => 0x21
  | .serialTransferSecondary => 0x22
  | .serialClose => 0x23
  | .addrSelect => 0x30
  | .addrWrite => 0x31
  | .addrRead => 0x32
  | .addrSetExt => 0x33
  | .addrUnselectExt => 0x34
  | .regOpenHandle => 0x40
  | .regSelect => 0x41
  | .regRead => 0x42
  | .regWrite => 0x43
  | .wireRead => 0x50

/-- Every operation with an opcode, in the table's order. -/
def Op.all : List Op :=
  [.gpioResolve, .gpioSetOutput, .gpioSetInput, .gpioSetHigh, .gpioSetLow, .gpioRead] ++
  [.serialOpen, .serialTransfer, .serialTransferSecondary, .serialClose] ++
  [.addrSelect, .addrWrite, .addrRead, .addrSetExt, .addrUnselectExt] ++
  [.regOpenHandle, .regSelect, .regRead, .regWrite, .wireRead]

/-- The operation of an opcode byte, if any (R94: every other byte names none). -/
def Op.ofByte (b : Byte) : Option Op := Op.all.find? (fun o => o.code == b)

/-! ## Operand fields -/

/-- Reads one byte as a field of width `w` at most 8. -/
def takeField (w : Nat) : List Byte → Except DecodeError (BitVec w × List Byte)
  | [] => .error .truncated
  | b :: bs => if b.toNat < 2 ^ w then .ok (BitVec.ofNat w b.toNat, bs) else .error .operandTooWide

/-- Reads a 16-bit field. -/
def takeHalf : List Byte → Except DecodeError (BitVec 16 × List Byte)
  | b0 :: b1 :: bs => .ok (b1 ++ b0, bs)
  | [] => .error .truncated
  | [_] => .error .truncated

/-- Reads a 32-bit field. -/
def takeWord (bs : List Byte) : Except DecodeError (BitVec 32 × List Byte) :=
  match takeHalf bs with
  | .error e => .error e
  | .ok (lo, bs) =>
    match takeHalf bs with
    | .error e => .error e
    | .ok (hi, bs) => .ok (hi ++ lo, bs)

/-- Reads a buffer of `n` bytes. -/
def takeBytes (n : Nat) (bs : List Byte) : Except DecodeError (List Byte × List Byte) :=
  if n ≤ bs.length then .ok (bs.take n, bs.drop n) else .error .truncated

/-- Reads a bank index and a bit offset. -/
def takeLine (bs : List Byte) : Except DecodeError (Line × List Byte) := do
  let (b, bs) ← takeField 2 bs
  let (i, bs) ← takeField 5 bs
  .ok (⟨b.toFin, i.toFin⟩, bs)

/-- Reads a one-bit field as a Bool. -/
def takeFlag (bs : List Byte) : Except DecodeError (Bool × List Byte) := do
  let (f, bs) ← takeField 1 bs
  .ok (f == 1#1, bs)

/-- Reads a 16-bit `len` and the `len` bytes after it (R92). -/
def takeBuffer (bs : List Byte) : Except DecodeError (BitVec 16 × List Byte × List Byte) := do
  let (len, bs) ← takeHalf bs
  let (data, bs) ← takeBytes len.toNat bs
  .ok (len, data, bs)

/-- `kind` 0 is the integer-only variant, 1 the fractional one (30_encoding.md R105). -/
def kindOfFlag (f : Bool) : SensorKind := if f then .fractional else .integerOnly

/-- The operands of each operation in the order of 30_encoding.md R90. -/
def takeOperands (o : Op) (bs : List Byte) : Except DecodeError (Instr × List Byte) :=
  match o with
  | .gpioResolve => do
    let (id, bs) ← takeHalf bs
    .ok (.gpioResolve id, bs)
  | .gpioSetOutput => do
    let (l, bs) ← takeLine bs
    .ok (.gpioSetOutput l, bs)
  | .gpioSetInput => do
    let (l, bs) ← takeLine bs
    .ok (.gpioSetInput l, bs)
  | .gpioSetHigh => do
    let (l, bs) ← takeLine bs
    .ok (.gpioSetHigh l, bs)
  | .gpioSetLow => do
    let (l, bs) ← takeLine bs
    .ok (.gpioSetLow l, bs)
  | .gpioRead => do
    let (l, bs) ← takeLine bs
    .ok (.gpioRead l, bs)
  | .serialOpen => do
    let (_, path, bs) ← takeBuffer bs
    let (mode, bs) ← takeField 2 bs
    let (word, bs) ← takeField 8 bs
    let (speed, bs) ← takeWord bs
    .ok (.serialOpen path mode word speed, bs)
  | .serialTransfer => do
    let (len, tx, bs) ← takeBuffer bs
    .ok (.serialTransfer len tx, bs)
  | .serialTransferSecondary => do
    let (len, tx, bs) ← takeBuffer bs
    .ok (.serialTransferSecondary len tx, bs)
  | .serialClose => .ok (.serialClose, bs)
  | .addrSelect => do
    let (a, bs) ← takeField 4 bs
    let (f, bs) ← takeField 3 bs
    .ok (.addrSelect a f, bs)
  | .addrWrite => do
    let (a, bs) ← takeField 4 bs
    let (len, data, bs) ← takeBuffer bs
    .ok (.addrWrite a len data, bs)
  | .addrRead => do
    let (a, bs) ← takeField 4 bs
    .ok (.addrRead a, bs)
  | .addrSetExt => do
    let (a, bs) ← takeField 4 bs
    .ok (.addrSetExt a, bs)
  | .addrUnselectExt => .ok (.addrUnselectExt, bs)
  | .regOpenHandle => do
    let (t, bs) ← takeField 7 bs
    .ok (.regOpenHandle t, bs)
  | .regSelect => do
    let (loc, bs) ← takeField 2 bs
    let (p, bs) ← takeFlag bs
    let (e, bs) ← takeField 4 bs
    .ok (.regSelect loc p e, bs)
  | .regRead => do
    let (t, bs) ← takeField 7 bs
    let (n, bs) ← takeFlag bs
    let (r, bs) ← takeField 8 bs
    let (len, bs) ← takeHalf bs
    .ok (.regRead t n r len, bs)
  | .regWrite => do
    let (t, bs) ← takeField 7 bs
    let (n, bs) ← takeFlag bs
    let (r, bs) ← takeField 8 bs
    let (len, data, bs) ← takeBuffer bs
    .ok (.regWrite t n r len data, bs)
  | .wireRead => do
    let (k, bs) ← takeFlag bs
    let (l, bs) ← takeLine bs
    .ok (.wireRead (kindOfFlag k) l, bs)

/-- Decodes the command at the front of a byte list; the rest of the list comes back with it. -/
def decodeCommand : List Byte → Except DecodeError (Instr × List Byte)
  | [] => .error .truncated
  | b :: bs =>
    match Op.ofByte b with
    | some o => takeOperands o bs
    | none => .error (.unknownOpcode b)

/-! ## The AddressFrame (30_encoding.md R95 to R97) -/

/-- `parity = address[3] ^ address[2] ^ address[1] ^ address[0]` (R96). -/
def parity (a : BitVec 4) : Bool := a.getLsbD 3 ^^ (a.getLsbD 2 ^^ (a.getLsbD 1 ^^ a.getLsbD 0))

/-- `frame = (parity << 7) | (address << 3) | operation`, most significant field first (R95). -/
def addressFrame (a : BitVec 4) (op : BitVec 3) : Byte := BitVec.ofBool (parity a) ++ a ++ op

/-- `OP_WRITE`, `OP_READ_READY`, `OP_READ_EXEC` (R97). -/
def opWrite : BitVec 3 := 1
def opReadReady : BitVec 3 := 2
def opReadExec : BitVec 3 := 3

/-- The instruction of a frame operation value; 0 and 4 to 7 are reserved (R97). -/
def frameInstr (a : BitVec 4) (op : BitVec 3) : Except DecodeError Instr :=
  if op = opWrite then .ok (.frameWrite a)
  else if op = opReadReady then .ok (.frameReadReady a)
  else if op = opReadExec then .ok (.frameReadExec a)
  else .error .reservedFrameOperation

/-- Reads a frame byte: parity bit 7, address bits 6:3, operation bits 2:0 (R95). -/
def decodeFrame : List Byte → Except DecodeError (Instr × List Byte)
  | [] => .error .truncated
  | f :: bs =>
    let a := f.extractLsb' 3 4
    if f.getLsbD 7 = parity a then
      match frameInstr a (f.extractLsb' 0 3) with
      | .ok i => .ok (i, bs)
      | .error e => .error e
    else .error .badParity

/-! ## A whole message -/

/-- Decodes the instruction at the front of a message in the given format. -/
def decodePrefix : Format → List Byte → Except DecodeError (Instr × List Byte)
  | .command, bs => decodeCommand bs
  | .addressFrame, bs => decodeFrame bs

/-- Decodes a message that is exactly one instruction. -/
def decode (f : Format) (bs : List Byte) : Except DecodeError Instr :=
  match decodePrefix f bs with
  | .error e => .error e
  | .ok (i, []) => .ok i
  | .ok (_, _ :: _) => .error .trailingBytes

/-! ## The encoder -/

/-- A field of width at most 8 as one byte. -/
def putField {w : Nat} (v : BitVec w) : List Byte := [v.setWidth 8]
/-- A 16-bit field, least significant byte first. -/
def putHalf (v : BitVec 16) : List Byte := [v.extractLsb' 0 8, v.extractLsb' 8 8]
/-- A 32-bit field, least significant byte first. -/
def putWord (v : BitVec 32) : List Byte := putHalf (v.extractLsb' 0 16) ++ putHalf (v.extractLsb' 16 16)
/-- A line: bank index, bit offset. -/
def putLine (l : Line) : List Byte := putField (BitVec.ofFin l.bank : BitVec 2) ++ putField (BitVec.ofFin l.bit : BitVec 5)
/-- A one-bit field. -/
def putFlag (f : Bool) : List Byte := putField (BitVec.ofBool f)
/-- A `len` operand and its buffer. -/
def putBuffer (len : BitVec 16) (data : List Byte) : List Byte := putHalf len ++ data
/-- The `kind` operand. -/
def flagOfKind : SensorKind → Bool
  | .integerOnly => false
  | .fractional => true

/-- The format and the bytes of an instruction. -/
def encode : Instr → Format × List Byte
  | .gpioResolve id => (.command, Op.gpioResolve.code :: putHalf id)
  | .gpioSetOutput l => (.command, Op.gpioSetOutput.code :: putLine l)
  | .gpioSetInput l => (.command, Op.gpioSetInput.code :: putLine l)
  | .gpioSetHigh l => (.command, Op.gpioSetHigh.code :: putLine l)
  | .gpioSetLow l => (.command, Op.gpioSetLow.code :: putLine l)
  | .gpioRead l => (.command, Op.gpioRead.code :: putLine l)
  | .serialOpen path mode word speed =>
    (.command, Op.serialOpen.code :: (putBuffer (BitVec.ofNat 16 path.length) path ++
      (putField mode ++ (putField word ++ putWord speed))))
  | .serialTransfer len tx => (.command, Op.serialTransfer.code :: putBuffer len tx)
  | .serialTransferSecondary len tx => (.command, Op.serialTransferSecondary.code :: putBuffer len tx)
  | .serialClose => (.command, [Op.serialClose.code])
  | .addrSelect a f => (.command, Op.addrSelect.code :: (putField a ++ putField f))
  | .addrWrite a len data => (.command, Op.addrWrite.code :: (putField a ++ putBuffer len data))
  | .addrRead a => (.command, Op.addrRead.code :: putField a)
  | .addrSetExt a => (.command, Op.addrSetExt.code :: putField a)
  | .addrUnselectExt => (.command, [Op.addrUnselectExt.code])
  | .regOpenHandle t => (.command, Op.regOpenHandle.code :: putField t)
  | .regSelect loc p e => (.command, Op.regSelect.code :: (putField loc ++ (putFlag p ++ putField e)))
  | .regRead t n r len =>
    (.command, Op.regRead.code :: (putField t ++ (putFlag n ++ (putField r ++ putHalf len))))
  | .regWrite t n r len data =>
    (.command, Op.regWrite.code :: (putField t ++ (putFlag n ++ (putField r ++ putBuffer len data))))
  | .wireRead k l => (.command, Op.wireRead.code :: (putFlag (flagOfKind k) ++ putLine l))
  | .frameWrite a => (.addressFrame, [addressFrame a opWrite])
  | .frameReadReady a => (.addressFrame, [addressFrame a opReadReady])
  | .frameReadExec a => (.addressFrame, [addressFrame a opReadExec])

/-! ## The table's numbering -/

/-- `n` bytes of a number, least significant first. -/
def bytesOfNat : Nat → Nat → List Byte
  | 0, _ => []
  | n + 1, w => BitVec.ofNat 8 w :: bytesOfNat n (w / 256)

/-- The operand words of zeros a table word may leave out: more than the longest instruction whose lengths are zero. -/
def zeroPadding : List Byte := List.replicate 16 0

/-- The format a table word is read in: a command where its first byte is a command opcode, else an address frame. The
table gives its two formats no common numbering; this is the model's choice (DESIGN CHOICE, safe, assumption 3). -/
def tableFormat : List Byte → Format
  | [] => .addressFrame
  | b :: _ => if (Op.ofByte b).isSome then .command else .addressFrame

/-- A table word read as an instruction, with its format and the bytes it takes. It is read in the one format of its first
byte and in no other: a word that starts with a command opcode and whose command does not decode is no instruction. What
the word has beyond the instruction must be zeros. Both are the model's choice (DESIGN CHOICE, safe, assumption 3). -/
def readTableWord (nbits w : Nat) : Option (Instr × Format × List Byte) :=
  let bytes := bytesOfNat ((nbits + 7) / 8) w ++ zeroPadding
  match decodePrefix (tableFormat bytes) bytes with
  | .ok (i, rest) =>
    if rest.all (fun b => b == 0) then some (i, tableFormat bytes, bytes.take (bytes.length - rest.length)) else none
  | .error _ => none

/-- The instruction the decoder reads from a table word. -/
def decodeTableWord (nbits w : Nat) : Option Instr := (readTableWord nbits w).map (fun r => r.1)

end Sys2Proof
end

