-- ==== Sys2Proof/Machine/State.lean ====
section
/-! DEFINITION. The state of the block (10_state.md R20 to R38), the results and events it answers with (00_scope.md R11,
60_exceptions.md R231), and the reasons a step can stop. All of it is plain data. -/

namespace Sys2Proof.Machine

/-! ## Errors and results -/

/-- What `DeviceOpenFailed` carries: "the bank, the path or the target" (60_exceptions.md R231). -/
inductive Device where
  | bank (b : Fin 4)
  | path (p : List Byte)
  | target (t : BitVec 7)
deriving DecidableEq, Repr

/-- "the offending operand" of `ContractViolation` (60_exceptions.md R231). -/
inductive Operand where
  | frameOperation (op : BitVec 3)
  | extensionCode (ext : BitVec 4)
deriving DecidableEq, Repr

/-- The nine error kinds with what each carries (60_exceptions.md R231). -/
inductive Error where
  | invalidPin (id : BitVec 16)
  | deviceOpenFailed (d : Device)
  | mapFailed (b : Fin 4)
  | transferFailed
  | writeFailed
  | readFailed
  | timeout
  | checksumFailed
  | contractViolation (o : Operand)
deriving DecidableEq, Repr

/-- What an operation returns on success (result column of 30_encoding.md R90). -/
inductive Value where
  /-- no value -/
  | unit
  /-- a `GpioLine` with its logical id (10_state.md R27) -/
  | line (id : BitVec 16) (l : Line)
  | bit (v : Bool)
  /-- the handle of the one serial bus; it carries no number (R141) -/
  | busHandle
  | bytes (bs : List Byte)
  | count (n : Nat)
  | byte (b : Byte)
  /-- the handle of a two-wire target, the address itself (10_state.md R32) -/
  | targetHandle (t : BitVec 7)
  /-- humidity and temperature in tenths (44_single_wire.md R213) -/
  | climate (humidityX10 : Nat) (temperatureX10 : Int)
deriving DecidableEq, Repr

/-- The one result of a command: `Ok` with a value, or an error kind (30_encoding.md R91). -/
inductive Result where
  | ok (v : Value)
  | error (e : Error)
deriving DecidableEq, Repr

/-! ## Events -/

/-- The direction of a line. -/
inductive Dir where
  | out | inp
deriving DecidableEq, Repr

/-- The external events of 00_scope.md R11. An exchange's result is `some rx` for `Ok(rx)`, `none` for `Fail`. -/
inductive Event where
  | mapWindow (b : Fin 4)
  | gpioDir (l : Line) (d : Dir)
  | gpioLevel (l : Line) (v : Bool)
  | gpioSample (l : Line) (v : Bool)
  | spiOpen
  | spiClose
  | spiProfile (p : Profile)
  | spiExchange (p : Profile) (tx : List Byte) (rx : Option (List Byte))
  | spiWrite (p : Profile) (tx : List Byte) (n : Int)
  | i2cOpen (t : BitVec 7)
  | i2cWrite (t : BitVec 7) (bytes : List Byte) (n : Int)
  | i2cRead (t : BitVec 7) (n : Nat) (k : Int) (bytes : List Byte)
  | hold (ms : Nat)
deriving DecidableEq, Repr

/-! ## Steps of an operation -/

/-- The line a step drives: a `GpioLine` operand or a role line (40_gpio.md R127). -/
inductive LineRef where
  | line (l : Line)
  | role (r : Role)
deriving DecidableEq, Repr

/-- The module a frame names: an operand or `addr.ext_addr` (42_addressing.md R165). -/
inductive AddrRef where
  | imm (a : BitVec 4)
  | ext
deriving DecidableEq, Repr

/-- The bytes a transfer sends, before the board's parameters are put in (00_scope.md R7): given bytes, the payload byte of a
selector code (30_encoding.md R100), or the fill byte of a raw read (42_addressing.md R164). -/
inductive Payload where
  | bytes (bs : List Byte)
  | selector (ext : BitVec 4)
  | fill
deriving DecidableEq, Repr

/-- The phases of the DHT unit (10_state.md R34). -/
inductive Phase where
  | idle | wake | request | listen | sample | decode | validate | interpret
deriving DecidableEq, Repr

/-- Where a polled measurement puts its count (44_single_wire.md R204, R206). -/
inductive CountDest where
  | wait | low | high
deriving DecidableEq, Repr

/-- One step of an operation's rule: at most one register access or one bus transfer, the grain at which operations of
different requesters interleave (20_memory.md R68, R71). Each rule of files 40 to 44 is a list of these. -/
inductive Micro where
  /-- the role lines the unit needs are resolved: no rule of files 41 to 44 runs without (40_gpio.md R128) -/
  | requireRoles (rs : List Role)
  /-- take `lock.serial`, waiting while another requester holds it (20_memory.md R73) -/
  | takeSerial
  /-- take `lock.twowire` -/
  | takeTwowire
  /-- release `lock.serial` before the operation ends (43_register_bus.md R182) -/
  | releaseSerial
  /-- the length contract: 1 to `MAX_LEN` and exactly the buffer's length (U6) -/
  | requireLen (len : BitVec 16) (actual : Nat)
  /-- the ranges of 10_state.md R29 (U4) -/
  | requireProfile (p : Profile)
  /-- `require spi.open = 1` (41_serial_bus.md R140) -/
  | requireOpen
  /-- `require i2c.handle[t] = 1` (43_register_bus.md R187) -/
  | requireHandle (t : BitVec 7)
  /-- no other single-wire read in flight on the line (U8) -/
  | requireSole (l : Line)
  /-- the indivisible body of `gpio.resolve` (40_gpio.md R121, 20_memory.md R77) -/
  | resolve (id : BitVec 16)
  /-- `v <- MemRead(base + OFF_OE, 4)` -/
  | oeRead (l : LineRef)
  /-- `MemWrite(base + OFF_OE, 4, v with the line's bit cleared or set)` and its `GpioDir` event -/
  | oeWrite (l : LineRef) (d : Dir)
  /-- a write of the line's mask to the set or clear port and its `GpioLevel` event -/
  | level (l : LineRef) (v : Bool)
  /-- `MemRead(base + OFF_DATAIN, 4)`, one bit of it returned, and its `GpioSample` event -/
  | sample (l : LineRef)
  /-- the body of `serial_bus.open` (41_serial_bus.md R141) -/
  | openBus (path : List Byte) (p : Profile)
  /-- the body of `serial_bus.close` (R148) -/
  | closeBus
  /-- switch to the secondary profile if the active one differs, saving it (R146) -/
  | enterSecondary
  /-- restore the saved profile, if any (R146) -/
  | leaveSecondary
  /-- `env.spi_exchange` under the active profile (R143, R149) -/
  | exchange (tx : Payload)
  /-- the exchange of one AddressFrame byte (42_addressing.md R161) -/
  | sendFrame (a : AddrRef) (op : BitVec 3)
  /-- `env.spi_write` under the active profile (R149) -/
  | rawWrite (data : Payload)
  /-- raise the error if the last exchange failed -/
  | checkRx (e : Error)
  /-- raise the error if the last count is below the bound -/
  | checkCount (least : Nat) (e : Error)
  /-- return the bytes of the last exchange or read -/
  | returnRx
  /-- return the first byte of the last exchange -/
  | returnByte
  /-- return the last count -/
  | returnCount
  /-- raise `ContractViolation` for a reserved frame operation (R161) -/
  | checkFrameOp (op : BitVec 3)
  /-- `addr.ext_addr <- address` (R166) -/
  | setExt (a : BitVec 4)
  /-- return `Ok` if no extension board is configured (R167) -/
  | stopIfNoExt
  /-- the indivisible body of `register_bus.open_channel_handle` (43_register_bus.md R181) -/
  | openHandle (t : BitVec 7)
  /-- the two contract checks of `select_channel` (R182) -/
  | checkExt (ext : BitVec 4)
  /-- `env.i2c_write` (R184, R186) -/
  | busWrite (t : BitVec 7) (bytes : List Byte)
  /-- `env.i2c_read` (R184) -/
  | busRead (t : BitVec 7) (n : Nat)
  /-- `hold(t)` (00_scope.md R13) -/
  | hold (ms : Nat)
  /-- `dht.phase <- name` -/
  | phase (p : Phase)
  /-- one poll of `measure(L, level)`; repeats until the line changes level or the bound is passed (R205) -/
  | poll (l : LineRef) (level : Bool) (dest : CountDest)
  /-- `dht.thr <- mean of low[1..40]` (R208) -/
  | threshold
  /-- the 40 bits packed into 5 bytes (R209) -/
  | packBits
  /-- the checksum test (R210) -/
  | validate
  /-- the result in tenths (R211 to R213) -/
  | interpret (k : SensorKind)
deriving DecidableEq, Repr

/-! ## Transient state -/

/-- The DHT unit's registers (10_state.md R34); they exist while one `single_wire.read` runs. A count not yet measured
is absent from its list, so no undefined register can be read. `count` is the counter `c` of `measure` (R205). -/
structure Dht where
  phase : Phase
  count : Nat
  wait  : Option Nat
  low   : List Nat
  high  : List Nat
  thr   : Option Nat
  bytes : List Byte
deriving DecidableEq, Repr

/-- The DHT registers at the start of an operation. -/
def Dht.fresh : Dht :=
  { phase := .idle, count := 0, wait := none, low := [], high := [], thr := none, bytes := [] }

/-- An operation in flight: its requester, the steps it still has to make, and its transient state (10_state.md R20):
the saved profile (R36), the DHT registers (R34), the local values of its rule (the word read from `OE`, the answer of
the last transfer), and the result it returns at its end. -/
structure Job where
  who    : Nat
  instr  : Instr
  todo   : List Micro
  saved  : Option Profile
  oeWord : Word
  rx     : Option (List Byte)
  count  : Int
  dht    : Dht
  result : Result
deriving DecidableEq, Repr

/-! ## Inputs -/

/-- The environment's answers to come (00_scope.md R10), one queue per primitive, and the draw counter that takes over
where a queue is empty or its answer breaks the primitive's law. `pads` and `driven` are the levels of the 32 lines of
a bank at one read of `DATAIN`: those given from outside (`env.pad`), and those read on lines the block drives (R22). -/
structure Env where
  openMem  : List Bool
  map      : List Bool
  pads     : List Word
  driven   : List Word
  spiOpen  : List Bool
  exchange : List (Option (List Byte))
  spiWrite : List Int
  i2cOpen  : List Bool
  i2cWrite : List Int
  i2cRead  : List (Int × List Byte)
  draws    : Nat
deriving DecidableEq, Repr

/-- Nothing scripted: every answer is a free value. -/
def Env.unscripted : Env :=
  { openMem := [], map := [], pads := [], driven := [], spiOpen := [], exchange := [], spiWrite := [], i2cOpen := [],
    i2cWrite := [], i2cRead := [], draws := 0 }

/-- What happens next from outside: a requester issues a command that runs as far as it can without another requester
moving, or only enters it in flight, or its operation in flight makes one step. Every interleaving at the grain of
20_memory.md R71 is a list of these. -/
inductive Input where
  | issue (who : Nat) (f : Format) (bytes : List Byte)
  | start (who : Nat) (f : Format) (bytes : List Byte)
  | grain (who : Nat)
deriving DecidableEq, Repr

/-! ## The state -/

/-- The state of the block, and beside it what the model holds outside the block: the board's parameters, the
requesters' and the environment's inputs, and the observable behaviour (00_scope.md R11). -/
structure State where
  /-- `OE[b]`, 32 bits, bit 0 = driven as an output (10_state.md R21, R22). -/
  oe         : Vector Word 4
  /-- `DATAOUT[b]`, the output latch, 32 bits (R21, R23). -/
  dataOut    : Vector Word 4
  /-- `win_mapped[b]` (R26). -/
  winMapped  : Vector Bool 4
  /-- `spi.open` (R28). -/
  spiOpen    : Bool
  /-- `spi.primary` (R28). -/
  spiPrimary : Profile
  /-- `spi.active` (R28). -/
  spiActive  : Profile
  /-- `addr.ext_addr` (R30). -/
  extAddr    : Option (BitVec 4)
  /-- `i2c.handle[a]`, one bit for each target address (R32). -/
  i2cHandle  : Vector Bool 128
  /-- `lock.serial`: free or a requester (R35). -/
  lockSerial : Option Nat
  /-- `lock.twowire` (R35). -/
  lockTwowire : Option Nat
  /-- The operations in flight with their transient state (R20, R34, R36), in the order they were issued. -/
  inflight   : List Job
  /-- The OPEN parameters (00_scope.md R7); constant. -/
  board      : Board
  /-- The lines `gpio.resolve` has returned (40_gpio.md R127). -/
  resolved   : List Line
  /-- The requester whose command is issued. -/
  cur        : Nat
  /-- What the requesters do next. -/
  inputs     : List Input
  /-- What the environment answers next. -/
  env        : Env
  /-- The event trace, oldest first (00_scope.md R11). -/
  trace      : List Event
  /-- The results returned, with their requesters, oldest first (00_scope.md R11). -/
  results    : List (Nat × Result)
deriving DecidableEq, Repr

/-! ## Reasons to stop -/

/-- The block has no fault that stops it: every failure is a result returned to the requester (60_exceptions.md R230),
so this type has no constructor and nobody raises one. -/
inductive Fault where
deriving DecidableEq, Repr

/-- Cases the spec tells a model to refuse (93_implementation_defined.md, treatment `refuse`). Each is safe: nothing can
be proved by passing through it. -/
inductive Refusal where
  /-- Raised by `exec` alone, for an instruction that has no meaning yet. Safe. -/
  | notModelled (mnemonic : String)
  /-- Raised by the fetch for bytes that name no instruction (R94, U19). Safe. -/
  | illegalCommand (e : DecodeError)
  /-- Raised by the fetch for a requester number not below `N_REQ` (00_scope.md R9). Safe. -/
  | noSuchRequester
  /-- Raised by every operation issued by a requester that has one in flight ("each issues one operation at a time and
  waits for its result", 00_scope.md R9). Safe. -/
  | requesterBusy
  /-- Raised by a `grain` input of a requester that has nothing in flight. Safe. -/
  | nothingInFlight
  /-- Raised by the serial-bus and addressing operations on a closed bus (U3). Safe. -/
  | busClosed
  /-- Raised by `serial_bus.open` on an open bus (U3). Safe. -/
  | busAlreadyOpen
  /-- Raised by `serial_bus.open` for word size 0 or speed 0 (U4). Safe. -/
  | profileOutOfRange
  /-- Raised by `register_bus.read` and `write` on a handle never opened (U5). Safe. -/
  | handleNotOpen
  /-- Raised by operations with a `len` operand: 0, above `MAX_LEN`, or not the buffer's length (U6). Safe. -/
  | badLength
  /-- Raised by the GPIO operations and `single_wire.read` on a line no `gpio.resolve` returned (U7), and by every operation
  of a unit one of whose role lines is not resolved ("the unit that needs the line cannot be used", 40_gpio.md R128).
  Safe. -/
  | lineNotResolved
  /-- Raised by `single_wire.read` on a line another one is reading (U8). Safe. -/
  | lineInUse
  /-- Raised by a window access whose bank is not mapped (20_memory.md R63). Safe. -/
  | windowUnmapped
  /-- Raised by a window access that is not 4 bytes wide (R64, U9). Safe. -/
  | accessNotWord
  /-- Raised by a window access that is not 4-byte aligned (R66, U9). Safe. -/
  | accessMisaligned
  /-- Raised by an access to an address that is none of the five registers of a window (R62, U9). Safe. -/
  | noRegisterAtAddress
  /-- Raised by an access of a kind the register does not have: a read of a set or clear port (R23, U9), a write of
  `DATAIN`, any access to the latch's own offset ("not accessed by any operation", R62). Safe. -/
  | accessKindForbidden
deriving DecidableEq, Repr

/-! ## One step of an operation, and reset -/

/-- What one step of an operation does: go on, stay at the same step (a poll), end the operation, wait for a lock, or
stop the model. -/
inductive MicroOut where
  | go (j : Job) (s : State)
  | again (j : Job) (s : State)
  | stop (j : Job) (s : State)
  | wait
  | refuse (r : Refusal)
deriving DecidableEq, Repr

/-- The machine right after reset (10_state.md R38). The reset values of `OE`, `DATAOUT` and of the profile registers of
the closed bus are free values. -/
def State.reset : State where
  oe := Vector.ofFn Config.resetOe
  dataOut := Vector.ofFn Config.resetDataOut
  winMapped := #v[false, false, false, false]
  spiOpen := false
  spiPrimary := Config.freeProfile 0
  spiActive := Config.freeProfile 1
  extAddr := none
  i2cHandle := Vector.replicate 128 false
  lockSerial := none
  lockTwowire := none
  inflight := []
  board := Config.board
  resolved := []
  cur := 0
  inputs := []
  env := { Env.unscripted with draws := 2 }
  trace := []
  results := []

end Sys2Proof.Machine
end

