-- ==== Sys2Proof/Machine/Flags.lean ====
section
/-! DEFINITION. The one-bit conditions the rules compute. The block has no status flags (10_state.md R25); these are the
tests its rules make on operands, profiles and bytes. The parity bit of a frame is `parity` in Decode.lean. -/

namespace Sys2Proof.Machine

/-- "is not the fixed secondary profile (mode 3, 8-bit words)": clock mode and word size are compared, not the speed
(41_serial_bus.md R146, D12). -/
def differsFromSecondary (p : Profile) : Bool := p.mode != Config.secMode || p.word != Config.secWord

/-- A selector code either half of which is zero is parked (30_encoding.md R99). -/
def parked (ext : BitVec 4) : Bool := ext.extractLsb' 2 2 == 0 || ext.extractLsb' 0 2 == 0

/-- The frame operations that exist (30_encoding.md R97). -/
def frameOperation (op : BitVec 3) : Bool := op == opWrite || op == opReadReady || op == opReadExec

/-- `byte[4]` equals the truncated sum of `byte[0..3]` (44_single_wire.md R210). -/
def checksumOk (bytes : List Byte) : Bool :=
  match bytes with
  | [b0, b1, b2, b3, b4] => b4 == b0 + b1 + b2 + b3
  | _ => false

/-- The length contract of a `len` operand and its buffer: 1 to `MAX_LEN`, exactly the buffer (U6, D24). -/
def lengthOk (maxLen : Nat) (len : BitVec 16) (actual : Nat) : Bool :=
  len != 0 && actual == len.toNat && Nat.ble len.toNat maxLen

/-- The ranges of 10_state.md R29: word size 1 to 255, speed nonzero; the mode has 2 bits. -/
def profileOk (p : Profile) : Bool := p.word != 0 && p.speed != 0

/-! ## Error kinds (60_exceptions.md R231 to R234) -/

/-- The numeric code of an error kind; 0 is `Ok` (R231, D3). -/
def Error.code : Error → Nat
  | .invalidPin _ => 1
  | .deviceOpenFailed _ => 2
  | .mapFailed _ => 3
  | .transferFailed => 4
  | .writeFailed => 5
  | .readFailed => 6
  | .timeout => 7
  | .checksumFailed => 8
  | .contractViolation _ => 9

/-- The status code of a result (30_encoding.md R91). -/
def Result.code : Result → Nat
  | .ok _ => 0
  | .error e => e.code

/-- "must propagate as fatal to the caller" (R232). It changes nothing in the block. -/
def Error.fatal : Error → Bool
  | .invalidPin _ => false
  | .deviceOpenFailed _ => true
  | .mapFailed _ => true
  | .transferFailed => false
  | .writeFailed => false
  | .readFailed => false
  | .timeout => false
  | .checksumFailed => false
  | .contractViolation _ => false

/-- The recoverable class (R233). -/
def Error.recoverable : Error → Bool
  | .invalidPin _ => false
  | .deviceOpenFailed _ => false
  | .mapFailed _ => false
  | .transferFailed => true
  | .writeFailed => true
  | .readFailed => true
  | .timeout => true
  | .checksumFailed => true
  | .contractViolation _ => false

end Sys2Proof.Machine
end

