-- ==== Sys2Proof/Machine/Operands.lean ====
section
/-! DEFINITION. Operand forms and the values computed from them: line masks, frame and selector bytes, two-wire buffers,
and the decoding of a pulse train (44_single_wire.md R208 to R213). -/

namespace Sys2Proof.Machine

/-- `mask(L) = 1 << L.i` (40_gpio.md R120). -/
def mask (l : Line) : Word := 1#32 <<< l.bit.val

/-- `(v >> L.i) & 1` (40_gpio.md R126). -/
def lineBit (v : Word) (l : Line) : Bool := v.getLsbD l.bit.val

/-- `v` with the line's bit cleared (`out`, R122) or set (`inp`, R123). -/
def withDir (v : Word) (l : Line) : Dir → Word
  | .out => v &&& ~~~ mask l
  | .inp => v ||| mask l

/-- The register byte `k` of a register, little-endian (20_memory.md R65). -/
def registerByte (v : Word) (k : Nat) : Byte := v.extractLsb' (8 * k) 8

/-- `EXT_SEL_ENCODE(ext)` (30_encoding.md R100), a parameter of the board; `zext_8(ext)` where the board takes its listed
value. -/
def extSelEncode (bd : Board) (ext : BitVec 4) : Byte := bd.data.extSel[ext.toFin]

/-- The bytes a transfer sends. -/
def payloadBytes (bd : Board) : Payload → List Byte
  | .bytes bs => bs
  | .selector ext => [extSelEncode bd ext]
  | .fill => [bd.data.rawFill]

/-- The level of `MUX0` (bit 0) and of `MUX1` (bit 1) for a local channel (30_encoding.md R101). -/
def muxLevel (loc : BitVec 2) (bit : Nat) : Bool := loc.getLsbD bit

/-- The bytes of a register-bus write: `[reg] ++ data`, or `data` alone in the no-address form (30_encoding.md R102,
R103). -/
def regBuffer (noAddr : Bool) (reg : Byte) (data : List Byte) : List Byte :=
  if noAddr then data else reg :: data

/-! ## The pulse train -/

/-- The mean of `low[1..40]`, rounded down; pair 0 is the preamble and is discarded (44_single_wire.md R208). -/
def meanLow (low : List Nat) : Nat := (low.drop 1).sum / 40

/-- Bit `n` is 1 when `high[n + 1]` is at least the threshold (R209). -/
def pulseBits (thr : Nat) (high : List Nat) : List Bool := (high.drop 1).map (fun h => Nat.ble thr h)

/-- A byte of bits, the first one most significant (R209, D28). -/
def byteOfBits (bits : List Bool) : Byte := bits.foldl (fun acc b => acc <<< 1 ||| (BitVec.ofBool b).setWidth 8) 0

/-- Five bytes of eight bits each (R209). -/
def packBytes (bits : List Bool) : List Byte :=
  [0, 1, 2, 3, 4].map (fun k => byteOfBits ((bits.drop (8 * k)).take 8))

/-- Byte `k` of the payload. -/
def payloadByte (bytes : List Byte) (k : Nat) : Nat := (bytes.getD k 0).toNat

/-- The result in tenths (R211 to R213): integer-only, both bytes times 10; fractional, `H` and the signed magnitude
`M`. -/
def climateOf (k : SensorKind) (bytes : List Byte) : Value :=
  match k with
  | .integerOnly => .climate (payloadByte bytes 0 * 10) (payloadByte bytes 2 * 10 : Nat)
  | .fractional =>
    let h := payloadByte bytes 0 * 256 + payloadByte bytes 1
    let m : Nat := (payloadByte bytes 2 % 128) * 256 + payloadByte bytes 3
    .climate h (if (bytes.getD 2 0).getLsbD 7 then - (m : Int) else m)

/-- A pulse train decoded, checked and interpreted (R208 to R213): a function of the train and the kind alone
(R215). -/
def decodeTrain (k : SensorKind) (low high : List Nat) : Result :=
  let bytes := packBytes (pulseBits (meanLow low) high)
  if checksumOk bytes then .ok (climateOf k bytes) else .error .checksumFailed

end Sys2Proof.Machine
end

