-- ==== Sys2Proof/Machine/Ops.lean ====
section
/-! DEFINITION. The shared operations: events, the environment's answers, the register windows, GPIO accesses, profile
switches, locks, and the two ends of an operation, raising an error (60_exceptions.md R230, 00_scope.md R13) and
returning (R244). -/

namespace Sys2Proof.Machine

/-! ## Events -/

/-- `emit E`: appends an event to the trace (00_scope.md R13). -/
def emit (e : Event) (s : State) : State := { s with trace := s.trace ++ [e] }

/-! ## The environment's answers (00_scope.md R10) -/

/-- The next answer of a queue if it keeps the primitive's law, else a free value at the draw counter. Answers with the
rest of the queue and the counter. -/
def nextAnswer {α : Type} (queue : List α) (law : α → Bool) (free : Nat → α) (draws : Nat) : α × List α × Nat :=
  match queue with
  | [] => (free draws, [], draws + 1)
  | a :: rest => if law a then (a, rest, draws) else (free draws, rest, draws + 1)

/-- No law. -/
def anyAnswer {α : Type} (_ : α) : Bool := true

/-- `env.open_mem()`. -/
def Env.askOpenMem (e : Env) : Bool × Env :=
  let r := nextAnswer e.openMem anyAnswer Config.freeFlag e.draws
  (r.1, { e with openMem := r.2.1, draws := r.2.2 })

/-- `env.map(base, size)`. -/
def Env.askMap (e : Env) : Bool × Env :=
  let r := nextAnswer e.map anyAnswer Config.freeFlag e.draws
  (r.1, { e with map := r.2.1, draws := r.2.2 })

/-- `env.pad(b, i)` for the 32 lines of a bank at one read. -/
def Env.askPads (e : Env) : Word × Env :=
  let r := nextAnswer e.pads anyAnswer Config.freeWord e.draws
  (r.1, { e with pads := r.2.1, draws := r.2.2 })

/-- The draw for the `DATAIN` bits of lines the block drives (10_state.md R22). -/
def Env.askDriven (e : Env) : Word × Env :=
  let r := nextAnswer e.driven anyAnswer Config.freeWord e.draws
  (r.1, { e with driven := r.2.1, draws := r.2.2 })

/-- `env.spi_open(path)`. -/
def Env.askSpiOpen (e : Env) : Bool × Env :=
  let r := nextAnswer e.spiOpen anyAnswer Config.freeFlag e.draws
  (r.1, { e with spiOpen := r.2.1, draws := r.2.2 })

/-- `n` free bytes. -/
def freeBytes (d n : Nat) : List Byte := (List.range n).map (Config.freeByte d)

/-- The law of `env.spi_exchange`: `|rx| = |tx|`. -/
def exchangeLaw (n : Nat) : Option (List Byte) → Bool
  | none => true
  | some rx => rx.length == n

/-- A free answer of `env.spi_exchange`. -/
def freeExchange (n d : Nat) : Option (List Byte) := if Config.freeFlag d then some (freeBytes d n) else none

/-- `env.spi_exchange(profile, tx)` for `n` bytes: `some rx` or failure. -/
def Env.askExchange (n : Nat) (e : Env) : Option (List Byte) × Env :=
  let r := nextAnswer e.exchange (exchangeLaw n) (freeExchange n) e.draws
  (r.1, { e with exchange := r.2.1, draws := r.2.2 })

/-- The law of `env.spi_write` and `env.i2c_write`: negative, or at most the bytes given. -/
def countLaw (n : Nat) (k : Int) : Bool := decide (k ≤ n)

/-- A free count under that law. -/
def freeCount (n d : Nat) : Int := min (Config.freeInt d) n

/-- `env.spi_write(profile, tx)` for `n` bytes. -/
def Env.askSpiWrite (n : Nat) (e : Env) : Int × Env :=
  let r := nextAnswer e.spiWrite (countLaw n) (freeCount n) e.draws
  (r.1, { e with spiWrite := r.2.1, draws := r.2.2 })

/-- `env.i2c_open(target)`. -/
def Env.askI2cOpen (e : Env) : Bool × Env :=
  let r := nextAnswer e.i2cOpen anyAnswer Config.freeFlag e.draws
  (r.1, { e with i2cOpen := r.2.1, draws := r.2.2 })

/-- `env.i2c_write(target, bytes)` for `n` bytes. -/
def Env.askI2cWrite (n : Nat) (e : Env) : Int × Env :=
  let r := nextAnswer e.i2cWrite (countLaw n) (freeCount n) e.draws
  (r.1, { e with i2cWrite := r.2.1, draws := r.2.2 })

/-- The law of `env.i2c_read`: `k` negative or at most `n`, and `|bytes| = max(k, 0)`. -/
def readLaw (n : Nat) (a : Int × List Byte) : Bool := countLaw n a.1 && a.2.length == a.1.toNat

/-- A free answer of `env.i2c_read`. -/
def freeRead (n d : Nat) : Int × List Byte := (freeCount n d, freeBytes d (freeCount n d).toNat)

/-- `env.i2c_read(target, n)`. -/
def Env.askI2cRead (n : Nat) (e : Env) : (Int × List Byte) × Env :=
  let r := nextAnswer e.i2cRead (readLaw n) (freeRead n) e.draws
  (r.1, { e with i2cRead := r.2.1, draws := r.2.2 })

/-- The levels of a bank's `DATAIN` bits at one read: what comes from outside, and the draw for driven lines. -/
def Env.askLevels (e : Env) : (Word × Word) × Env :=
  ((e.askPads.1, e.askPads.2.askDriven.1), e.askPads.2.askDriven.2)

/-- What the profile registers hold on a closed bus: two free profiles (10_state.md R38, 41_serial_bus.md R148). -/
def forgetProfiles (s : State) : State :=
  { s with
    spiPrimary := Config.freeProfile s.env.draws
    spiActive := Config.freeProfile (s.env.draws + 1)
    env := { s.env with draws := s.env.draws + 2 } }

/-! ## The register windows (20_memory.md R60 to R68) -/

/-- The registers of the four windows. -/
def allRegisters : List (Fin 4 × Reg) :=
  [0, 1, 2, 3].flatMap (fun b => [(b, .oe), (b, .dataIn), (b, .dataOut), (b, .clearDataOut), (b, .setDataOut)])

/-- The register at a physical address (R62, R63). -/
def registerAt (bd : Board) (addr : Nat) : Option (Fin 4 × Reg) :=
  allRegisters.find? (fun p => bd.addr p.1 p.2 == addr)

/-- The checks every window access meets: 4 bytes wide (R64), aligned (R66), one of the five registers of a window
(R62), the window mapped (R63). -/
def access (addr n : Nat) (s : State) : Except Refusal (Fin 4 × Reg) :=
  if n ≠ 4 then .error .accessNotWord
  else if addr % 4 ≠ 0 then .error .accessMisaligned
  else match registerAt s.board addr with
    | none => .error .noRegisterAtAddress
    | some (b, r) => if s.winMapped[b] then .ok (b, r) else .error .windowUnmapped

/-- `DATAIN` as read now, from `OE`, the levels outside and the draw: `env.pad` on input lines, the draw on driven lines
(10_state.md R22). -/
def dataInWord (oe pads driven : Word) : Word := (pads &&& oe) ||| (driven &&& ~~~ oe)

/-- A read of `DATAIN[b]`. -/
def dataIn (b : Fin 4) (s : State) : Word × State :=
  (dataInWord s.oe[b] s.env.askLevels.1.1 s.env.askLevels.1.2, { s with env := s.env.askLevels.2 })

/-- `MemRead(addr, n)` (00_scope.md R13). `OE` is readable and a read of it has no side effect; `DATAIN` reads the pads;
the ports have no read side and the latch's own offset is not accessed (20_memory.md R62, R67). -/
def memRead (addr n : Nat) (s : State) : Except Refusal (Word × State) :=
  match access addr n s with
  | .error r => .error r
  | .ok (b, .oe) => .ok (s.oe[b], s)
  | .ok (b, .dataIn) => .ok (dataIn b s)
  | .ok (_, .dataOut) => .error .accessKindForbidden
  | .ok (_, .clearDataOut) => .error .accessKindForbidden
  | .ok (_, .setDataOut) => .error .accessKindForbidden

/-- `MemWrite(addr, n, v)`: `OE` takes the value; the set port ors it into `DATAOUT`, the clear port clears its bits,
each in one indivisible step (10_state.md R23). -/
def memWrite (addr n : Nat) (v : Word) (s : State) : Except Refusal State :=
  match access addr n s with
  | .error r => .error r
  | .ok (b, .oe) => .ok { s with oe := s.oe.set b v }
  | .ok (b, .setDataOut) => .ok { s with dataOut := s.dataOut.set b (s.dataOut[b] ||| v) }
  | .ok (b, .clearDataOut) => .ok { s with dataOut := s.dataOut.set b (s.dataOut[b] &&& ~~~ v) }
  | .ok (_, .dataIn) => .error .accessKindForbidden
  | .ok (_, .dataOut) => .error .accessKindForbidden

/-- The byte of the stored registers at a physical address, little-endian (20_memory.md R65): the one-byte view of the
device-register space. Only `OE` and `DATAOUT` are stored; `DATAIN` is a function of the pads and the ports hold
nothing. It observes and is no access of the block. -/
def storedByte (s : State) (addr : Nat) : Option Byte :=
  match registerAt s.board (addr - addr % 4) with
  | some (b, .oe) => some (registerByte s.oe[b] (addr % 4))
  | some (b, .dataOut) => some (registerByte s.dataOut[b] (addr % 4))
  | some (_, .dataIn) => none
  | some (_, .clearDataOut) => none
  | some (_, .setDataOut) => none
  | none => none

/-! ## Lines -/

/-- The line a step drives, if a `gpio.resolve` has returned it (40_gpio.md R127). -/
def lineOf (s : State) : LineRef → Except Refusal Line
  | .line l => if s.resolved.contains l then .ok l else .error .lineNotResolved
  | .role r => if s.resolved.contains (s.board.roleLine r) then .ok (s.board.roleLine r) else .error .lineNotResolved

/-- The level the block puts on a line's pad, if it drives it (10_state.md R22). -/
def drivenLevel (s : State) (l : Line) : Option Bool :=
  if lineBit s.oe[l.bank] l then none else some (lineBit s.dataOut[l.bank] l)

/-- The local channel selection `(MUX1, MUX0)`, two latch bits (10_state.md R31). -/
def localSelector (s : State) : BitVec 2 :=
  let l1 := s.board.roleLine .mux1
  let l0 := s.board.roleLine .mux0
  BitVec.ofBool (lineBit s.dataOut[l1.bank] l1) ++ BitVec.ofBool (lineBit s.dataOut[l0.bank] l0)

/-- The latch bit of a line. -/
def latch (s : State) (l : Line) : Bool := lineBit s.dataOut[l.bank] l

/-! ## The two ends of an operation -/

/-- `raise <Error>(info)`: ends the operation with the error as its result, no state of the block touched beyond what
the rule's earlier steps did (00_scope.md R13, 60_exceptions.md R230, R243). The clean-up steps of a rule stand before
the step that raises. -/
def raise (e : Error) (j : Job) (s : State) : MicroOut := .stop { j with result := .error e } s

/-- Early return of the result the operation has. -/
def stopOk (j : Job) (s : State) : MicroOut := .stop j s

/-- Frees a lock if the requester holds it. -/
def unlock (who : Nat) (lock : Option Nat) : Option Nat := if lock = some who then none else lock

/-- The return of an operation: its locks are free and its requester has the result (60_exceptions.md R243, R244,
20_memory.md R73). -/
def finish (j : Job) (s : State) : State :=
  { s with
    lockSerial := unlock j.who s.lockSerial
    lockTwowire := unlock j.who s.lockTwowire
    results := s.results ++ [(j.who, j.result)] }

/-- Puts an operation into flight. -/
def park (j : Job) (todo : List Micro) (s : State) : State :=
  { s with inflight := s.inflight ++ [{ j with todo := todo }] }

end Sys2Proof.Machine
end

