-- ==== Sys2Proof/Machine/Micro.lean ====
section
/-! DEFINITION. What each step of an operation does: one small definition for each, and the table `micro`. A step makes at
most one register access or one bus transfer (20_memory.md R68). -/

namespace Sys2Proof.Machine

/-! ## Locks (20_memory.md R73, R74) -/

/-- Takes `lock.serial`; a sub-operation does not take it again (R74). -/
def stepTakeSerial (j : Job) (s : State) : MicroOut :=
  match s.lockSerial with
  | none => .go j { s with lockSerial := some j.who }
  | some holder => if holder = j.who then .go j s else .wait

/-- Takes `lock.twowire`. -/
def stepTakeTwowire (j : Job) (s : State) : MicroOut :=
  match s.lockTwowire with
  | none => .go j { s with lockTwowire := some j.who }
  | some holder => if holder = j.who then .go j s else .wait

/-- Releases `lock.serial` (43_register_bus.md R182). -/
def stepReleaseSerial (j : Job) (s : State) : MicroOut :=
  .go j { s with lockSerial := unlock j.who s.lockSerial }

/-! ## Contract (93_implementation_defined.md Part 1, treatment `refuse`) -/

/-- Whether the role lines are lines a `gpio.resolve` returned (40_gpio.md R127, R128). -/
def rolesResolved (rs : List Role) (s : State) : Bool := rs.all (fun r => s.resolved.contains (s.board.roleLine r))

/-- Goes on if the condition holds, else stops the model. -/
def demand (ok : Bool) (r : Refusal) (j : Job) (s : State) : MicroOut := if ok then .go j s else .refuse r

/-- Whether another operation in flight is a single-wire read of the line (U8). -/
def lineBusy (l : Line) (s : State) : Bool :=
  s.inflight.any (fun j => j.instr == .wireRead .integerOnly l || j.instr == .wireRead .fractional l)

/-! ## GPIO (40_gpio.md) -/

/-- What `gpio.resolve` answers and leaves for a pin of the table (R121). -/
def resolveLine (id : BitVec 16) (l : Line) (s : State) : Result × State :=
  let done (s : State) : Result × State :=
    (.ok (.line id l), { s with resolved := if s.resolved.contains l then s.resolved else l :: s.resolved })
  if s.winMapped[l.bank] then done s
  else
    let opened := s.env.askOpenMem
    if opened.1 then
      let mapped := opened.2.askMap
      if mapped.1 then
        done (emit (.mapWindow l.bank) { s with env := mapped.2, winMapped := s.winMapped.set l.bank true })
      else (.error (.mapFailed l.bank), { s with env := mapped.2 })
    else (.error (.deviceOpenFailed (.bank l.bank)), { s with env := opened.2 })

/-- The body of `gpio.resolve`: `InvalidPin` first, then the window (R121). -/
def resolvePin (id : BitVec 16) (s : State) : Result × State :=
  match s.board.data.pin id with
  | none => (.error (.invalidPin id), s)
  | some l => resolveLine id l s

/-- `gpio.resolve` is one indivisible step (20_memory.md R77). -/
def stepResolve (id : BitVec 16) (j : Job) (s : State) : MicroOut :=
  .go { j with result := (resolvePin id s).1 } (resolvePin id s).2

/-- `v <- MemRead(base(L) + OFF_OE, 4)` (R122, R123). -/
def stepOeRead (ref : LineRef) (j : Job) (s : State) : MicroOut :=
  match lineOf s ref with
  | .error r => .refuse r
  | .ok l =>
    match memRead (s.board.addr l.bank .oe) 4 s with
    | .error r => .refuse r
    | .ok (v, s) => .go { j with oeWord := v } s

/-- `MemWrite(base(L) + OFF_OE, 4, v & ~mask(L))`, or `v | mask(L)`; `emit GpioDir` (R122, R123). -/
def stepOeWrite (ref : LineRef) (d : Dir) (j : Job) (s : State) : MicroOut :=
  match lineOf s ref with
  | .error r => .refuse r
  | .ok l =>
    match memWrite (s.board.addr l.bank .oe) 4 (withDir j.oeWord l d) s with
    | .error r => .refuse r
    | .ok s => .go j (emit (.gpioDir l d) s)

/-- The port a level is written through (R124, R125). -/
def portOf : Bool → Reg
  | true => .setDataOut
  | false => .clearDataOut

/-- `MemWrite(base(L) + OFF_SETDATAOUT` or `OFF_CLEARDATAOUT, 4, mask(L))`; `emit GpioLevel` (R124, R125). -/
def stepLevel (ref : LineRef) (v : Bool) (j : Job) (s : State) : MicroOut :=
  match lineOf s ref with
  | .error r => .refuse r
  | .ok l =>
    match memWrite (s.board.addr l.bank (portOf v)) 4 (mask l) s with
    | .error r => .refuse r
    | .ok s => .go j (emit (.gpioLevel l v) s)

/-- `gpio.read` as a sub-operation: one read of `DATAIN`, the line's bit of it, `emit GpioSample` (R126). -/
def sampleLine (ref : LineRef) (s : State) : Except Refusal (Bool × State) :=
  match lineOf s ref with
  | .error r => .error r
  | .ok l =>
    match memRead (s.board.addr l.bank .dataIn) 4 s with
    | .error r => .error r
    | .ok (v, s) => .ok (lineBit v l, emit (.gpioSample l (lineBit v l)) s)

/-- `gpio.read` (R126). -/
def stepSample (ref : LineRef) (j : Job) (s : State) : MicroOut :=
  match sampleLine ref s with
  | .error r => .refuse r
  | .ok (v, s) => .go { j with result := .ok (.bit v) } s

/-! ## Serial bus (41_serial_bus.md) -/

/-- What `serial_bus.open` answers and leaves (R141). -/
def openSerial (path : List Byte) (p : Profile) (s : State) : Result × State :=
  let opened := s.env.askSpiOpen
  if opened.1 then
    (.ok .busHandle,
      emit (.spiProfile p)
        (emit .spiOpen { s with env := opened.2, spiPrimary := p, spiActive := p, spiOpen := true }))
  else (.error (.deviceOpenFailed (.path path)), { s with env := opened.2 })

/-- `serial_bus.open`: refused on an open bus (R141, U3). -/
def stepOpenBus (path : List Byte) (p : Profile) (j : Job) (s : State) : MicroOut :=
  if s.spiOpen then .refuse .busAlreadyOpen
  else .go { j with result := (openSerial path p s).1 } (openSerial path p s).2

/-- `serial_bus.close` (R148); the profile registers are unspecified again. -/
def stepCloseBus (j : Job) (s : State) : MicroOut :=
  .go j (emit .spiClose { forgetProfiles s with spiOpen := false })

/-- `if changed: saved <- spi.active; spi.active <- spi.secondary; emit SpiProfile` (R146). -/
def stepEnterSecondary (j : Job) (s : State) : MicroOut :=
  if differsFromSecondary s.spiActive then
    .go { j with saved := some s.spiActive }
      (emit (.spiProfile s.board.secondary) { s with spiActive := s.board.secondary })
  else .go { j with saved := none } s

/-- `if changed: spi.active <- saved; emit SpiProfile(saved)` (R146). -/
def stepLeaveSecondary (j : Job) (s : State) : MicroOut :=
  match j.saved with
  | some p => .go { j with saved := none } (emit (.spiProfile p) { s with spiActive := p })
  | none => .go j s

/-- `r <- env.spi_exchange(spi.active, tx); emit SpiExchange` (R143, R146, R149). -/
def stepExchange (tx : List Byte) (j : Job) (s : State) : MicroOut :=
  let r := s.env.askExchange tx.length
  .go { j with rx := r.1 } (emit (.spiExchange s.spiActive tx r.1) { s with env := r.2 })

/-- `n <- env.spi_write(spi.active, data); emit SpiWrite` (R149). -/
def stepRawWrite (data : List Byte) (j : Job) (s : State) : MicroOut :=
  let n := s.env.askSpiWrite data.length
  .go { j with count := n.1 } (emit (.spiWrite s.spiActive data n.1) { s with env := n.2 })

/-- `if r = Fail: raise` (R143, R146, 42_addressing.md R164). -/
def stepCheckRx (e : Error) (j : Job) (s : State) : MicroOut :=
  match j.rx with
  | none => raise e j s
  | some _ => .go j s

/-- `if n < least: raise` (42_addressing.md R163, R167; 43_register_bus.md R182, R184, R186). -/
def stepCheckCount (least : Nat) (e : Error) (j : Job) (s : State) : MicroOut :=
  if j.count < (least : Int) then raise e j s else .go j s

/-- `return rx_bytes`. -/
def stepReturnRx (j : Job) (s : State) : MicroOut := .go { j with result := .ok (.bytes (j.rx.getD [])) } s

/-- `return byte = r.rx[0]` (42_addressing.md R164). -/
def stepReturnByte (j : Job) (s : State) : MicroOut :=
  .go { j with result := .ok (.byte ((j.rx.getD []).headD 0)) } s

/-- `return bytes_written = n` (42_addressing.md R163). -/
def stepReturnCount (j : Job) (s : State) : MicroOut := .go { j with result := .ok (.count j.count.toNat) } s

/-! ## Addressing (42_addressing.md) -/

/-- The address a frame names. -/
def addrOf (s : State) : AddrRef → Option (BitVec 4)
  | .imm a => some a
  | .ext => s.extAddr

/-- The exchange of the one frame byte (R161). With no extension board there is no module to address: nothing is
exchanged and the exchange counts as failed. No rule reaches this: `addr.ext_addr` is tested before its frame is sent
and never returns to `none` (R166). -/
def stepSendFrame (a : AddrRef) (op : BitVec 3) (j : Job) (s : State) : MicroOut :=
  match addrOf s a with
  | some a => stepExchange [addressFrame a op] j s
  | none => .go { j with rx := none } s

/-- `if operation not in (1, 2, 3): raise ContractViolation(operation)` (R161). -/
def stepCheckFrameOp (op : BitVec 3) (j : Job) (s : State) : MicroOut :=
  if frameOperation op then .go j s else raise (.contractViolation (.frameOperation op)) j s

/-- `addr.ext_addr <- address` (R166). -/
def stepSetExt (a : BitVec 4) (j : Job) (s : State) : MicroOut := .go j { s with extAddr := some a }

/-- `if addr.ext_addr = none: return Ok` (R167). -/
def stepStopIfNoExt (j : Job) (s : State) : MicroOut :=
  match s.extAddr with
  | none => stopOk j s
  | some _ => .go j s

/-! ## Register bus (43_register_bus.md) -/

/-- What `open_channel_handle` answers and leaves (R181). -/
def openTarget (t : BitVec 7) (s : State) : Result × State :=
  if s.i2cHandle[t.toFin] then (.ok (.targetHandle t), s)
  else
    let opened := s.env.askI2cOpen
    if opened.1 then
      (.ok (.targetHandle t),
        emit (.i2cOpen t) { s with env := opened.2, i2cHandle := s.i2cHandle.set t.toFin true })
    else (.error (.deviceOpenFailed (.target t)), { s with env := opened.2 })

/-- `register_bus.open_channel_handle` is one indivisible step (20_memory.md R77). -/
def stepOpenHandle (t : BitVec 7) (j : Job) (s : State) : MicroOut :=
  .go { j with result := (openTarget t s).1 } (openTarget t s).2

/-- The checks of an extension code: parked, then no board configured (R182, 60_exceptions.md R241). -/
def stepCheckExt (ext : BitVec 4) (j : Job) (s : State) : MicroOut :=
  if parked ext || s.extAddr == none then raise (.contractViolation (.extensionCode ext)) j s else .go j s

/-- `n <- env.i2c_write(t, bytes); emit I2cWrite` (R184, R186). -/
def stepBusWrite (t : BitVec 7) (bytes : List Byte) (j : Job) (s : State) : MicroOut :=
  let n := s.env.askI2cWrite bytes.length
  .go { j with count := n.1 } (emit (.i2cWrite t bytes n.1) { s with env := n.2 })

/-- `(k, bytes) <- env.i2c_read(t, len); emit I2cRead` (R184). -/
def stepBusRead (t : BitVec 7) (n : Nat) (j : Job) (s : State) : MicroOut :=
  let r := s.env.askI2cRead n
  .go { j with count := r.1.1, rx := some r.1.2 } (emit (.i2cRead t n r.1.1 r.1.2) { s with env := r.2 })

/-! ## Single wire (44_single_wire.md) -/

/-- `dht.phase <- name`. -/
def stepPhase (p : Phase) (j : Job) (s : State) : MicroOut := .go { j with dht := { j.dht with phase := p } } s

/-- Stores a finished count and clears the counter for the next measurement (R204 to R206). -/
def Dht.store (d : Dht) : CountDest → Dht
  | .wait => { d with wait := some d.count, count := 0 }
  | .low => { d with low := d.low ++ [d.count], count := 0 }
  | .high => { d with high := d.high ++ [d.count], count := 0 }

/-- One poll of `measure(L, level)` (R205): the poll that sees the other level ends the measurement and is not counted;
`Timeout` when the count exceeds `DHT_SPIN_BOUND`. -/
def stepPoll (ref : LineRef) (level : Bool) (dest : CountDest) (j : Job) (s : State) : MicroOut :=
  match sampleLine ref s with
  | .error r => .refuse r
  | .ok (v, s) =>
    if v = level then
      let j := { j with dht := { j.dht with count := j.dht.count + 1 } }
      if j.dht.count > Config.dhtSpinBound then raise .timeout j s else .again j s
    else .go { j with dht := j.dht.store dest } s

/-- `dht.thr <- (low[1] + ... + low[40]) div 40` (R208). -/
def stepThreshold (j : Job) (s : State) : MicroOut :=
  .go { j with dht := { j.dht with thr := some (meanLow j.dht.low) } } s

/-- The bits of the high counts packed into `dht.byte[0..4]` (R209). -/
def stepPackBits (j : Job) (s : State) : MicroOut :=
  .go { j with dht := { j.dht with bytes := packBytes (pulseBits (j.dht.thr.getD 0) j.dht.high) } } s

/-- `raise ChecksumFailed` on a mismatch (R210). -/
def stepValidate (j : Job) (s : State) : MicroOut :=
  if checksumOk j.dht.bytes then .go j s else raise .checksumFailed j s

/-- `return interpret(sensor_kind)` (R211 to R213). -/
def stepInterpret (k : SensorKind) (j : Job) (s : State) : MicroOut :=
  .go { j with result := .ok (climateOf k j.dht.bytes) } s

/-! ## The table -/

/-- What a step does. -/
def micro (m : Micro) (j : Job) (s : State) : MicroOut :=
  match m with
  | .requireRoles rs => demand (rolesResolved rs s) .lineNotResolved j s
  | .takeSerial => stepTakeSerial j s
  | .takeTwowire => stepTakeTwowire j s
  | .releaseSerial => stepReleaseSerial j s
  | .requireLen len actual => demand (lengthOk s.board.data.maxLen len actual) .badLength j s
  | .requireProfile p => demand (profileOk p) .profileOutOfRange j s
  | .requireOpen => demand s.spiOpen .busClosed j s
  | .requireHandle t => demand s.i2cHandle[t.toFin] .handleNotOpen j s
  | .requireSole l => demand (!lineBusy l s) .lineInUse j s
  | .resolve id => stepResolve id j s
  | .oeRead l => stepOeRead l j s
  | .oeWrite l d => stepOeWrite l d j s
  | .level l v => stepLevel l v j s
  | .sample l => stepSample l j s
  | .openBus path p => stepOpenBus path p j s
  | .closeBus => stepCloseBus j s
  | .enterSecondary => stepEnterSecondary j s
  | .leaveSecondary => stepLeaveSecondary j s
  | .exchange tx => stepExchange (payloadBytes s.board tx) j s
  | .sendFrame a op => stepSendFrame a op j s
  | .rawWrite data => stepRawWrite (payloadBytes s.board data) j s
  | .checkRx e => stepCheckRx e j s
  | .checkCount least e => stepCheckCount least e j s
  | .returnRx => stepReturnRx j s
  | .returnByte => stepReturnByte j s
  | .returnCount => stepReturnCount j s
  | .checkFrameOp op => stepCheckFrameOp op j s
  | .setExt a => stepSetExt a j s
  | .stopIfNoExt => stepStopIfNoExt j s
  | .openHandle t => stepOpenHandle t j s
  | .checkExt ext => stepCheckExt ext j s
  | .busWrite t bytes => stepBusWrite t bytes j s
  | .busRead t n => stepBusRead t n j s
  | .hold ms => .go j (emit (.hold ms) s)
  | .phase p => stepPhase p j s
  | .poll l level dest => stepPoll l level dest j s
  | .threshold => stepThreshold j s
  | .packBits => stepPackBits j s
  | .validate => stepValidate j s
  | .interpret k => stepInterpret k j s

end Sys2Proof.Machine
end

