-- ==== Sys2Proof/Machine/Run.lean ====
section
/-! DEFINITION. Running an operation: all its steps one after another with no other requester between (20_memory.md R70),
or one step at a time (R71). -/

namespace Sys2Proof.Machine

/-- Repeats a step while it stays at itself, at most `n` times more: the loop of a polled measurement (R205). -/
def settle : Nat → Micro → Job → State → MicroOut
  | 0, m, j, s => micro m j s
  | n + 1, m, j, s =>
    match micro m j s with
    | .again j s => settle n m j s
    | o => o

/-- The rest of an operation, run until it ends, must wait for a lock, or is refused. A measurement makes at most
`DHT_SPIN_BOUND` + 1 polls (R205), so the loop bound of `settle` is never what ends it. -/
def runCode : List Micro → Job → State → Host.Outcome State Fault Refusal
  | [], j, s => .next (finish j s)
  | m :: ms, j, s =>
    match settle Config.dhtSpinBound m j s with
    | .go j s => runCode ms j s
    | .again j s => .next (park j (m :: ms) s)
    | .stop j s => .next (finish j s)
    | .wait => .next (park j (m :: ms) s)
    | .refuse r => .refused r

/-- A new operation of a requester, its transient registers fresh: each is written before it is read (10_state.md
R34). -/
def Job.fresh (who : Nat) (i : Instr) (todo : List Micro) : Job :=
  { who := who, instr := i, todo := todo, saved := none, oeWord := 0, rx := none, count := 0, dht := Dht.fresh,
    result := .ok .unit }

/-- Whether a requester has an operation in flight. -/
def busy (who : Nat) (s : State) : Bool := s.inflight.any (fun j => j.who == who)

/-- One operation issued by the current requester and run as far as it goes with no other requester moving. -/
def execCode (i : Instr) (code : List Micro) (s : State) : Host.Outcome State Fault Refusal :=
  if busy s.cur s then .refused .requesterBusy else runCode code (Job.fresh s.cur i code) s

/-- An operation issued and put into flight, no step of it made yet. -/
def startCode (i : Instr) (code : List Micro) (s : State) : Host.Outcome State Fault Refusal :=
  if busy s.cur s then .refused .requesterBusy else .next (park (Job.fresh s.cur i code) code s)

/-- The first operation in flight of a requester, and the others. -/
def takeJob (who : Nat) : List Job → Option (Job × List Job)
  | [] => none
  | j :: js =>
    if j.who = who then some (j, js)
    else match takeJob who js with
      | none => none
      | some (k, ks) => some (k, j :: ks)

/-- One step of an operation in flight, already taken out of the list (R71). An operation with no step left returns. -/
def grainJob (j : Job) (s : State) : Host.Outcome State Fault Refusal :=
  match j.todo with
  | [] => .next (finish j s)
  | m :: ms =>
    match micro m j s with
    | .go j s => if ms = [] then .next (finish j s) else .next (park j ms s)
    | .again j s => .next (park j (m :: ms) s)
    | .stop j s => .next (finish j s)
    | .wait => .next (park j (m :: ms) s)
    | .refuse r => .refused r

/-- One step of a requester's operation in flight. -/
def grain (who : Nat) (s : State) : Host.Outcome State Fault Refusal :=
  match takeJob who s.inflight with
  | none => .refused .nothingInFlight
  | some (j, rest) => grainJob j { s with inflight := rest }

end Sys2Proof.Machine
end

