-- ==== Sys2Proof/Machine/SerialBus.lean ====
section
/-! DEFINITION. The SPI unit (41_serial_bus.md): its four operations, each wholly under `lock.serial` (R140). -/

namespace Sys2Proof.Machine

/-- The role line the SPI unit needs (41_serial_bus.md R146, 40_gpio.md R128). -/
def serialRoles : List Role := [.ds]

/-- A transfer under the secondary profile, its one bus transfer given (R146): switch if needed, strobe low, transfer,
strobe high, restore, and only then report a failure (D13). -/
def secondarySteps (transfer : Micro) : List Micro :=
  [.requireOpen, .enterSecondary, .level (.role .ds) false, transfer, .level (.role .ds) true, .leaveSecondary,
    .checkRx .transferFailed]

/-- `serial_bus.open` (R141). -/
def codeSerialOpen (path : List Byte) (p : Profile) : List Micro := 
  [.requireRoles serialRoles, .requireProfile p, .takeSerial, .openBus path p]

/-- `serial_bus.transfer` (R143): the exchange runs under whatever profile is active; no line moves. -/
def codeSerialTransfer (len : BitVec 16) (tx : List Byte) : List Micro :=
  [.requireRoles serialRoles, .requireLen len tx.length, .takeSerial, .requireOpen, .exchange (.bytes tx),
    .checkRx .transferFailed, .returnRx]

/-- `serial_bus.transfer_secondary` (R146). -/
def codeSerialTransferSecondary (len : BitVec 16) (tx : List Byte) : List Micro :=
  [.requireRoles serialRoles, .requireLen len tx.length, .takeSerial] ++
    (secondarySteps (.exchange (.bytes tx)) ++ [.returnRx])

/-- `serial_bus.close` (R148). -/
def codeSerialClose : List Micro := [.requireRoles serialRoles, .takeSerial, .requireOpen, .closeBus]

def execSerialOpen (path : List Byte) (mode : BitVec 2) (word : BitVec 8) (speed : BitVec 32) (s : State) :
    Host.Outcome State Fault Refusal :=
  execCode (.serialOpen path mode word speed) (codeSerialOpen path ⟨mode, word, speed⟩) s

def execSerialTransfer (len : BitVec 16) (tx : List Byte) (s : State) : Host.Outcome State Fault Refusal :=
  execCode (.serialTransfer len tx) (codeSerialTransfer len tx) s

def execSerialTransferSecondary (len : BitVec 16) (tx : List Byte) (s : State) : Host.Outcome State Fault Refusal :=
  execCode (.serialTransferSecondary len tx) (codeSerialTransferSecondary len tx) s

def execSerialClose (s : State) : Host.Outcome State Fault Refusal := execCode .serialClose codeSerialClose s

end Sys2Proof.Machine
end

