-- ==== Sys2Proof/Machine/Addressing.lean ====
section
/-! DEFINITION. The ADDR unit (42_addressing.md): its five operations and the three address frames, each wholly under
`lock.serial` (R160). -/

namespace Sys2Proof.Machine

/-- The role lines the ADDR unit needs: the SPI unit's and its own (42_addressing.md R160, 40_gpio.md R128). -/
def addressingRoles : List Role := [.ds, .cs]

/-- The transmission of one AddressFrame: a one-byte `transfer_secondary`, the byte received dropped (R161,
30_encoding.md R95). -/
def frameSteps (a : AddrRef) (op : BitVec 3) : List Micro := secondarySteps (.sendFrame a op)

/-- The body of `write_to_module` (R163): select for write, then under the secondary profile the chip-select sequence
high, low, low, the raw write, high; restore; only then report a negative status. -/
def writeSteps (a : AddrRef) (data : Payload) : List Micro :=
  frameSteps a opWrite ++
    [.enterSecondary, .level (.role .cs) true, .level (.role .cs) false, .level (.role .cs) false, .rawWrite data,
      .level (.role .cs) true, .leaveSecondary, .checkCount 0 .writeFailed]

/-- `addressing.select` (R161). -/
def codeAddrSelect (address : BitVec 4) (operation : BitVec 3) : List Micro :=
  [.requireRoles addressingRoles, .takeSerial, .checkFrameOp operation] ++ frameSteps (.imm address) operation

/-- `addressing.write_to_module` (R163). -/
def codeAddrWrite (address : BitVec 4) (len : BitVec 16) (data : List Byte) : List Micro :=
  [.requireRoles addressingRoles, .requireLen len data.length, .takeSerial] ++
    (writeSteps (.imm address) (.bytes data) ++ [.returnCount])

/-- `addressing.read_from_module` (R164): two selects, a chip-select toggle after each, the second around a one-byte raw
read. -/
def codeAddrRead (address : BitVec 4) : List Micro :=
  [.requireRoles addressingRoles, .takeSerial] ++
    (frameSteps (.imm address) opReadReady ++
      ([.level (.role .cs) false, .level (.role .cs) true] ++
        (frameSteps (.imm address) opReadExec ++
          [.enterSecondary, .level (.role .cs) false, .exchange .fill, .level (.role .cs) true,
            .leaveSecondary, .checkRx .readFailed, .returnByte])))

/-- `addressing.set_extension_address` (R166): nothing is sent. -/
def codeAddrSetExt (address : BitVec 4) : List Micro :=
  [.requireRoles addressingRoles, .takeSerial, .setExt address]

/-- `addressing.unselect_extension` (R167): the park code written to the extension-selector module, if there is one. -/
def codeAddrUnselectExt : List Micro :=
  [.requireRoles addressingRoles, .takeSerial, .stopIfNoExt] ++
    (writeSteps .ext (.selector Config.extPark) ++ [.checkCount 1 .writeFailed])

/-- An AddressFrame sent (30_encoding.md R95, R97). -/
def codeFrame (address : BitVec 4) (op : BitVec 3) : List Micro :=
  [.requireRoles addressingRoles, .takeSerial] ++ frameSteps (.imm address) op

def execAddrSelect (address : BitVec 4) (operation : BitVec 3) (s : State) : Host.Outcome State Fault Refusal :=
  execCode (.addrSelect address operation) (codeAddrSelect address operation) s

def execAddrWrite (address : BitVec 4) (len : BitVec 16) (data : List Byte) (s : State) :
    Host.Outcome State Fault Refusal :=
  execCode (.addrWrite address len data) (codeAddrWrite address len data) s

def execAddrRead (address : BitVec 4) (s : State) : Host.Outcome State Fault Refusal :=
  execCode (.addrRead address) (codeAddrRead address) s

def execAddrSetExt (address : BitVec 4) (s : State) : Host.Outcome State Fault Refusal :=
  execCode (.addrSetExt address) (codeAddrSetExt address) s

def execAddrUnselectExt (s : State) : Host.Outcome State Fault Refusal :=
  execCode .addrUnselectExt codeAddrUnselectExt s

def execFrameWrite (address : BitVec 4) (s : State) : Host.Outcome State Fault Refusal :=
  execCode (.frameWrite address) (codeFrame address opWrite) s

def execFrameReadReady (address : BitVec 4) (s : State) : Host.Outcome State Fault Refusal :=
  execCode (.frameReadReady address) (codeFrame address opReadReady) s

def execFrameReadExec (address : BitVec 4) (s : State) : Host.Outcome State Fault Refusal :=
  execCode (.frameReadExec address) (codeFrame address opReadExec) s

end Sys2Proof.Machine
end

