-- ==== Sys2Proof/Machine/RegisterBus.lean ====
section
/-! DEFINITION. The I2C unit (43_register_bus.md): its four operations, each wholly under `lock.twowire` (R180). -/

namespace Sys2Proof.Machine

/-- The role lines the I2C unit needs (43_register_bus.md R180, 40_gpio.md R128). -/
def registerRoles : List Role := [.mux0, .mux1]

/-- The role lines `select_channel` needs: with an extension code also those of the ADDR unit it calls (R182). -/
def selectRoles (extPresent : Bool) : List Role := if extPresent then registerRoles ++ addressingRoles else registerRoles

/-- `register_bus.open_channel_handle` (R181). -/
def codeRegOpenHandle (target : BitVec 7) : List Micro :=
  [.requireRoles registerRoles, .takeTwowire, .openHandle target]

/-- The extension part of `select_channel` (R182): `lock.serial` is taken second and released first. -/
def extensionSteps (ext : BitVec 4) : List Micro :=
  [.takeSerial] ++ (writeSteps .ext (.selector ext) ++ [.releaseSerial, .checkCount 1 .writeFailed])

/-- `register_bus.select_channel` (R182): checks first, `MUX0` before `MUX1`, the extension last. -/
def codeRegSelect (loc : BitVec 2) (extPresent : Bool) (ext : BitVec 4) : List Micro :=
  [.requireRoles (selectRoles extPresent), .takeTwowire] ++
    ((if extPresent then [.checkExt ext] else []) ++
      ([.level (.role .mux0) (muxLevel loc 0), .level (.role .mux1) (muxLevel loc 1)] ++
        (if extPresent then extensionSteps ext else [])))

/-- `register_bus.read` (R184): an address write unless `noAddr`, then a read of `len` bytes. -/
def codeRegRead (target : BitVec 7) (noAddr : Bool) (reg : Byte) (len : BitVec 16) : List Micro :=
  [.requireRoles registerRoles, .requireLen len len.toNat, .takeTwowire, .requireHandle target] ++
    ((if noAddr then [] else [.busWrite target [reg], .checkCount 1 .readFailed]) ++
      [.busRead target len.toNat, .checkCount len.toNat .readFailed, .returnRx])

/-- `register_bus.write` (R186): one write, which fails when fewer bytes were accepted than were issued. -/
def codeRegWrite (target : BitVec 7) (noAddr : Bool) (reg : Byte) (len : BitVec 16) (data : List Byte) : List Micro :=
  [.requireRoles registerRoles, .requireLen len data.length, .takeTwowire, .requireHandle target,
    .busWrite target (regBuffer noAddr reg data), .checkCount (regBuffer noAddr reg data).length .writeFailed]

def execRegOpenHandle (target : BitVec 7) (s : State) : Host.Outcome State Fault Refusal :=
  execCode (.regOpenHandle target) (codeRegOpenHandle target) s

def execRegSelect (loc : BitVec 2) (extPresent : Bool) (ext : BitVec 4) (s : State) : Host.Outcome State Fault Refusal :=
  execCode (.regSelect loc extPresent ext) (codeRegSelect loc extPresent ext) s

def execRegRead (target : BitVec 7) (noAddr : Bool) (reg : Byte) (len : BitVec 16) (s : State) :
    Host.Outcome State Fault Refusal :=
  execCode (.regRead target noAddr reg len) (codeRegRead target noAddr reg len) s

def execRegWrite (target : BitVec 7) (noAddr : Bool) (reg : Byte) (len : BitVec 16) (data : List Byte) (s : State) :
    Host.Outcome State Fault Refusal :=
  execCode (.regWrite target noAddr reg len data) (codeRegWrite target noAddr reg len data) s

end Sys2Proof.Machine
end

