-- ==== Sys2Proof/Machine/Gpio.lean ====
section
/-! DEFINITION. The GPIO unit (40_gpio.md): its six operations, each a list of steps and a meaning. None takes a lock
(R120). -/

namespace Sys2Proof.Machine

/-- `gpio.set_output` as a step list (R122): one read and one write of `OE`. -/
def setOutputSteps (l : LineRef) : List Micro := [.oeRead l, .oeWrite l .out]

/-- `gpio.set_input` (R123). -/
def setInputSteps (l : LineRef) : List Micro := [.oeRead l, .oeWrite l .inp]

/-- `gpio.resolve` (R121). -/
def codeGpioResolve (id : BitVec 16) : List Micro := [.resolve id]
def codeGpioSetOutput (l : Line) : List Micro := setOutputSteps (.line l)
def codeGpioSetInput (l : Line) : List Micro := setInputSteps (.line l)
/-- `gpio.set_high` (R124): one write, no read. -/
def codeGpioSetHigh (l : Line) : List Micro := [.level (.line l) true]
/-- `gpio.set_low` (R125). -/
def codeGpioSetLow (l : Line) : List Micro := [.level (.line l) false]
/-- `gpio.read` (R126). -/
def codeGpioRead (l : Line) : List Micro := [.sample (.line l)]

def execGpioResolve (id : BitVec 16) (s : State) : Host.Outcome State Fault Refusal :=
  execCode (.gpioResolve id) (codeGpioResolve id) s

def execGpioSetOutput (l : Line) (s : State) : Host.Outcome State Fault Refusal :=
  execCode (.gpioSetOutput l) (codeGpioSetOutput l) s

def execGpioSetInput (l : Line) (s : State) : Host.Outcome State Fault Refusal :=
  execCode (.gpioSetInput l) (codeGpioSetInput l) s

def execGpioSetHigh (l : Line) (s : State) : Host.Outcome State Fault Refusal :=
  execCode (.gpioSetHigh l) (codeGpioSetHigh l) s

def execGpioSetLow (l : Line) (s : State) : Host.Outcome State Fault Refusal :=
  execCode (.gpioSetLow l) (codeGpioSetLow l) s

def execGpioRead (l : Line) (s : State) : Host.Outcome State Fault Refusal :=
  execCode (.gpioRead l) (codeGpioRead l) s

end Sys2Proof.Machine
end

