-- ==== Sys2Proof/Machine/SingleWire.lean ====
section
/-! DEFINITION. The DHT unit (44_single_wire.md): `single_wire.read`, its phases one after another (R201). It takes no
lock (R200). -/

namespace Sys2Proof.Machine

/-- Idle to Wake: output, high, hold (R202). -/
def wakeSteps (l : Line) : List Micro :=
  setOutputSteps (.line l) ++ [.level (.line l) true, .phase .wake, .hold Config.tWakeMs]

/-- Wake to Request: low, hold (R203). -/
def requestSteps (l : Line) : List Micro := [.level (.line l) false, .phase .request, .hold Config.tReqMs]

/-- Request to Listen: input, poll until the line goes low (R204). -/
def listenSteps (l : Line) : List Micro :=
  setInputSteps (.line l) ++ [.phase .listen, .poll (.line l) true .wait]

/-- `n` low/high pairs (R206). -/
def pairSteps (l : Line) : Nat → List Micro
  | 0 => []
  | n + 1 => .poll (.line l) false .low :: .poll (.line l) true .high :: pairSteps l n

/-- Listen to Sample: 41 pairs (R206). -/
def sampleSteps (l : Line) : List Micro := .phase .sample :: pairSteps l Config.dhtPairs

/-- Decode, validate, interpret (R208 to R213). -/
def decodeSteps (k : SensorKind) : List Micro :=
  [.phase .decode, .threshold, .packBits, .phase .validate, .validate, .phase .interpret, .interpret k]

/-- `single_wire.read` (R201). -/
def codeWireRead (k : SensorKind) (l : Line) : List Micro :=
  [.requireSole l, .phase .idle] ++
    (wakeSteps l ++ (requestSteps l ++ (listenSteps l ++ (sampleSteps l ++ decodeSteps k))))

def execWireRead (k : SensorKind) (l : Line) (s : State) : Host.Outcome State Fault Refusal :=
  execCode (.wireRead k l) (codeWireRead k l) s

end Sys2Proof.Machine
end

