-- ==== Sys2Proof/Machine/Code.lean ====
section
/-! DEFINITION. The step list of every instruction: the one its meaning runs whole, and a `start` input puts into flight
to be run one step at a time. -/

namespace Sys2Proof.Machine

def codeOf : Instr → List Micro
  | .gpioResolve id => codeGpioResolve id
  | .gpioSetOutput l => codeGpioSetOutput l
  | .gpioSetInput l => codeGpioSetInput l
  | .gpioSetHigh l => codeGpioSetHigh l
  | .gpioSetLow l => codeGpioSetLow l
  | .gpioRead l => codeGpioRead l
  | .serialOpen path mode word speed => codeSerialOpen path ⟨mode, word, speed⟩
  | .serialTransfer len tx => codeSerialTransfer len tx
  | .serialTransferSecondary len tx => codeSerialTransferSecondary len tx
  | .serialClose => codeSerialClose
  | .addrSelect address operation => codeAddrSelect address operation
  | .addrWrite address len data => codeAddrWrite address len data
  | .addrRead address => codeAddrRead address
  | .addrSetExt address => codeAddrSetExt address
  | .addrUnselectExt => codeAddrUnselectExt
  | .regOpenHandle target => codeRegOpenHandle target
  | .regSelect loc extPresent ext => codeRegSelect loc extPresent ext
  | .regRead target noAddr reg len => codeRegRead target noAddr reg len
  | .regWrite target noAddr reg len data => codeRegWrite target noAddr reg len data
  | .wireRead kind l => codeWireRead kind l
  | .frameWrite address => codeFrame address opWrite
  | .frameReadReady address => codeFrame address opReadReady
  | .frameReadExec address => codeFrame address opReadExec

end Sys2Proof.Machine
end

