-- ==== Sys2Proof/Machine/Dispatch.lean ====
section
/-! DEFINITION. From an instruction to its meaning, one arm per constructor. -/

namespace Sys2Proof.Machine

def exec (i : Instr) (s : State) : Host.Outcome State Fault Refusal :=
  match i with
  | .gpioResolve id => Sys2Proof.Machine.execGpioResolve id s
  | .gpioSetOutput l => Sys2Proof.Machine.execGpioSetOutput l s
  | .gpioSetInput l => Sys2Proof.Machine.execGpioSetInput l s
  | .gpioSetHigh l => Sys2Proof.Machine.execGpioSetHigh l s
  | .gpioSetLow l => Sys2Proof.Machine.execGpioSetLow l s
  | .gpioRead l => Sys2Proof.Machine.execGpioRead l s
  | .serialOpen path mode word speed => Sys2Proof.Machine.execSerialOpen path mode word speed s
  | .serialTransfer len tx => Sys2Proof.Machine.execSerialTransfer len tx s
  | .serialTransferSecondary len tx => Sys2Proof.Machine.execSerialTransferSecondary len tx s
  | .serialClose => Sys2Proof.Machine.execSerialClose s
  | .addrSelect address operation => Sys2Proof.Machine.execAddrSelect address operation s
  | .addrWrite address len data => Sys2Proof.Machine.execAddrWrite address len data s
  | .addrRead address => Sys2Proof.Machine.execAddrRead address s
  | .addrSetExt address => Sys2Proof.Machine.execAddrSetExt address s
  | .addrUnselectExt => Sys2Proof.Machine.execAddrUnselectExt s
  | .regOpenHandle target => Sys2Proof.Machine.execRegOpenHandle target s
  | .regSelect loc extPresent ext => Sys2Proof.Machine.execRegSelect loc extPresent ext s
  | .regRead target noAddr reg len => Sys2Proof.Machine.execRegRead target noAddr reg len s
  | .regWrite target noAddr reg len data => Sys2Proof.Machine.execRegWrite target noAddr reg len data s
  | .wireRead kind l => Sys2Proof.Machine.execWireRead kind l s
  | .frameWrite address => Sys2Proof.Machine.execFrameWrite address s
  | .frameReadReady address => Sys2Proof.Machine.execFrameReadReady address s
  | .frameReadExec address => Sys2Proof.Machine.execFrameReadExec address s

end Sys2Proof.Machine
end

