-- ==== Sys2Proof/Machine/Inputs.lean ====
section
/-! DEFINITION. What one input does: the fetch of a command's bytes, and the choice of the requester that moves
(00_scope.md R9, 20_memory.md R71). -/

namespace Sys2Proof.Machine

/-- Requester 0 exists on every board (`N_REQ` at least 1); the others are those below `N_REQ`. -/
def requesterExists (who : Nat) (s : State) : Bool := who == 0 || Nat.blt who s.board.data.nReq

/-- Fetches a command: checks the requester and decodes the message (30_encoding.md R94). -/
def fetch (who : Nat) (f : Format) (bytes : List Byte) (s : State) : Except Refusal Instr :=
  if requesterExists who s then
    match decode f bytes with
    | .ok i => .ok i
    | .error e => .error (.illegalCommand e)
  else .error .noSuchRequester

/-- What one input does in the state that no longer holds it. -/
def takeInput (inp : Input) (s : State) : Host.Outcome State Fault Refusal :=
  match inp with
  | .issue who f bytes =>
    match fetch who f bytes s with
    | .error r => .refused r
    | .ok i => exec i { s with cur := who }
  | .start who f bytes =>
    match fetch who f bytes s with
    | .error r => .refused r
    | .ok i => startCode i (codeOf i) { s with cur := who }
  | .grain who => grain who s

/-- The input that issues a table word, by the current requester. -/
def wordInput (s : State) (nbits w : Nat) : Input :=
  match readTableWord nbits w with
  | some (_, f, bytes) => .issue s.cur f bytes
  | none => .issue s.cur .command (bytesOfNat ((nbits + 7) / 8) w)

end Sys2Proof.Machine
end

