-- ==== Sys2Proof/Machine/Step.lean ====
section
/-! DEFINITION. One step of the machine. -/

namespace Sys2Proof.Machine

/-- One step: the first input is taken and does its effect. With no input nothing runs (00_scope.md R8: "nothing inside
the block runs between operations"). -/
def step (s : State) : Host.Outcome State Fault Refusal :=
  match s.inputs with
  | [] => .next s
  | inp :: rest => takeInput inp { s with inputs := rest }

/-- The state whose next step fetches and runs the instruction of a table word: the requesters' next input issues it. -/
def State.withFetchWord (s : State) (nbits w : Nat) : State :=
  { s with inputs := wordInput s nbits w :: s.inputs }

end Sys2Proof.Machine
end

