-- ==== Sys2Proof/Safety.lean ====
section
/-! DEFINITION. The words claims are stated in: when an operation can run, what its events are, what the block does not
change, and the invariant every step keeps. -/

namespace Sys2Proof.Machine

/-! ## When an operation can run -/

/-- The current requester has nothing in flight and holds no lock (00_scope.md R9). -/
abbrev Idle (s : State) : Prop := busy s.cur s = false ∧ s.lockSerial ≠ some s.cur ∧ s.lockTwowire ≠ some s.cur

/-- The current requester is idle and `lock.serial` is free. -/
abbrev SerialReady (s : State) : Prop := busy s.cur s = false ∧ s.lockSerial = none ∧ s.lockTwowire ≠ some s.cur

/-- The current requester is idle and `lock.twowire` is free. -/
abbrev TwowireReady (s : State) : Prop := busy s.cur s = false ∧ s.lockTwowire = none ∧ s.lockSerial ≠ some s.cur

/-- The current requester is idle and both locks are free. -/
abbrev BothReady (s : State) : Prop := busy s.cur s = false ∧ s.lockSerial = none ∧ s.lockTwowire = none

/-- The line is one a `gpio.resolve` returned, and so its bank's window is mapped (40_gpio.md R127). -/
abbrev LineReady (s : State) (l : Line) : Prop := s.resolved.contains l = true ∧ s.winMapped[l.bank] = true

/-- A role line is resolved (40_gpio.md R128). -/
abbrev RoleReady (s : State) (r : Role) : Prop := LineReady s (s.board.roleLine r)

/-- The role line of the SPI unit is resolved (40_gpio.md R128). -/
abbrev SerialUnit (s : State) : Prop := RoleReady s .ds

/-- The role lines of the ADDR unit and of the SPI unit under it are resolved (R128). -/
abbrev AddressingUnit (s : State) : Prop := RoleReady s .ds ∧ RoleReady s .cs

/-- The role lines of the I2C unit are resolved (R128). -/
abbrev RegisterUnit (s : State) : Prop := RoleReady s .mux0 ∧ RoleReady s .mux1

/-- The addressing unit can be used, and the bus is open (42_addressing.md R160). -/
abbrev AddressingReady (s : State) : Prop := s.spiOpen = true ∧ AddressingUnit s

/-! ## Boot (70_reset_and_hazards.md R274) -/

/-- "Boot done", the launch premise of decision D8: the four role lines are resolved, `CS` and `DS` are outputs and carry
their idle level high, `MUX0` and `MUX1` are outputs, the bus is open. -/
structure BootDone (s : State) : Prop where
  addressing : AddressingUnit s
  register   : RegisterUnit s
  cs_high    : drivenLevel s (s.board.roleLine .cs) = some true
  ds_high    : drivenLevel s (s.board.roleLine .ds) = some true
  mux0_out   : (drivenLevel s (s.board.roleLine .mux0)).isSome = true
  mux1_out   : (drivenLevel s (s.board.roleLine .mux1)).isSome = true
  bus_open   : s.spiOpen = true

/-- `gpio.set_high` or `gpio.set_low`. -/
def setLevel (l : Line) (v : Bool) : Instr := if v then .gpioSetHigh l else .gpioSetLow l

/-- The boot sequence, steps (1) to (5) of R274 for the role lines: resolve, idle levels, a first local channel, directions,
the bus. Steps (6) and (7), the extension board and the two-wire targets, are the requester's to add. -/
def bootOperations (bd : Board) (channel : BitVec 2) (path : List Byte) (p : Profile) : List Instr :=
  [.gpioResolve bd.data.pinCs, .gpioResolve bd.data.pinDs, .gpioResolve bd.data.pinMux0,
    .gpioResolve bd.data.pinMux1] ++
  [.gpioSetHigh (bd.roleLine .cs), .gpioSetHigh (bd.roleLine .ds)] ++
  [setLevel (bd.roleLine .mux0) (channel.getLsbD 0), setLevel (bd.roleLine .mux1) (channel.getLsbD 1)] ++
  [.gpioSetOutput (bd.roleLine .cs), .gpioSetOutput (bd.roleLine .ds), .gpioSetOutput (bd.roleLine .mux0),
    .gpioSetOutput (bd.roleLine .mux1)] ++
  [.serialOpen path p.mode p.word p.speed]

/-- Operations of the current requester one after another. -/
def execAll : List Instr → State → Host.Outcome State Fault Refusal
  | [], s => .next s
  | i :: is, s =>
    match exec i s with
    | .next t => execAll is t
    | .fault r => .fault r
    | .refused r => .refused r

/-- The line an operation takes as its operand (40_gpio.md R127, 44_single_wire.md R201). -/
def lineOperand : Instr → Option Line
  | .gpioSetOutput l => some l
  | .gpioSetInput l => some l
  | .gpioSetHigh l => some l
  | .gpioSetLow l => some l
  | .gpioRead l => some l
  | .wireRead _ l => some l
  | .gpioResolve _ => none
  | .serialOpen _ _ _ _ => none
  | .serialTransfer _ _ => none
  | .serialTransferSecondary _ _ => none
  | .serialClose => none
  | .addrSelect _ _ => none
  | .addrWrite _ _ _ => none
  | .addrRead _ => none
  | .addrSetExt _ => none
  | .addrUnselectExt => none
  | .regOpenHandle _ => none
  | .regSelect _ _ _ => none
  | .regRead _ _ _ _ => none
  | .regWrite _ _ _ _ _ => none
  | .frameWrite _ => none
  | .frameReadReady _ => none
  | .frameReadExec _ => none

/-! ## What operations leave -/

/-- The latches with one line's bit set or cleared (10_state.md R23). -/
def setLatch (l : Line) (v : Bool) (d : Vector Word 4) : Vector Word 4 :=
  d.set l.bank (if v then d[l.bank] ||| mask l else d[l.bank] &&& ~~~ mask l)

/-- The state in which the current requester has got its result. -/
def answered (r : Result) (s : State) : State := { s with results := s.results ++ [(s.cur, r)] }

/-- The profile bytes go out under while a secondary-profile section runs (41_serial_bus.md R146). -/
def sectionProfile (s : State) : Profile := if differsFromSecondary s.spiActive then s.board.secondary else s.spiActive

/-- The events of a secondary-profile section around those of its body (R146): a switch and a restore, if the active
profile differs. -/
def sectionEvents (s : State) (body : List Event) : List Event :=
  if differsFromSecondary s.spiActive then [.spiProfile s.board.secondary] ++ body ++ [.spiProfile s.spiActive] else body

/-- The events of one secondary-profile exchange: strobe low, exchange, strobe high (R146, R147). -/
def strobedEvents (s : State) (tx : List Byte) (rx : Option (List Byte)) : List Event :=
  sectionEvents s
    [.gpioLevel (s.board.roleLine .ds) false, .spiExchange (sectionProfile s) tx rx,
      .gpioLevel (s.board.roleLine .ds) true]

/-- The chip-select events of a module write (42_addressing.md R163): high, low, low, the raw write, high. -/
def payloadEvents (s : State) (data : List Byte) (n : Int) : List Event :=
  let cs := s.board.roleLine .cs
  sectionEvents s
    [.gpioLevel cs true, .gpioLevel cs false, .gpioLevel cs false, .spiWrite (sectionProfile s) data n,
      .gpioLevel cs true]

/-- The latches after the strobe was raised. -/
def strobeHigh (s : State) : Vector Word 4 := setLatch (s.board.roleLine .ds) true s.dataOut

/-- The state after one AddressFrame was sent, the exchange answering `s.env.askExchange 1` (R161). -/
def frameSent (a : BitVec 4) (op : BitVec 3) (s : State) : State :=
  { s with
    dataOut := strobeHigh s
    env := (s.env.askExchange 1).2
    trace := s.trace ++ strobedEvents s [addressFrame a op] (s.env.askExchange 1).1 }

/-- The state after a module write whose frame was exchanged: the payload answered by `askSpiWrite` (R163). -/
def payloadSent (data : List Byte) (s : State) : State :=
  { s with
    dataOut := setLatch (s.board.roleLine .cs) true s.dataOut
    env := (s.env.askSpiWrite data.length).2
    trace := s.trace ++ payloadEvents s data (s.env.askSpiWrite data.length).1 }

/-- What a module write answers and leaves (R163): `TransferFailed` when the frame's exchange fails, `WriteFailed` on a
negative count, else the count. -/
def moduleWrite (a : BitVec 4) (data : List Byte) (s : State) : Except Error Int × State :=
  let s1 := frameSent a opWrite s
  match (s.env.askExchange 1).1 with
  | none => (.error .transferFailed, s1)
  | some _ =>
    let n := (s1.env.askSpiWrite data.length).1
    (if n < 0 then .error .writeFailed else .ok n, payloadSent data s1)

/-- What an operation that only succeeds with a value answers. -/
def countResult : Except Error Int → Result
  | .error e => .error e
  | .ok n => .ok (.count n.toNat)

/-- The state after the first chip-select toggle of a module read (42_addressing.md R164). -/
def toggled (s : State) : State :=
  let cs := s.board.roleLine .cs
  { s with
    dataOut := setLatch cs true s.dataOut
    trace := s.trace ++ [.gpioLevel cs false, .gpioLevel cs true] }

/-- The state after the raw one-byte read of a module read, answered by `askExchange 1` (R164, 41_serial_bus.md R149). -/
def rawReadDone (s : State) : State :=
  let cs := s.board.roleLine .cs
  { s with
    dataOut := setLatch cs true s.dataOut
    env := (s.env.askExchange 1).2
    trace := s.trace ++ sectionEvents s
      [.gpioLevel cs false, .spiExchange (sectionProfile s) [s.board.data.rawFill] (s.env.askExchange 1).1,
        .gpioLevel cs true] }

/-- What a module read answers and leaves (R164): two frames, each reported at once when it fails, a toggle after the
first, and a raw read after the second. -/
def moduleRead (a : BitVec 4) (s : State) : Result × State :=
  let s1 := frameSent a opReadReady s
  match (s.env.askExchange 1).1 with
  | none => (.error .transferFailed, s1)
  | some _ =>
    let s2 := frameSent a opReadExec (toggled s1)
    match (s1.env.askExchange 1).1 with
    | none => (.error .transferFailed, s2)
    | some _ =>
      match (s2.env.askExchange 1).1 with
      | none => (.error .readFailed, rawReadDone s2)
      | some rx => (.ok (.byte (rx.headD 0)), rawReadDone s2)

/-- The state after the two local selector lines were driven to a channel, `MUX0` first (43_register_bus.md R182). -/
def muxDriven (loc : BitVec 2) (s : State) : State :=
  let m0 := s.board.roleLine .mux0
  let m1 := s.board.roleLine .mux1
  { s with
    dataOut := setLatch m1 (loc.getLsbD 1) (setLatch m0 (loc.getLsbD 0) s.dataOut)
    trace := s.trace ++ [.gpioLevel m0 (loc.getLsbD 0), .gpioLevel m1 (loc.getLsbD 1)] }

/-- The lines returned so far, one more added (40_gpio.md R127). -/
def noteLine (l : Line) (ls : List Line) : List Line := if ls.contains l then ls else l :: ls

/-- The events of a single-wire read before its polls (44_single_wire.md R202 to R204). -/
def wakeEvents (l : Line) : List Event :=
  [.gpioDir l .out, .gpioLevel l true, .hold Config.tWakeMs, .gpioLevel l false, .hold Config.tReqMs, .gpioDir l .inp]

/-- The levels a sensor shows at successive polls of the sampling phase: `low[p]` zeros and a one, `high[p]` ones and a
zero, for each pair (vector M4 of 95_test_vectors.md). -/
def pairLevels : List Nat → List Nat → List Bool
  | lo :: lows, hi :: highs =>
    List.replicate lo false ++ (true :: (List.replicate hi true ++ (false :: pairLevels lows highs)))
  | [], _ => []
  | _ :: _, [] => []

/-- The levels of a whole reply: `wait` ones and a zero, then the pairs. -/
def trainLevels (wait : Nat) (low high : List Nat) : List Bool :=
  List.replicate wait true ++ (false :: pairLevels low high)

/-- The number of one bits of a value (00_scope.md R12). -/
def popcount {w : Nat} (v : BitVec w) : Nat := ((List.range w).filter v.getLsbD).length

/-- The result of an operation that must see its one selector byte accepted (R167, 43_register_bus.md R182). -/
def selectorResult : Except Error Int → Result
  | .error e => .error e
  | .ok n => if n < 1 then .error .writeFailed else .ok .unit

/-! ## Errors -/

/-- Which error kinds an operation may return (60_exceptions.md R235). -/
def mayReturn : Instr → Error → Bool
  | .gpioResolve _, e => e.code == 1 || e.code == 2 || e.code == 3
  | .gpioSetOutput _, _ => false
  | .gpioSetInput _, _ => false
  | .gpioSetHigh _, _ => false
  | .gpioSetLow _, _ => false
  | .gpioRead _, _ => false
  | .serialOpen _ _ _ _, e => e.code == 2
  | .serialTransfer _ _, e => e.code == 4
  | .serialTransferSecondary _ _, e => e.code == 4
  | .serialClose, _ => false
  | .addrSelect _ _, e => e.code == 4 || e.code == 9
  | .addrWrite _ _ _, e => e.code == 4 || e.code == 5
  | .addrRead _, e => e.code == 4 || e.code == 6
  | .addrSetExt _, _ => false
  | .addrUnselectExt, e => e.code == 4 || e.code == 5
  | .regOpenHandle _, e => e.code == 2
  | .regSelect _ _ _, e => e.code == 4 || e.code == 5 || e.code == 9
  | .regRead _ _ _ _, e => e.code == 6
  | .regWrite _ _ _ _ _, e => e.code == 5
  | .wireRead _ _, e => e.code == 7 || e.code == 8
  | .frameWrite _, e => e.code == 4
  | .frameReadReady _, e => e.code == 4
  | .frameReadExec _, e => e.code == 4

/-! ## The invariant -/

/-- Whether the rest of an operation keeps the critical sections whole (20_memory.md R73, 70_reset_and_hazards.md R285):
the bus profile is switched, restored, opened, closed and used only under `lock.serial`; a switch is followed by its
restore; nothing that may end the operation stands between the two. `ser`: the operation holds `lock.serial`; `win`: it
is between a switch and its restore. -/
def disciplined : Bool → Bool → List Micro → Bool
  | _, win, [] => !win
  | ser, win, m :: ms =>
    match m with
    | .requireRoles _ => disciplined ser win ms
    | .takeSerial => !win && disciplined true win ms
    | .takeTwowire => !win && disciplined ser win ms
    | .releaseSerial => !win && disciplined false win ms
    | .requireLen _ _ => disciplined ser win ms
    | .requireProfile _ => disciplined ser win ms
    | .requireOpen => disciplined ser win ms
    | .requireHandle _ => disciplined ser win ms
    | .requireSole _ => disciplined ser win ms
    | .resolve _ => disciplined ser win ms
    | .oeRead _ => disciplined ser win ms
    | .oeWrite _ _ => disciplined ser win ms
    | .level _ _ => disciplined ser win ms
    | .sample _ => disciplined ser win ms
    | .openBus _ _ => ser && !win && disciplined ser win ms
    | .closeBus => ser && !win && disciplined ser win ms
    | .enterSecondary => ser && !win && disciplined ser true ms
    | .leaveSecondary => ser && win && disciplined ser false ms
    | .exchange _ => ser && disciplined ser win ms
    | .sendFrame _ _ => ser && disciplined ser win ms
    | .rawWrite _ => ser && disciplined ser win ms
    | .checkRx _ => !win && disciplined ser win ms
    | .checkCount _ _ => !win && disciplined ser win ms
    | .returnRx => disciplined ser win ms
    | .returnByte => disciplined ser win ms
    | .returnCount => disciplined ser win ms
    | .checkFrameOp _ => !win && disciplined ser win ms
    | .setExt _ => ser && disciplined ser win ms
    | .stopIfNoExt => !win && disciplined ser win ms
    | .openHandle _ => disciplined ser win ms
    | .checkExt _ => !win && disciplined ser win ms
    | .busWrite _ _ => disciplined ser win ms
    | .busRead _ _ => disciplined ser win ms
    | .hold _ => disciplined ser win ms
    | .phase _ => disciplined ser win ms
    | .poll _ _ _ => !win && disciplined ser win ms
    | .threshold => disciplined ser win ms
    | .packBits => disciplined ser win ms
    | .validate => !win && disciplined ser win ms
    | .interpret _ => disciplined ser win ms

/-- An operation in flight keeps its critical section, and a saved profile is the primary one, saved while the bus runs
under the secondary one (R28, R36). -/
structure JobOk (s : State) (j : Job) : Prop where
  section_whole : ∃ win, disciplined (s.lockSerial == some j.who) win j.todo = true ∧ (j.saved.isSome = true → win = true)
  saved_primary : ∀ p, j.saved = some p → s.spiOpen = true → p = s.spiPrimary ∧ s.spiActive = s.board.secondary
  /-- the counts fit the registers of 10_state.md R34 -/
  counts_bounded : ∀ c ∈ j.dht.count :: (j.dht.low ++ j.dht.high), c ≤ Config.dhtSpinBound

/-- What holds between steps when `js` are the operations in flight. -/
structure InvWith (js : List Job) (s : State) : Prop where
  /-- each requester has at most one operation in flight (00_scope.md R9) -/
  one_each : (js.map (fun j => j.who)).Nodup
  /-- a lock is held only by a requester with an operation in flight (60_exceptions.md R243) -/
  serial_held : ∀ r, s.lockSerial = some r → r ∈ js.map (fun j => j.who)
  twowire_held : ∀ r, s.lockTwowire = some r → r ∈ js.map (fun j => j.who)
  jobs : ∀ j ∈ js, JobOk s j
  /-- while the bus is open its active profile is the primary one, or the secondary one inside the critical section
  that switched it: never "a third, unrequested profile" (10_state.md R28, 41_serial_bus.md R147) -/
  profile : s.spiOpen = true → (∀ j ∈ js, j.saved = none) → s.spiActive = s.spiPrimary
  /-- a line exists only if its bank's window is mapped (10_state.md R27) -/
  mapped : ∀ l, s.resolved.contains l = true → s.winMapped[l.bank] = true

/-- The invariant of the machine between steps. -/
def Inv (s : State) : Prop := InvWith s.inflight s

/-- Each window is mapped at most once and each handle opened at most once (20_memory.md R77). -/
structure Once (s : State) : Prop where
  windows : ∀ b : Fin 4, s.trace.count (.mapWindow b) ≤ if s.winMapped[b] then 1 else 0
  handles : ∀ t : BitVec 7, s.trace.count (.i2cOpen t) ≤ if s.i2cHandle[t.toFin] then 1 else 0

/-- The board has room for the lengths an instruction names (U6: at most `MAX_LEN`). -/
def fitsBoard (bd : Board) : Instr → Bool
  | .serialTransfer len _ => Nat.ble len.toNat bd.data.maxLen
  | .serialTransferSecondary len _ => Nat.ble len.toNat bd.data.maxLen
  | .addrWrite _ len _ => Nat.ble len.toNat bd.data.maxLen
  | .regRead _ _ _ len => Nat.ble len.toNat bd.data.maxLen
  | .regWrite _ _ _ len _ => Nat.ble len.toNat bd.data.maxLen
  | .gpioResolve _ => true
  | .gpioSetOutput _ => true
  | .gpioSetInput _ => true
  | .gpioSetHigh _ => true
  | .gpioSetLow _ => true
  | .gpioRead _ => true
  | .serialOpen _ _ _ _ => true
  | .serialClose => true
  | .addrSelect _ _ => true
  | .addrRead _ => true
  | .addrSetExt _ => true
  | .addrUnselectExt => true
  | .regOpenHandle _ => true
  | .regSelect _ _ _ => true
  | .wireRead _ _ => true
  | .frameWrite _ => true
  | .frameReadReady _ => true
  | .frameReadExec _ => true

/-- Which lock an operation takes before its first step (20_memory.md R73). -/
inductive FirstLock where
  | noLock | serial | twowire
deriving DecidableEq, Repr

/-- The table of 20_memory.md R73. -/
def firstLock : Instr → FirstLock
  | .gpioResolve _ => .noLock
  | .gpioSetOutput _ => .noLock
  | .gpioSetInput _ => .noLock
  | .gpioSetHigh _ => .noLock
  | .gpioSetLow _ => .noLock
  | .gpioRead _ => .noLock
  | .serialOpen _ _ _ _ => .serial
  | .serialTransfer _ _ => .serial
  | .serialTransferSecondary _ _ => .serial
  | .serialClose => .serial
  | .addrSelect _ _ => .serial
  | .addrWrite _ _ _ => .serial
  | .addrRead _ => .serial
  | .addrSetExt _ => .serial
  | .addrUnselectExt => .serial
  | .regOpenHandle _ => .twowire
  | .regSelect _ _ _ => .twowire
  | .regRead _ _ _ _ => .twowire
  | .regWrite _ _ _ _ _ => .twowire
  | .wireRead _ _ => .noLock
  | .frameWrite _ => .serial
  | .frameReadReady _ => .serial
  | .frameReadExec _ => .serial

/-- Whether an operation works on the bus or on its profile, so that a closed bus stops it (93_implementation_defined.md
U3); `unselect_extension` and `select_channel` reach the bus only when an extension board is written to. -/
def needsBus (s : State) : Instr → Bool
  | .serialTransfer _ _ => true
  | .serialTransferSecondary _ _ => true
  | .serialClose => true
  | .addrSelect _ op => frameOperation op
  | .addrWrite _ _ _ => true
  | .addrRead _ => true
  | .addrUnselectExt => s.extAddr.isSome
  | .frameWrite _ => true
  | .frameReadReady _ => true
  | .frameReadExec _ => true
  | .gpioResolve _ => false
  | .gpioSetOutput _ => false
  | .gpioSetInput _ => false
  | .gpioSetHigh _ => false
  | .gpioSetLow _ => false
  | .gpioRead _ => false
  | .serialOpen _ _ _ _ => false
  | .addrSetExt _ => false
  | .regOpenHandle _ => false
  | .regSelect _ _ _ => false
  | .regRead _ _ _ _ => false
  | .regWrite _ _ _ _ _ => false
  | .wireRead _ _ => false

/-- The role lines without which an operation does not run: those of its unit and of the units it calls (40_gpio.md R128). -/
def neededRoles : Instr → List Role
  | .gpioResolve _ => []
  | .gpioSetOutput _ => []
  | .gpioSetInput _ => []
  | .gpioSetHigh _ => []
  | .gpioSetLow _ => []
  | .gpioRead _ => []
  | .serialOpen _ _ _ _ => [.ds]
  | .serialTransfer _ _ => [.ds]
  | .serialTransferSecondary _ _ => [.ds]
  | .serialClose => [.ds]
  | .addrSelect _ _ => [.ds, .cs]
  | .addrWrite _ _ _ => [.ds, .cs]
  | .addrRead _ => [.ds, .cs]
  | .addrSetExt _ => [.ds, .cs]
  | .addrUnselectExt => [.ds, .cs]
  | .regOpenHandle _ => [.mux0, .mux1]
  | .regSelect _ false _ => [.mux0, .mux1]
  | .regSelect _ true _ => [.mux0, .mux1, .ds, .cs]
  | .regRead _ _ _ _ => [.mux0, .mux1]
  | .regWrite _ _ _ _ _ => [.mux0, .mux1]
  | .wireRead _ _ => []
  | .frameWrite _ => [.ds, .cs]
  | .frameReadReady _ => [.ds, .cs]
  | .frameReadExec _ => [.ds, .cs]

/-- The role lines an operation needs are all resolved. -/
abbrev RolesResolved (s : State) (i : Instr) : Prop :=
  ∀ r ∈ neededRoles i, s.resolved.contains (s.board.roleLine r) = true

/-- The `len` operand of an operation that has one, and the length of its buffer (for a read the bytes asked for). -/
def lengthOperand : Instr → Option (BitVec 16 × Nat)
  | .serialTransfer len tx => some (len, tx.length)
  | .serialTransferSecondary len tx => some (len, tx.length)
  | .addrWrite _ len data => some (len, data.length)
  | .regRead _ _ _ len => some (len, len.toNat)
  | .regWrite _ _ _ len data => some (len, data.length)
  | .gpioResolve _ => none
  | .gpioSetOutput _ => none
  | .gpioSetInput _ => none
  | .gpioSetHigh _ => none
  | .gpioSetLow _ => none
  | .gpioRead _ => none
  | .serialOpen _ _ _ _ => none
  | .serialClose => none
  | .addrSelect _ _ => none
  | .addrRead _ => none
  | .addrSetExt _ => none
  | .addrUnselectExt => none
  | .regOpenHandle _ => none
  | .regSelect _ _ _ => none
  | .wireRead _ _ => none
  | .frameWrite _ => none
  | .frameReadReady _ => none
  | .frameReadExec _ => none

/-- Runs a list of inputs one after another. -/
def runInputs : List Input → State → Host.Outcome State Fault Refusal
  | [], s => .next s
  | i :: is, s =>
    match takeInput i s with
    | .next t => runInputs is t
    | .fault r => .fault r
    | .refused r => .refused r

end Sys2Proof.Machine
end

