-- ==== Sys2Proof/Certificates/Slice0/Obligations.lean ====
section
/-! DEFINITION. The statements for the provers, from the numbered rules of spec/. A statement that gives a next state in full
(`… = .next t`) is at once the completion, the result and the frame of its instruction: what `t` does not name is as it
was. `answered r t` is `t` with the result `r` handed to the current requester. The environment's answers stand as
`s.env.ask…`: whatever is scripted, or the free value where nothing is. -/

section

open Sys2Proof Sys2Proof.Machine

/-! ## Encodings -/

/-- Words written out from the spec: frames of the table of 30_encoding.md R98 and opcodes of R90. The byte layout of
operands is the model's choice (assumption 1). -/
def Obligations.WrittenOutWordsDecode : Prop :=
  decode .addressFrame [0x01] = .ok (.frameWrite 0) ∧
  decode .addressFrame [0x29] = .ok (.frameWrite 5) ∧
  decode .addressFrame [0xBA] = .ok (.frameReadReady 7) ∧
  decode .addressFrame [0xBB] = .ok (.frameReadExec 7) ∧
  decode .addressFrame [0x7B] = .ok (.frameReadExec 15) ∧
  decode .command [0x10, 13, 0] = .ok (.gpioResolve 13) ∧
  decode .command [0x13, 1, 17] = .ok (.gpioSetHigh ⟨1, 17⟩) ∧
  decode .command [0x23] = .ok .serialClose ∧
  decode .command [0x31, 5, 1, 0, 0xFF] = .ok (.addrWrite 5 1 [0xFF]) ∧
  decode .command [0x43, 0x76, 0, 0xF4, 1, 0, 0x27] = .ok (.regWrite 0x76 false 0xF4 1 [0x27]) ∧
  decode .command [0x50, 1, 2, 3] = .ok (.wireRead .fractional ⟨2, 3⟩)

/-- Every instruction that can be written as bytes decodes to itself. -/
def Obligations.DecodeOfEncode : Prop :=
  ∀ i : Instr, i.encodable = true → decode (encode i).1 (encode i).2 = .ok i

/-- No two messages name one instruction: a message that decodes is the encoding of what it decodes to. It rests on the
model's choices: the operand layout (assumption 1), that bytes left over are refused (assumption 2), and that a frame's
parity is checked (assumption 3). -/
def Obligations.EncodeOfDecode : Prop :=
  ∀ (f : Format) (bs : List Byte) (i : Instr), decode f bs = .ok i → encode i = (f, bs) ∧ i.encodable = true

/-- 30_encoding.md R96: the parity bit of a frame is the XOR of the four address bits, which is the parity of the number
of its ones; parity and address together have an even number of ones; the operation does not count. -/
def Obligations.FrameParityEven : Prop :=
  ∀ (a : BitVec 4) (op op' : BitVec 3),
    (addressFrame a op).getLsbD 7 = (a.getLsbD 3 ^^ a.getLsbD 2 ^^ a.getLsbD 1 ^^ a.getLsbD 0) ∧
    ((addressFrame a op).getLsbD 7 = true ↔ popcount a % 2 = 1) ∧
    popcount ((addressFrame a op).extractLsb' 3 5) % 2 = 0 ∧
    (addressFrame a op').getLsbD 7 = (addressFrame a op).getLsbD 7

/-- 30_encoding.md R94, R97 (U19): a command whose first byte is none of the twenty opcodes is refused, whatever follows;
so is a frame with a wrong parity bit or a reserved operation. That a frame's parity is checked is the model's choice
(assumption 3). -/
def Obligations.IllegalMessagesRefused : Prop :=
  ∀ (s : State) (who : Nat) (rest : List Input), requesterExists who s = true →
    (∀ (b : Byte) (bs : List Byte),
      b ∉ [0x10, 0x11, 0x12, 0x13, 0x14, 0x15] → b ∉ [0x20, 0x21, 0x22, 0x23] →
      b ∉ [0x30, 0x31, 0x32, 0x33, 0x34] → b ∉ [0x40, 0x41, 0x42, 0x43, 0x50] →
      step { s with inputs := .issue who .command (b :: bs) :: rest } =
        .refused (.illegalCommand (.unknownOpcode b))) ∧
    (∀ f : Byte, f.getLsbD 7 ≠ (f.getLsbD 6 ^^ f.getLsbD 5 ^^ f.getLsbD 4 ^^ f.getLsbD 3) →
      step { s with inputs := .issue who .addressFrame [f] :: rest } = .refused (.illegalCommand .badParity)) ∧
    (∀ f : Byte, f.getLsbD 7 = (f.getLsbD 6 ^^ f.getLsbD 5 ^^ f.getLsbD 4 ^^ f.getLsbD 3) →
      (f.toNat % 8 = 0 ∨ 4 ≤ f.toNat % 8) →
      step { s with inputs := .issue who .addressFrame [f] :: rest } =
        .refused (.illegalCommand .reservedFrameOperation))

/-! ## Steps -/

/-- A step takes the first input. A command issued that decodes to `i` is `exec i`; a command started puts `i` into flight
with all its steps to make; a grain is one step of an operation in flight; with no input nothing happens (00_scope.md
R8). -/
def Obligations.StepRunsDecoded : Prop :=
  ∀ (s : State) (who : Nat) (f : Format) (bs : List Byte) (i : Instr) (rest : List Input),
    (requesterExists who s = true → decode f bs = .ok i → s.inputs = .issue who f bs :: rest →
      step s = exec i { s with inputs := rest, cur := who }) ∧
    (requesterExists who s = true → decode f bs = .ok i → s.inputs = .start who f bs :: rest → busy who s = false →
      step s = .next { s with
        inputs := rest, cur := who, inflight := s.inflight ++ [Job.fresh who i (codeOf i)] }) ∧
    (s.inputs = .grain who :: rest → step s = grain who { s with inputs := rest }) ∧
    (s.inputs = [] → step s = .next s)

/-- The state the host builds from a table word runs the decoded instruction at its next step, from `s` itself
(assumptions 3 and 11). -/
def Obligations.TableWordRunsNext : Prop :=
  ∀ (s : State) (nbits w : Nat) (i : Instr),
    requesterExists s.cur s = true → decodeTableWord nbits w = some i → step (s.withFetchWord nbits w) = exec i s

/-- 10_state.md R38 (its values rest on decision D8): what reset leaves, and which registers it leaves to a draw; and the
two parameters with a listed value have it (00_scope.md R7, decisions D15 and D18, assumption 10). -/
def Obligations.ResetValues : Prop :=
  (∀ b : Fin 4, State.reset.winMapped[b] = false ∧ State.reset.oe[b] = Config.resetOe b ∧
    State.reset.dataOut[b] = Config.resetDataOut b) ∧
  State.reset.spiOpen = false ∧ State.reset.extAddr = none ∧
  (∀ t : BitVec 7, State.reset.i2cHandle[t.toFin] = false) ∧
  State.reset.lockSerial = none ∧ State.reset.lockTwowire = none ∧ State.reset.inflight = [] ∧
  State.reset.trace = [] ∧ State.reset.results = [] ∧
  (∀ ext : BitVec 4, extSelEncode State.reset.board ext = ext.setWidth 8) ∧ State.reset.board.data.rawFill = 0x00

/-- 00_scope.md R10: the laws of the environment's answers, for scripted and for free answers alike. -/
def Obligations.EnvironmentLaws : Prop :=
  ∀ (e : Env) (n : Nat),
    (∀ rx, (e.askExchange n).1 = some rx → rx.length = n) ∧
    (e.askSpiWrite n).1 ≤ (n : Int) ∧
    (e.askI2cWrite n).1 ≤ (n : Int) ∧
    (e.askI2cRead n).1.1 ≤ (n : Int) ∧
    (e.askI2cRead n).1.2.length = (e.askI2cRead n).1.1.toNat

/-! ## The register windows -/

/-- 10_state.md R23: a write of `m` to the set port ors it into the latch, a write to the clear port clears its bits, in
one step and with nothing else changed; bits of `m` that are 0 leave the latch's bits as they are; a read of either port
is refused. -/
def Obligations.PortWrites : Prop :=
  ∀ (s : State) (b : Fin 4) (m : Word), s.winMapped[b] = true →
    memWrite (s.board.addr b .setDataOut) 4 m s = .ok { s with dataOut := s.dataOut.set b (s.dataOut[b] ||| m) } ∧
    memWrite (s.board.addr b .clearDataOut) 4 m s = .ok { s with dataOut := s.dataOut.set b (s.dataOut[b] &&& ~~~ m) } ∧
    (∀ k, m.getLsbD k = false →
      (s.dataOut[b] ||| m).getLsbD k = s.dataOut[b].getLsbD k ∧
      (s.dataOut[b] &&& ~~~ m).getLsbD k = s.dataOut[b].getLsbD k) ∧
    memRead (s.board.addr b .setDataOut) 4 s = .error .accessKindForbidden ∧
    memRead (s.board.addr b .clearDataOut) 4 s = .error .accessKindForbidden

/-- 20_memory.md R62 to R64, R66 (U9): the five registers of the four windows have distinct addresses, each inside its
window; `OE` reads and writes whole; `DATAIN` reads the pads and is not written (10_state.md R21); the latch's own offset
is not accessed (R62; that such an access is refused is assumption 18); an access that is not 4 bytes, not aligned, at no
register, or in an unmapped window is refused. The two ports are in `PortWrites`. -/
def Obligations.WindowAccess : Prop :=
  ∀ (s : State) (b : Fin 4),
    (∀ r, s.board.data.base[b] ≤ s.board.addr b r ∧ s.board.addr b r < s.board.data.base[b] + 4096) ∧
    (∀ r b' r', s.board.addr b r = s.board.addr b' r' → b = b' ∧ r = r') ∧
    (s.winMapped[b] = true →
      memRead (s.board.addr b .oe) 4 s = .ok (s.oe[b], s) ∧
      (∀ v, memWrite (s.board.addr b .oe) 4 v s = .ok { s with oe := s.oe.set b v }) ∧
      memRead (s.board.addr b .dataIn) 4 s = .ok (dataIn b s) ∧
      (∀ v, memWrite (s.board.addr b .dataIn) 4 v s = .error .accessKindForbidden) ∧
      memRead (s.board.addr b .dataOut) 4 s = .error .accessKindForbidden ∧
      (∀ v, memWrite (s.board.addr b .dataOut) 4 v s = .error .accessKindForbidden)) ∧
    (s.winMapped[b] = false → ∀ r v,
      memRead (s.board.addr b r) 4 s = .error .windowUnmapped ∧
      memWrite (s.board.addr b r) 4 v s = .error .windowUnmapped) ∧
    (∀ a n v, n ≠ 4 → memRead a n s = .error .accessNotWord ∧ memWrite a n v s = .error .accessNotWord) ∧
    (∀ a v, a % 4 ≠ 0 → memRead a 4 s = .error .accessMisaligned ∧ memWrite a 4 v s = .error .accessMisaligned) ∧
    (∀ a v, a % 4 = 0 → (∀ b' r, s.board.addr b' r ≠ a) →
      memRead a 4 s = .error .noRegisterAtAddress ∧ memWrite a 4 v s = .error .noRegisterAtAddress)

/-! ## GPIO unit -/

/-- 40_gpio.md R121: `InvalidPin` for an id the table lacks; a mapped window answers the line at once; else the device is
opened and the window mapped, each failure returned with nothing of the block changed. -/
def Obligations.ResolveEffect : Prop :=
  ∀ (s : State) (id : BitVec 16), Idle s →
    (s.board.data.pin id = none → exec (.gpioResolve id) s = .next (answered (.error (.invalidPin id)) s)) ∧
    (∀ l, s.board.data.pin id = some l →
      (s.winMapped[l.bank] = true →
        exec (.gpioResolve id) s =
          .next (answered (.ok (.line id l)) { s with resolved := noteLine l s.resolved })) ∧
      (s.winMapped[l.bank] = false → s.env.askOpenMem.1 = false →
        exec (.gpioResolve id) s =
          .next (answered (.error (.deviceOpenFailed (.bank l.bank))) { s with env := s.env.askOpenMem.2 })) ∧
      (s.winMapped[l.bank] = false → s.env.askOpenMem.1 = true → s.env.askOpenMem.2.askMap.1 = false →
        exec (.gpioResolve id) s =
          .next (answered (.error (.mapFailed l.bank)) { s with env := s.env.askOpenMem.2.askMap.2 })) ∧
      (s.winMapped[l.bank] = false → s.env.askOpenMem.1 = true → s.env.askOpenMem.2.askMap.1 = true →
        exec (.gpioResolve id) s =
          .next (answered (.ok (.line id l)) { s with
            env := s.env.askOpenMem.2.askMap.2
            winMapped := s.winMapped.set l.bank true
            trace := s.trace ++ [.mapWindow l.bank]
            resolved := noteLine l s.resolved })))

/-- 40_gpio.md R122: `set_output` clears the line's bit of `OE` and writes the other 31 back as read; the pad carries the
latch bit; on a line already an output nothing of `OE` changes, and the event is still emitted. -/
def Obligations.SetOutputEffect : Prop :=
  ∀ (s : State) (l : Line), Idle s → LineReady s l →
    let t : State := { s with
      oe := s.oe.set l.bank (s.oe[l.bank] &&& ~~~ (1#32 <<< l.bit.val))
      trace := s.trace ++ [.gpioDir l .out] }
    exec (.gpioSetOutput l) s = .next (answered (.ok .unit) t) ∧ drivenLevel t l = some (latch s l) ∧
    (lineBit s.oe[l.bank] l = false → t.oe = s.oe)

/-- 40_gpio.md R123 (decision D6): `set_input` sets the line's bit of `OE`; the pad is no longer driven and the latch
keeps its value. -/
def Obligations.SetInputEffect : Prop :=
  ∀ (s : State) (l : Line), Idle s → LineReady s l →
    let t : State := { s with
      oe := s.oe.set l.bank (s.oe[l.bank] ||| (1#32 <<< l.bit.val))
      trace := s.trace ++ [.gpioDir l .inp] }
    exec (.gpioSetInput l) s = .next (answered (.ok .unit) t) ∧ drivenLevel t l = none

/-- 40_gpio.md R124: `set_high` ors the line's mask into the latch, with one event; on a line already high the latch is as
it was; on an input line the pad does not change; no other line's pad changes. -/
def Obligations.SetHighEffect : Prop :=
  ∀ (s : State) (l : Line), Idle s → LineReady s l →
    let t : State := { s with
      dataOut := s.dataOut.set l.bank (s.dataOut[l.bank] ||| (1#32 <<< l.bit.val))
      trace := s.trace ++ [.gpioLevel l true] }
    exec (.gpioSetHigh l) s = .next (answered (.ok .unit) t) ∧
    (latch s l = true → t.dataOut = s.dataOut) ∧
    (lineBit s.oe[l.bank] l = true → drivenLevel t l = drivenLevel s l) ∧
    (∀ m, m ≠ l → drivenLevel t m = drivenLevel s m)

/-- 40_gpio.md R125: `set_low` clears the line's bit of the latch, with one event; a second one changes nothing more; on an
input line the pad does not change; no other line's pad changes. -/
def Obligations.SetLowEffect : Prop :=
  ∀ (s : State) (l : Line), Idle s → LineReady s l →
    let t : State := { s with
      dataOut := s.dataOut.set l.bank (s.dataOut[l.bank] &&& ~~~ (1#32 <<< l.bit.val))
      trace := s.trace ++ [.gpioLevel l false] }
    exec (.gpioSetLow l) s = .next (answered (.ok .unit) t) ∧
    (latch s l = false → t.dataOut = s.dataOut) ∧
    (lineBit s.oe[l.bank] l = true → drivenLevel t l = drivenLevel s l) ∧
    (∀ m, m ≠ l → drivenLevel t m = drivenLevel s m)

/-- 40_gpio.md R126, 10_state.md R22 (decision D7): the bit read is the outside level on an input line and a draw on a
driven line; only the environment's answers and the trace change. -/
def Obligations.ReadEffect : Prop :=
  ∀ (s : State) (l : Line), Idle s → LineReady s l →
    let v := if lineBit s.oe[l.bank] l then lineBit s.env.askPads.1 l else lineBit s.env.askPads.2.askDriven.1 l
    exec (.gpioRead l) s = .next (answered (.ok (.bit v)) { s with
      env := s.env.askPads.2.askDriven.2
      trace := s.trace ++ [.gpioSample l v] })

/-- The frame of the GPIO operations (40_gpio.md R121 to R126) through the byte view of the registers: `set_output` and
`set_input` store to the four bytes of `OE`; `set_high` and `set_low` write a port, which changes at most the four bytes
of the latch (10_state.md R23); `resolve` and `read` change none. -/
def Obligations.RegisterBytesFrame : Prop :=
  ∀ (s t : State) (l : Line) (a : Nat),
    (exec (.gpioSetOutput l) s = .next t ∨ exec (.gpioSetInput l) s = .next t →
      ¬ (s.board.addr l.bank .oe ≤ a ∧ a < s.board.addr l.bank .oe + 4) → storedByte t a = storedByte s a) ∧
    (exec (.gpioSetHigh l) s = .next t ∨ exec (.gpioSetLow l) s = .next t →
      ¬ (s.board.addr l.bank .dataOut ≤ a ∧ a < s.board.addr l.bank .dataOut + 4) →
      storedByte t a = storedByte s a) ∧
    (∀ id, exec (.gpioResolve id) s = .next t ∨ exec (.gpioRead l) s = .next t → storedByte t a = storedByte s a)

/-- 20_memory.md R65 (decision D9): the byte at offset `k` of a stored register holds bits `8k` to `8k + 7`. -/
def Obligations.RegisterBytes : Prop :=
  ∀ (s : State) (b : Fin 4) (k : Fin 4),
    storedByte s (s.board.addr b .oe + k.val) = some (s.oe[b].extractLsb' (8 * k.val) 8) ∧
    storedByte s (s.board.addr b .dataOut + k.val) = some (s.dataOut[b].extractLsb' (8 * k.val) 8)

/-- 20_memory.md R76: a level operation never disturbs another line, nor any direction; a direction operation run whole
never disturbs another line's direction, nor any latch. -/
def Obligations.OtherLinesUntouched : Prop :=
  ∀ (s t : State) (l m : Line), m ≠ l →
    (exec (.gpioSetHigh l) s = .next t ∨ exec (.gpioSetLow l) s = .next t → latch t m = latch s m ∧ t.oe = s.oe) ∧
    (exec (.gpioSetOutput l) s = .next t ∨ exec (.gpioSetInput l) s = .next t →
      lineBit t.oe[m.bank] m = lineBit s.oe[m.bank] m ∧ t.dataOut = s.dataOut)

/-- 20_memory.md R76 and vector GP21: two unserialized `set_output` on one bank can lose the first writer's change, and
run one after the other keep both. -/
def Obligations.OutputEnableRace : Prop :=
  ∀ (s : State) (a b : Nat) (l m : Line), l.bank = m.bank → a ≠ b →
    requesterExists a s = true → requesterExists b s = true → busy a s = false → busy b s = false →
    LineReady s l → LineReady s m →
    let A := encode (.gpioSetOutput l)
    let B := encode (.gpioSetOutput m)
    (∃ t, runInputs [.start a A.1 A.2, .start b B.1 B.2, .grain a, .grain b, .grain a, .grain b] s = .next t ∧
      t.oe[m.bank] = s.oe[m.bank] &&& ~~~ mask m) ∧
    (∃ t, runInputs [.issue a A.1 A.2, .issue b B.1 B.2] s = .next t ∧
      t.oe[m.bank] = s.oe[m.bank] &&& ~~~ mask l &&& ~~~ mask m)

/-- 20_memory.md R76 and vector GP22: two `set_high` on one bank keep both changes in either order of their accesses. -/
def Obligations.LevelWritesNeverRace : Prop :=
  ∀ (s : State) (a b : Nat) (l m : Line), l.bank = m.bank → a ≠ b →
    requesterExists a s = true → requesterExists b s = true → busy a s = false → busy b s = false →
    LineReady s l → LineReady s m →
    let A := encode (.gpioSetHigh l)
    let B := encode (.gpioSetHigh m)
    (∃ t, runInputs [.start a A.1 A.2, .start b B.1 B.2, .grain a, .grain b] s = .next t ∧
      t.dataOut[m.bank] = s.dataOut[m.bank] ||| mask l ||| mask m) ∧
    (∃ t, runInputs [.start a A.1 A.2, .start b B.1 B.2, .grain b, .grain a] s = .next t ∧
      t.dataOut[m.bank] = s.dataOut[m.bank] ||| mask l ||| mask m)

/-! ## SPI unit -/

/-- 41_serial_bus.md R141: `open` on a closed bus with a legal profile makes it primary and active, or fails with nothing
of the block changed. -/
def Obligations.OpenEffect : Prop :=
  ∀ (s : State) (path : List Byte) (mode : BitVec 2) (word : BitVec 8) (speed : BitVec 32),
    SerialReady s → SerialUnit s → s.spiOpen = false → word ≠ 0 → speed ≠ 0 →
    (s.env.askSpiOpen.1 = true →
      exec (.serialOpen path mode word speed) s = .next (answered (.ok .busHandle) { s with
        env := s.env.askSpiOpen.2, spiOpen := true, spiPrimary := ⟨mode, word, speed⟩
        spiActive := ⟨mode, word, speed⟩, trace := s.trace ++ [.spiOpen, .spiProfile ⟨mode, word, speed⟩] })) ∧
    (s.env.askSpiOpen.1 = false →
      exec (.serialOpen path mode word speed) s =
        .next (answered (.error (.deviceOpenFailed (.path path))) { s with env := s.env.askSpiOpen.2 }))

/-- 41_serial_bus.md R143: one exchange of exactly `len` bytes under the active profile; its answer is the result, and no
line moves. -/
def Obligations.TransferEffect : Prop :=
  ∀ (s : State) (len : BitVec 16) (tx : List Byte),
    SerialReady s → SerialUnit s → s.spiOpen = true →
    len ≠ 0 → tx.length = len.toNat → len.toNat ≤ s.board.data.maxLen →
    let r := s.env.askExchange tx.length
    let t : State := { s with env := r.2, trace := s.trace ++ [.spiExchange s.spiActive tx r.1] }
    (r.1 = none → exec (.serialTransfer len tx) s = .next (answered (.error .transferFailed) t)) ∧
    (∀ rx, r.1 = some rx →
      exec (.serialTransfer len tx) s = .next (answered (.ok (.bytes rx)) t) ∧ rx.length = len.toNat)

/-- 41_serial_bus.md R146 (decisions D12, D13): the exchange under the secondary profile with the strobe low around it;
strobe and profile are put back before the result, success or failure, is reported. -/
def Obligations.TransferSecondaryEffect : Prop :=
  ∀ (s : State) (len : BitVec 16) (tx : List Byte),
    SerialReady s → s.spiOpen = true → RoleReady s .ds →
    len ≠ 0 → tx.length = len.toNat → len.toNat ≤ s.board.data.maxLen →
    let r := s.env.askExchange tx.length
    let t : State := { s with
      dataOut := setLatch (s.board.roleLine .ds) true s.dataOut
      env := r.2
      trace := s.trace ++ strobedEvents s tx r.1 }
    (r.1 = none → exec (.serialTransferSecondary len tx) s = .next (answered (.error .transferFailed) t)) ∧
    (∀ rx, r.1 = some rx → exec (.serialTransferSecondary len tx) s = .next (answered (.ok (.bytes rx)) t))

/-- 41_serial_bus.md R148: `close` closes the bus, moves no line, keeps the extension address; the profile registers hold
values nothing is said of. -/
def Obligations.CloseEffect : Prop :=
  ∀ s : State, SerialReady s → SerialUnit s → s.spiOpen = true →
    ∃ (p q : Profile) (d : Nat), exec .serialClose s = .next (answered (.ok .unit) { s with
      spiOpen := false, spiPrimary := p, spiActive := q, env := { s.env with draws := d }
      trace := s.trace ++ [.spiClose] })

/-- 10_state.md R28, 41_serial_bus.md R147: no operation but `open` and `close` leaves another profile active than the one
it found, whatever fails in it and even where it must wait. -/
def Obligations.ProfileKept : Prop :=
  ∀ (i : Instr) (s t : State),
    (∀ path mode word speed, i ≠ .serialOpen path mode word speed) → i ≠ .serialClose → exec i s = .next t →
    t.spiActive = s.spiActive ∧ t.spiPrimary = s.spiPrimary ∧ t.spiOpen = s.spiOpen

/-- 41_serial_bus.md R147: in the trace of a `transfer_secondary` the strobe goes low directly before the exchange and
high directly after it; nothing else is in it but profile switches, and the exchange runs under mode 3 with 8-bit
words. -/
def Obligations.StrobeBracketing : Prop :=
  ∀ (s : State) (len : BitVec 16) (tx : List Byte),
    SerialReady s → s.spiOpen = true → RoleReady s .ds →
    len ≠ 0 → tx.length = len.toNat → len.toNat ≤ s.board.data.maxLen →
    ∃ (t : State) (pre post : List Profile) (p : Profile) (rx : Option (List Byte)),
      exec (.serialTransferSecondary len tx) s = .next t ∧
      t.trace = s.trace ++ (pre.map Event.spiProfile ++
        ([.gpioLevel (s.board.roleLine .ds) false, .spiExchange p tx rx, .gpioLevel (s.board.roleLine .ds) true] ++
          post.map Event.spiProfile)) ∧
      p.mode = 3 ∧ p.word = 8 ∧ latch t (s.board.roleLine .ds) = true

/-! ## ADDR unit -/

/-- 42_addressing.md R161 (decision D17): `select` sends one frame; a reserved operation value is a contract violation
before anything is sent. -/
def Obligations.SelectEffect : Prop :=
  ∀ (s : State) (a : BitVec 4) (op : BitVec 3), SerialReady s → AddressingUnit s →
    (op = 0 ∨ 4 ≤ op.toNat →
      exec (.addrSelect a op) s = .next (answered (.error (.contractViolation (.frameOperation op))) s)) ∧
    (1 ≤ op.toNat → op.toNat ≤ 3 → s.spiOpen = true →
      exec (.addrSelect a op) s = .next (answered
        (if (s.env.askExchange 1).1.isSome then .ok .unit else .error .transferFailed) (frameSent a op s)))

/-- 30_encoding.md R95, R97: an address frame sent is the one-byte exchange of its byte under the strobe. That the three
frame rows of the opcode table are run as a `select` is the model's reading (assumption 4). -/
def Obligations.FrameEffect : Prop :=
  ∀ (s : State) (a : BitVec 4), SerialReady s → AddressingReady s →
    let r : Result := if (s.env.askExchange 1).1.isSome then .ok .unit else .error .transferFailed
    exec (.frameWrite a) s = .next (answered r (frameSent a 1 s)) ∧
    exec (.frameReadReady a) s = .next (answered r (frameSent a 2 s)) ∧
    exec (.frameReadExec a) s = .next (answered r (frameSent a 3 s))

/-- 42_addressing.md R163 (decisions D14, D15): the frame, then the payload as a raw write inside the chip-select sequence;
a short count is a success. -/
def Obligations.WriteToModuleEffect : Prop :=
  ∀ (s : State) (a : BitVec 4) (len : BitVec 16) (data : List Byte),
    SerialReady s → AddressingReady s → len ≠ 0 → data.length = len.toNat → len.toNat ≤ s.board.data.maxLen →
    exec (.addrWrite a len data) s =
      .next (answered (countResult (moduleWrite a data s).1) (moduleWrite a data s).2)

/-- 42_addressing.md R164 (decisions D14, D15): two frames, a toggle after the first, a raw read after the second. The byte
it shifts out is the board's parameter `RAW_READ_FILL` (assumption 10). -/
def Obligations.ReadFromModuleEffect : Prop :=
  ∀ (s : State) (a : BitVec 4), SerialReady s → AddressingReady s →
    exec (.addrRead a) s = .next (answered (moduleRead a s).1 (moduleRead a s).2)

/-- 42_addressing.md R166 (decision D20): the address is stored, nothing is sent, and the bus may be closed. -/
def Obligations.SetExtensionEffect : Prop :=
  ∀ (s : State) (a : BitVec 4), SerialReady s → AddressingUnit s →
    exec (.addrSetExt a) s = .next (answered (.ok .unit) { s with extAddr := some a })

/-- 42_addressing.md R167 (decision D20): with no board nothing happens and it succeeds; else the park code goes to the
board as one byte, which must be accepted. The byte is the board's parameter `EXT_SEL_ENCODE` of the code (30_encoding.md
R100, decision D18, assumption 10), `0x00` where the board takes the listed value. -/
def Obligations.UnselectEffect : Prop :=
  ∀ s : State, SerialReady s → AddressingUnit s →
    (s.extAddr = none → exec .addrUnselectExt s = .next (answered (.ok .unit) s)) ∧
    (∀ a, s.extAddr = some a → s.spiOpen = true →
      let w := moduleWrite a [extSelEncode s.board Config.extPark] s
      exec .addrUnselectExt s = .next (answered (selectorResult w.1) w.2)) ∧
    (s.board.Listed → extSelEncode s.board Config.extPark = 0x00)

/-- 42_addressing.md R160: every operation of the unit, on every path, ends with `CS` high if it began so, and with `DS`
high if it began so. -/
def Obligations.ChipSelectIdleHigh : Prop :=
  ∀ (i : Instr) (s t : State),
    firstLock i = .serial ∨ (∃ loc p e, i = .regSelect loc p e) → exec i s = .next t →
    (latch s (s.board.roleLine .cs) = true → latch t (s.board.roleLine .cs) = true) ∧
    (latch s (s.board.roleLine .ds) = true → latch t (s.board.roleLine .ds) = true)

/-! ## I2C unit -/

/-- 43_register_bus.md R181 (decision D21): a handle already open is returned with no event; else the target is opened
once. -/
def Obligations.OpenHandleEffect : Prop :=
  ∀ (s : State) (t : BitVec 7), TwowireReady s → RegisterUnit s →
    (s.i2cHandle[t.toFin] = true → exec (.regOpenHandle t) s = .next (answered (.ok (.targetHandle t)) s)) ∧
    (s.i2cHandle[t.toFin] = false → s.env.askI2cOpen.1 = true →
      exec (.regOpenHandle t) s = .next (answered (.ok (.targetHandle t)) { s with
        env := s.env.askI2cOpen.2, i2cHandle := s.i2cHandle.set t.toFin true, trace := s.trace ++ [.i2cOpen t] })) ∧
    (s.i2cHandle[t.toFin] = false → s.env.askI2cOpen.1 = false →
      exec (.regOpenHandle t) s =
        .next (answered (.error (.deviceOpenFailed (.target t))) { s with env := s.env.askI2cOpen.2 }))

/-- 43_register_bus.md R182 (decision D19): the local selector lines, and with an extension code the selector byte to the
board; on a failure there the lines keep their new levels. The byte is the board's parameter `EXT_SEL_ENCODE` of the code
(30_encoding.md R100, decision D18, assumption 10), the code zero-extended where the board takes the listed value. -/
def Obligations.SelectChannelEffect : Prop :=
  ∀ (s : State) (loc : BitVec 2) (e : BitVec 4), RegisterUnit s →
    (TwowireReady s →
      exec (.regSelect loc false e) s = .next (answered (.ok .unit) (muxDriven loc s))) ∧
    (∀ a, BothReady s → s.extAddr = some a → AddressingReady s → e.toNat / 4 ≠ 0 → e.toNat % 4 ≠ 0 →
      let w := moduleWrite a [extSelEncode s.board e] (muxDriven loc s)
      exec (.regSelect loc true e) s = .next (answered (selectorResult w.1) w.2)) ∧
    (s.board.Listed → extSelEncode s.board e = e.setWidth 8)

/-- 43_register_bus.md R182, 30_encoding.md R99: the seven parked codes, and any code when no board is configured, are a
contract violation before any effect. That a code with no board is one, and that the checks stand first, is decision
D19. -/
def Obligations.ParkedCodesRejected : Prop :=
  ∀ (s : State) (loc : BitVec 2) (e : BitVec 4), TwowireReady s → RegisterUnit s → AddressingUnit s →
    e ∈ [0b0000, 0b0001, 0b0010, 0b0011, 0b0100, 0b1000, 0b1100] ∨ s.extAddr = none →
    exec (.regSelect loc true e) s = .next (answered (.error (.contractViolation (.extensionCode e))) s)

/-- 10_state.md R31, 43_register_bus.md R182: a `select_channel` that is no contract violation leaves the local selector
at the requested channel, whatever becomes of its extension part. -/
def Obligations.LocalSelectorFollows : Prop :=
  ∀ (s t : State) (loc : BitVec 2) (p : Bool) (e : BitVec 4),
    s.lockTwowire = none → exec (.regSelect loc p e) s = .next t →
    t.results ≠ s.results ++ [(s.cur, .error (.contractViolation (.extensionCode e)))] → localSelector t = loc

/-- 43_register_bus.md R184 (decision D22): the address write, unless left out, must be accepted; then `len` bytes are
read, and fewer are no result. -/
def Obligations.RegReadEffect : Prop :=
  ∀ (s : State) (t : BitVec 7) (reg : Byte) (len : BitVec 16),
    TwowireReady s → RegisterUnit s → s.i2cHandle[t.toFin] = true → len ≠ 0 → len.toNat ≤ s.board.data.maxLen →
    let done (u : State) : State :=
      let r := u.env.askI2cRead len.toNat
      answered (if r.1.1 < (len.toNat : Int) then .error .readFailed else .ok (.bytes r.1.2))
        { u with env := r.2, trace := u.trace ++ [.i2cRead t len.toNat r.1.1 r.1.2] }
    exec (.regRead t true reg len) s = .next (done s) ∧
    (let w := s.env.askI2cWrite 1
     let u : State := { s with env := w.2, trace := s.trace ++ [.i2cWrite t [reg] w.1] }
     (w.1 < 1 → exec (.regRead t false reg len) s = .next (answered (.error .readFailed) u)) ∧
     (1 ≤ w.1 → exec (.regRead t false reg len) s = .next (done u)))

/-- 43_register_bus.md R186 (decision D22, conflict C8): one write of the register address, unless left out, and the data;
it fails unless every byte issued was accepted. -/
def Obligations.RegWriteEffect : Prop :=
  ∀ (s : State) (t : BitVec 7) (noAddr : Bool) (reg : Byte) (len : BitVec 16) (data : List Byte),
    TwowireReady s → RegisterUnit s → s.i2cHandle[t.toFin] = true → len ≠ 0 → data.length = len.toNat →
    len.toNat ≤ s.board.data.maxLen →
    let buf := if noAddr then data else reg :: data
    let w := s.env.askI2cWrite buf.length
    exec (.regWrite t noAddr reg len data) s =
      .next (answered (if w.1 < (buf.length : Int) then .error .writeFailed else .ok .unit)
        { s with env := w.2, trace := s.trace ++ [.i2cWrite t buf w.1] })

/-! ## Refusals -/

/-- 93_implementation_defined.md U3 to U6 and 00_scope.md R9: what the model refuses of operations whose role lines are
resolved. A requester with an operation in flight; the bus operations on a closed bus, `select_channel` with a live code
among them; `open` on an open one or with a profile out of range; a handle never opened; a length of 0, above `MAX_LEN`,
or not the buffer's. The order of these checks is the model's (assumption 17). -/
def Obligations.ContractRefusals : Prop :=
  ∀ s : State,
    (∀ i, busy s.cur s = true → exec i s = .refused .requesterBusy) ∧
    (∀ i, SerialReady s → RolesResolved s i → s.spiOpen = false → i.wellFormed = true →
      fitsBoard s.board i = true → needsBus s i = true → exec i s = .refused .busClosed) ∧
    (∀ loc e, BothReady s → RegisterUnit s → AddressingUnit s → s.spiOpen = false → s.extAddr.isSome = true →
      e.toNat / 4 ≠ 0 → e.toNat % 4 ≠ 0 → exec (.regSelect loc true e) s = .refused .busClosed) ∧
    (∀ path mode word speed, SerialReady s → SerialUnit s → s.spiOpen = true → word ≠ 0 → speed ≠ 0 →
      exec (.serialOpen path mode word speed) s = .refused .busAlreadyOpen) ∧
    (∀ path mode word speed, busy s.cur s = false → SerialUnit s → word = 0 ∨ speed = 0 →
      exec (.serialOpen path mode word speed) s = .refused .profileOutOfRange) ∧
    (∀ t n reg len data, TwowireReady s → RegisterUnit s → s.i2cHandle[t.toFin] = false → len ≠ 0 →
      len.toNat ≤ s.board.data.maxLen → data.length = len.toNat →
      exec (.regRead t n reg len) s = .refused .handleNotOpen ∧
      exec (.regWrite t n reg len data) s = .refused .handleNotOpen) ∧
    (∀ i len n, busy s.cur s = false → RolesResolved s i → lengthOperand i = some (len, n) →
      len = 0 ∨ s.board.data.maxLen < len.toNat ∨ n ≠ len.toNat → exec i s = .refused .badLength)

/-- 40_gpio.md R127, R128 (U7, U8): an operation on a line no `resolve` returned is refused, and so is a second single-wire
read on a line; no operation of the serial bus, the addressing unit or the register bus runs while a role line of its
unit, or of a unit it calls, is not resolved. Which lines each operation needs is read from "the unit that needs the
line" (assumption 14). -/
def Obligations.UnresolvedLinesRefused : Prop :=
  ∀ (s : State) (l : Line) (k : SensorKind), busy s.cur s = false →
    (s.resolved.contains l = false →
      exec (.gpioSetOutput l) s = .refused .lineNotResolved ∧
      exec (.gpioSetInput l) s = .refused .lineNotResolved ∧
      exec (.gpioSetHigh l) s = .refused .lineNotResolved ∧
      exec (.gpioSetLow l) s = .refused .lineNotResolved ∧
      exec (.gpioRead l) s = .refused .lineNotResolved ∧
      (lineBusy l s = false → exec (.wireRead k l) s = .refused .lineNotResolved)) ∧
    (lineBusy l s = true → exec (.wireRead k l) s = .refused .lineInUse) ∧
    (∀ i r, r ∈ neededRoles i → s.resolved.contains (s.board.roleLine r) = false →
      exec i s = .refused .lineNotResolved)

/-! ## DHT unit -/

/-- 44_single_wire.md R205 (decision D26): on an input line, `n` polls that see the level and one that does not give the
count `n`, for every `n` up to 32000, with one sample each; 32001 polls that see the level are a `Timeout`. -/
def Obligations.MeasureCounts : Prop :=
  ∀ (s : State) (j : Job) (l : Line) (level : Bool) (dest : CountDest) (ws rest : List Word) (w : Word),
    LineReady s l → lineBit s.oe[l.bank] l = true → j.dht.count = 0 →
    (∀ v ∈ ws, lineBit v l = level) →
    (ws.length ≤ 32000 → lineBit w l = !level → s.env.pads = ws ++ w :: rest →
      ∃ t, settle 32000 (.poll (.line l) level dest) j s =
          .go { j with dht := { j.dht with count := ws.length }.store dest } t ∧
        t.env.pads = rest ∧
        t.trace = s.trace ++ (List.replicate ws.length (.gpioSample l level) ++ [.gpioSample l (!level)])) ∧
    (ws.length = 32001 → s.env.pads = ws ++ rest →
      ∃ t, settle 32000 (.poll (.line l) level dest) j s =
          .stop { j with dht := { j.dht with count := 32001 }, result := .error .timeout } t ∧
        t.env.pads = rest ∧ t.trace = s.trace ++ List.replicate 32001 (.gpioSample l level))

/-- 44_single_wire.md R208, R209 (decisions D27, D28): bit `7 - j` of byte `k` is 1 exactly when the high count of pair
`8k + j + 1` reaches the floor of the mean of the 40 low counts after the first. -/
def Obligations.TrainBits : Prop :=
  ∀ low high : List Nat, low.length = 41 → high.length = 41 → ∀ k < 5, ∀ j < 8,
    ((packBytes (pulseBits (meanLow low) high)).getD k 0).getLsbD (7 - j) =
      decide ((low.drop 1).sum / 40 ≤ high.getD (8 * k + j + 1) 0)

/-- 44_single_wire.md R210: the frame is valid exactly when byte 4 is the sum of bytes 0 to 3 modulo 256; a mismatch raises
`ChecksumFailed` and changes nothing; the all-zero payload passes. -/
def Obligations.ChecksumRule : Prop :=
  ∀ (j : Job) (s : State) (b0 b1 b2 b3 b4 : Byte), j.dht.bytes = [b0, b1, b2, b3, b4] →
    (b4.toNat = (b0.toNat + b1.toNat + b2.toNat + b3.toNat) % 256 → micro .validate j s = .go j s) ∧
    (b4.toNat ≠ (b0.toNat + b1.toNat + b2.toNat + b3.toNat) % 256 →
      micro .validate j s = .stop { j with result := .error .checksumFailed } s) ∧
    checksumOk [0, 0, 0, 0, 0] = true

/-- 44_single_wire.md R215: flipping any single bit of a valid five-byte payload makes it invalid. -/
def Obligations.SingleBitFlipCaught : Prop :=
  ∀ (bytes : List Byte) (k j : Nat), checksumOk bytes = true → k < 5 → j < 8 →
    checksumOk (bytes.set k (bytes.getD k 0 ^^^ (1#8 <<< j))) = false

/-- 44_single_wire.md R211 to R213 (decision D29 for tenths): the integer-only variant is bytes 0 and 2 times ten; the
fractional one a 16-bit humidity and a sign-and-magnitude temperature; both fit the result's widths, and minus zero is
zero. -/
def Obligations.ClimateRepresentation : Prop :=
  ∀ b0 b1 b2 b3 b4 : Byte,
    climateOf .integerOnly [b0, b1, b2, b3, b4] = .climate (b0.toNat * 10) ((b2.toNat * 10 : Nat) : Int) ∧
    (∃ (h : Nat) (t : Int), climateOf .fractional [b0, b1, b2, b3, b4] = .climate h t ∧
      h = (b0 ++ b1).toNat ∧ h < 65536 ∧ t.natAbs = ((b2 ++ b3).setWidth 15).toNat ∧ (-32767 ≤ t ∧ t ≤ 32767) ∧
      (0 < t → b2.msb = false) ∧ (t < 0 → b2.msb = true))

/-- 44_single_wire.md R201 to R206, R214: a read on a ready line completes, whatever the line does: the wake, request and
listen events, then samples; the result is a climate, `Timeout` or `ChecksumFailed`; the line is left an input with its
latch bit 0 and nothing else of the block changes. -/
def Obligations.WireReadCompletes : Prop :=
  ∀ (s : State) (k : SensorKind) (l : Line), Idle s → LineReady s l → lineBusy l s = false →
    ∃ (r : Result) (pads driven : List Word) (draws : Nat) (levels : List Bool),
      exec (.wireRead k l) s = .next (answered r { s with
        oe := s.oe.set l.bank (s.oe[l.bank] ||| mask l)
        dataOut := setLatch l false s.dataOut
        env := { s.env with pads := pads, driven := driven, draws := draws }
        trace := s.trace ++ (wakeEvents l ++ levels.map (Event.gpioSample l)) }) ∧
      (r = .error .timeout ∨ r = .error .checksumFailed ∨ ∃ h t, r = .ok (.climate h t)) ∧
      levels ≠ [] ∧ levels.length ≤ 83 * 32001

/-- 44_single_wire.md R204 to R213, vector M4: when the line shows the levels of a pulse train, the read returns that train
decoded, having made one poll for each level. The order of the events before the polls is decision D25, the counts D26,
the mean D27, the bit order D28, the result in tenths D29. -/
def Obligations.WireReadDecodesTrain : Prop :=
  ∀ (s : State) (k : SensorKind) (l : Line) (wait : Nat) (low high : List Nat) (ws rest : List Word),
    Idle s → LineReady s l → lineBusy l s = false →
    low.length = 41 → high.length = 41 → wait ≤ 32000 → (∀ c ∈ low ++ high, c ≤ 32000) →
    s.env.pads = ws ++ rest → ws.map (fun w => lineBit w l) = trainLevels wait low high →
    ∃ t, exec (.wireRead k l) s = .next t ∧
      t.results = s.results ++ [(s.cur, decodeTrain k low high)] ∧
      t.env.pads = rest ∧
      t.trace = s.trace ++ (wakeEvents l ++ (trainLevels wait low high).map (Event.gpioSample l))

/-! ## The whole machine -/

/-- 60_exceptions.md R235: an operation that returns hands its requester one result, and an error only of a kind the table
allows it; one that waits hands none. -/
def Obligations.OnlyAllowedErrors : Prop :=
  ∀ (i : Instr) (s t : State), exec i s = .next t →
    t.results = s.results ∨
    ∃ r, t.results = s.results ++ [(s.cur, r)] ∧ ∀ e, r = .error e → mayReturn i e = true

/-- 60_exceptions.md R243, 20_memory.md R73: with both locks free, an operation that does not stop the model returns at
once, with a result, and leaves both locks free. -/
def Obligations.LocksFreeAtReturn : Prop :=
  ∀ (i : Instr) (s t : State), s.lockSerial = none → s.lockTwowire = none → exec i s = .next t →
    t.lockSerial = none ∧ t.lockTwowire = none ∧ t.inflight = s.inflight ∧
    ∃ r, t.results = s.results ++ [(s.cur, r)]

/-- 20_memory.md R73: while another requester holds its first lock, an operation within its contract goes into flight and
does nothing else. -/
def Obligations.WaitsForHeldLock : Prop :=
  ∀ (i : Instr) (s : State) (holder : Nat), busy s.cur s = false → holder ≠ s.cur →
    i.wellFormed = true → fitsBoard s.board i = true → RolesResolved s i →
    (firstLock i = .serial ∧ s.lockSerial = some holder ∨ firstLock i = .twowire ∧ s.lockTwowire = some holder) →
    ∃ j : Job, exec i s = .next { s with inflight := s.inflight ++ [j] } ∧
      j.who = s.cur ∧ j.instr = i ∧ j.todo ≠ [] ∧ j.saved = none

/-- Which operation writes which state: `OE` only the direction operations and `single_wire.read`; the window flags and
the returned lines only `resolve`; `addr.ext_addr` only `set_extension_address` (10_state.md R30); `i2c.handle` only
`open_channel_handle` (R32); the latches stay as they are in every operation that drives no line's level. -/
def Obligations.WrittenOnlyBy : Prop :=
  ∀ (i : Instr) (s t : State), exec i s = .next t →
    (t.oe ≠ s.oe → (∃ l, i = .gpioSetOutput l ∨ i = .gpioSetInput l) ∨ ∃ k l, i = .wireRead k l) ∧
    (t.winMapped ≠ s.winMapped ∨ t.resolved ≠ s.resolved → ∃ id, i = .gpioResolve id) ∧
    (t.extAddr ≠ s.extAddr → ∃ a, i = .addrSetExt a) ∧
    (t.i2cHandle ≠ s.i2cHandle → ∃ a, i = .regOpenHandle a) ∧
    ((∃ id, i = .gpioResolve id) ∨ (∃ l, i = .gpioSetOutput l ∨ i = .gpioSetInput l ∨ i = .gpioRead l) ∨
      (∃ path mode word speed, i = .serialOpen path mode word speed) ∨ i = .serialClose ∨
      (∃ len tx, i = .serialTransfer len tx) ∨ (∃ a, i = .addrSetExt a) ∨
      (firstLock i = .twowire ∧ ∀ loc p e, i ≠ .regSelect loc p e) → t.dataOut = s.dataOut) ∧
    t.board = s.board ∧ t.cur = s.cur ∧ t.inputs = s.inputs

/-- The invariant holds at reset. -/
def Obligations.InvariantAtReset : Prop := Inv State.reset

/-- Every step keeps the invariant: one operation in flight for each requester, locks held only by those, every critical
section whole with its saved profile the primary one, never a third profile active on an open bus (10_state.md R28,
R35, R36, 41_serial_bus.md R147), every line returned in a mapped window (R27), counts within their bound (R34). -/
def Obligations.InvariantKept : Prop :=
  ∀ s t : State, Inv s → step s = .next t → Inv t

/-- 10_state.md R26, R32, 70_reset_and_hazards.md R270: no step undoes a window, a handle, the extension address or a
returned line, changes the board, or takes back an event or a result. -/
def Obligations.NothingIsUndone : Prop :=
  ∀ s t : State, step s = .next t →
    (∀ b : Fin 4, s.winMapped[b] = true → t.winMapped[b] = true) ∧
    (∀ a : BitVec 7, s.i2cHandle[a.toFin] = true → t.i2cHandle[a.toFin] = true) ∧
    (s.extAddr.isSome = true → t.extAddr.isSome = true) ∧
    (∀ l, s.resolved.contains l = true → t.resolved.contains l = true) ∧
    t.board = s.board ∧ (∃ es, t.trace = s.trace ++ es) ∧ (∃ rs, t.results = s.results ++ rs)

/-- 20_memory.md R77: a window is mapped at most once and a handle opened at most once in any trace, however the
requesters interleave. -/
def Obligations.CreatedOnce : Prop :=
  Once State.reset ∧ ∀ s t : State, Once s → step s = .next t → Once t

/-- 20_memory.md R70, R71: an operation run whole is one of its interleavings: the same command started and run one step
at a time, with no other requester between, comes to the same state. -/
def Obligations.GrainsRefineWhole : Prop :=
  ∀ (s t : State) (who : Nat) (f : Format) (bytes : List Byte),
    runInputs [.issue who f bytes] s = .next t →
    ∃ n, runInputs (.start who f bytes :: List.replicate n (.grain who)) s = .next t

/-- 70_reset_and_hazards.md R274 (the sequence and the premise are decision D8): from any state with a closed bus, and so
from reset, the boot operations run where the environment grants what they ask, each returns a value, and they reach
"boot done" with the local selector at the channel chosen; and every operation but `close` and those on a role line
(U20's premise) keeps it, whatever fails in it. -/
def Obligations.BootReachedAndKept : Prop :=
  (∀ (s : State) (channel : BitVec 2) (path : List Byte) (p : Profile) (opens maps spis : List Bool),
    SerialReady s → s.spiOpen = false → p.word ≠ 0 → p.speed ≠ 0 →
    s.env.openMem = [true, true, true, true] ++ opens → s.env.map = [true, true, true, true] ++ maps →
    s.env.spiOpen = true :: spis →
    ∃ (t : State) (rs : List (Nat × Result)),
      execAll (bootOperations s.board channel path p) s = .next t ∧ BootDone t ∧
      t.results = s.results ++ rs ∧ rs.length = 13 ∧ (∀ r ∈ rs, r.1 = s.cur ∧ ∃ v, r.2 = .ok v) ∧
      localSelector t = channel ∧ t.spiActive = p) ∧
  (∀ (i : Instr) (s t : State), BootDone s → i ≠ .serialClose →
    (∀ l r, lineOperand i = some l → l ≠ s.board.roleLine r) → exec i s = .next t → BootDone t)

end
end

