-- ==== Sys2Proof/Laws/State.lean ====
section
/-! SUPPORT. One lemma per field for each operation that updates State: what it leaves as it was, and what it writes; and the
bytes a transfer sends. -/

namespace Sys2Proof.Machine

@[simp] theorem payloadBytes_bytes (bd : Board) (bs : List Byte) : payloadBytes bd (.bytes bs) = bs := rfl
@[simp] theorem payloadBytes_selector (bd : Board) (ext : BitVec 4) :
    payloadBytes bd (.selector ext) = [extSelEncode bd ext] := rfl
@[simp] theorem payloadBytes_fill (bd : Board) : payloadBytes bd .fill = [bd.data.rawFill] := rfl

/-- The selector byte of a board that takes the listed value (30_encoding.md R100). -/
theorem extSelEncode_listed {bd : Board} (h : bd.Listed) (ext : BitVec 4) : extSelEncode bd ext = ext.setWidth 8 := by
  have key : ∀ ext : BitVec 4, Config.extSelDefault[ext.toFin] = ext.setWidth 8 := by decide
  simpa only [extSelEncode, h.1] using key ext


@[simp] theorem emit_oe (e : Event) (s : State) : (emit e s).oe = s.oe := rfl
@[simp] theorem emit_dataOut (e : Event) (s : State) : (emit e s).dataOut = s.dataOut := rfl
@[simp] theorem emit_winMapped (e : Event) (s : State) : (emit e s).winMapped = s.winMapped := rfl
@[simp] theorem emit_spiOpen (e : Event) (s : State) : (emit e s).spiOpen = s.spiOpen := rfl
@[simp] theorem emit_spiPrimary (e : Event) (s : State) : (emit e s).spiPrimary = s.spiPrimary := rfl
@[simp] theorem emit_spiActive (e : Event) (s : State) : (emit e s).spiActive = s.spiActive := rfl
@[simp] theorem emit_extAddr (e : Event) (s : State) : (emit e s).extAddr = s.extAddr := rfl
@[simp] theorem emit_i2cHandle (e : Event) (s : State) : (emit e s).i2cHandle = s.i2cHandle := rfl
@[simp] theorem emit_lockSerial (e : Event) (s : State) : (emit e s).lockSerial = s.lockSerial := rfl
@[simp] theorem emit_lockTwowire (e : Event) (s : State) : (emit e s).lockTwowire = s.lockTwowire := rfl
@[simp] theorem emit_inflight (e : Event) (s : State) : (emit e s).inflight = s.inflight := rfl
@[simp] theorem emit_board (e : Event) (s : State) : (emit e s).board = s.board := rfl
@[simp] theorem emit_resolved (e : Event) (s : State) : (emit e s).resolved = s.resolved := rfl
@[simp] theorem emit_cur (e : Event) (s : State) : (emit e s).cur = s.cur := rfl
@[simp] theorem emit_inputs (e : Event) (s : State) : (emit e s).inputs = s.inputs := rfl
@[simp] theorem emit_env (e : Event) (s : State) : (emit e s).env = s.env := rfl
@[simp] theorem emit_trace (e : Event) (s : State) : (emit e s).trace = s.trace ++ [e] := rfl
@[simp] theorem emit_results (e : Event) (s : State) : (emit e s).results = s.results := rfl

@[simp] theorem finish_oe (j : Job) (s : State) : (finish j s).oe = s.oe := rfl
@[simp] theorem finish_dataOut (j : Job) (s : State) : (finish j s).dataOut = s.dataOut := rfl
@[simp] theorem finish_winMapped (j : Job) (s : State) : (finish j s).winMapped = s.winMapped := rfl
@[simp] theorem finish_spiOpen (j : Job) (s : State) : (finish j s).spiOpen = s.spiOpen := rfl
@[simp] theorem finish_spiPrimary (j : Job) (s : State) : (finish j s).spiPrimary = s.spiPrimary := rfl
@[simp] theorem finish_spiActive (j : Job) (s : State) : (finish j s).spiActive = s.spiActive := rfl
@[simp] theorem finish_extAddr (j : Job) (s : State) : (finish j s).extAddr = s.extAddr := rfl
@[simp] theorem finish_i2cHandle (j : Job) (s : State) : (finish j s).i2cHandle = s.i2cHandle := rfl
@[simp] theorem finish_lockSerial (j : Job) (s : State) : (finish j s).lockSerial = unlock j.who s.lockSerial := rfl
@[simp] theorem finish_lockTwowire (j : Job) (s : State) : (finish j s).lockTwowire = unlock j.who s.lockTwowire := rfl
@[simp] theorem finish_inflight (j : Job) (s : State) : (finish j s).inflight = s.inflight := rfl
@[simp] theorem finish_board (j : Job) (s : State) : (finish j s).board = s.board := rfl
@[simp] theorem finish_resolved (j : Job) (s : State) : (finish j s).resolved = s.resolved := rfl
@[simp] theorem finish_cur (j : Job) (s : State) : (finish j s).cur = s.cur := rfl
@[simp] theorem finish_inputs (j : Job) (s : State) : (finish j s).inputs = s.inputs := rfl
@[simp] theorem finish_env (j : Job) (s : State) : (finish j s).env = s.env := rfl
@[simp] theorem finish_trace (j : Job) (s : State) : (finish j s).trace = s.trace := rfl
@[simp] theorem finish_results (j : Job) (s : State) : (finish j s).results = s.results ++ [(j.who, j.result)] := rfl

@[simp] theorem park_oe (j : Job) (ms : List Micro) (s : State) : (park j ms s).oe = s.oe := rfl
@[simp] theorem park_dataOut (j : Job) (ms : List Micro) (s : State) : (park j ms s).dataOut = s.dataOut := rfl
@[simp] theorem park_winMapped (j : Job) (ms : List Micro) (s : State) : (park j ms s).winMapped = s.winMapped := rfl
@[simp] theorem park_spiOpen (j : Job) (ms : List Micro) (s : State) : (park j ms s).spiOpen = s.spiOpen := rfl
@[simp] theorem park_spiPrimary (j : Job) (ms : List Micro) (s : State) : (park j ms s).spiPrimary = s.spiPrimary := rfl
@[simp] theorem park_spiActive (j : Job) (ms : List Micro) (s : State) : (park j ms s).spiActive = s.spiActive := rfl
@[simp] theorem park_extAddr (j : Job) (ms : List Micro) (s : State) : (park j ms s).extAddr = s.extAddr := rfl
@[simp] theorem park_i2cHandle (j : Job) (ms : List Micro) (s : State) : (park j ms s).i2cHandle = s.i2cHandle := rfl
@[simp] theorem park_lockSerial (j : Job) (ms : List Micro) (s : State) : (park j ms s).lockSerial = s.lockSerial := rfl
@[simp] theorem park_lockTwowire (j : Job) (ms : List Micro) (s : State) : (park j ms s).lockTwowire = s.lockTwowire := rfl
@[simp] theorem park_inflight (j : Job) (ms : List Micro) (s : State) : (park j ms s).inflight = s.inflight ++ [{ j with todo := ms }] := rfl
@[simp] theorem park_board (j : Job) (ms : List Micro) (s : State) : (park j ms s).board = s.board := rfl
@[simp] theorem park_resolved (j : Job) (ms : List Micro) (s : State) : (park j ms s).resolved = s.resolved := rfl
@[simp] theorem park_cur (j : Job) (ms : List Micro) (s : State) : (park j ms s).cur = s.cur := rfl
@[simp] theorem park_inputs (j : Job) (ms : List Micro) (s : State) : (park j ms s).inputs = s.inputs := rfl
@[simp] theorem park_env (j : Job) (ms : List Micro) (s : State) : (park j ms s).env = s.env := rfl
@[simp] theorem park_trace (j : Job) (ms : List Micro) (s : State) : (park j ms s).trace = s.trace := rfl
@[simp] theorem park_results (j : Job) (ms : List Micro) (s : State) : (park j ms s).results = s.results := rfl

@[simp] theorem forgetProfiles_oe (s : State) : (forgetProfiles s).oe = s.oe := rfl
@[simp] theorem forgetProfiles_dataOut (s : State) : (forgetProfiles s).dataOut = s.dataOut := rfl
@[simp] theorem forgetProfiles_winMapped (s : State) : (forgetProfiles s).winMapped = s.winMapped := rfl
@[simp] theorem forgetProfiles_spiOpen (s : State) : (forgetProfiles s).spiOpen = s.spiOpen := rfl
@[simp] theorem forgetProfiles_extAddr (s : State) : (forgetProfiles s).extAddr = s.extAddr := rfl
@[simp] theorem forgetProfiles_i2cHandle (s : State) : (forgetProfiles s).i2cHandle = s.i2cHandle := rfl
@[simp] theorem forgetProfiles_lockSerial (s : State) : (forgetProfiles s).lockSerial = s.lockSerial := rfl
@[simp] theorem forgetProfiles_lockTwowire (s : State) : (forgetProfiles s).lockTwowire = s.lockTwowire := rfl
@[simp] theorem forgetProfiles_inflight (s : State) : (forgetProfiles s).inflight = s.inflight := rfl
@[simp] theorem forgetProfiles_board (s : State) : (forgetProfiles s).board = s.board := rfl
@[simp] theorem forgetProfiles_resolved (s : State) : (forgetProfiles s).resolved = s.resolved := rfl
@[simp] theorem forgetProfiles_cur (s : State) : (forgetProfiles s).cur = s.cur := rfl
@[simp] theorem forgetProfiles_inputs (s : State) : (forgetProfiles s).inputs = s.inputs := rfl
@[simp] theorem forgetProfiles_trace (s : State) : (forgetProfiles s).trace = s.trace := rfl
@[simp] theorem forgetProfiles_results (s : State) : (forgetProfiles s).results = s.results := rfl

end Sys2Proof.Machine
end

