-- ==== Sys2Proof/Laws/Windows.lean ====
section
/-! SUPPORT. The register windows: the twenty registers have distinct aligned addresses on every lawful board, and what one
access does at each of them. -/

namespace Sys2Proof

/-! ## A lawful board -/

theorem Board.base_aligned (bd : Board) (b : Fin 4) : bd.data.base[b] % 4096 = 0 := bd.lawful.1.1 b

theorem Board.base_inj (bd : Board) {b b' : Fin 4} (h : bd.data.base[b] = bd.data.base[b']) : b = b' := by
  have hn := bd.lawful.1.2
  have := (List.nodup_iff_injective_getElem.1 hn) (a₁ := ⟨b.1, by simp⟩) (a₂ := ⟨b'.1, by simp⟩) (by simpa using h)
  exact Fin.ext (by simpa using this)

theorem Board.offset_lawful (bd : Board) (r : Reg) : bd.data.offset r % 4 = 0 ∧ bd.data.offset r < 4096 := by
  have h := bd.lawful.2.1.1
  cases r <;> exact h _ (by simp [BoardData.offset])

theorem Board.offset_inj (bd : Board) {r r' : Reg} (h : bd.data.offset r = bd.data.offset r') : r = r' := by
  have hn := bd.lawful.2.1.2
  simp only [List.nodup_cons, List.mem_cons, List.not_mem_nil, not_or, or_false] at hn
  cases r <;> cases r' <;> first | rfl | (simp only [BoardData.offset] at h; omega)

theorem Board.addr_aligned (bd : Board) (b : Fin 4) (r : Reg) : bd.addr b r % 4 = 0 := by
  have := bd.base_aligned b
  have := bd.offset_lawful r
  unfold Board.addr
  omega

/-- The pin table has the pin of every role. -/
theorem Board.roleLine_some (bd : Board) (r : Role) : bd.data.pin (bd.data.rolePin r) = some (bd.roleLine r) := by
  have h := bd.lawful.2.2.1.1
  have : (bd.data.pin (bd.data.rolePin r)).isSome = true := by
    cases r <;> exact h _ (by simp [BoardData.roleLines, BoardData.rolePin])
  unfold Board.roleLine
  cases hp : bd.data.pin (bd.data.rolePin r) with
  | none => simp [hp] at this
  | some l => rfl

/-- The four role lines are four lines (decision D10). -/
theorem Board.roleLine_inj (bd : Board) {r r' : Role} (h : bd.roleLine r = bd.roleLine r') : r = r' := by
  have hn := bd.lawful.2.2.1.2
  have h1 := bd.roleLine_some r
  have h2 := bd.roleLine_some r'
  rw [← h, ← h1] at h2
  simp only [BoardData.roleLines, List.nodup_cons, List.mem_cons, List.not_mem_nil, not_or, or_false] at hn
  cases r <;> cases r' <;> simp only [BoardData.rolePin] at h2 <;> first | rfl | (exfalso; simp_all)
/-- The twenty registers have twenty addresses (20_memory.md R62). -/
theorem Board.addr_inj (bd : Board) {b b' : Fin 4} {r r' : Reg} (h : bd.addr b r = bd.addr b' r') : b = b' ∧ r = r' := by
  have h1 := bd.base_aligned b
  have h2 := bd.base_aligned b'
  have h3 := (bd.offset_lawful r).2
  have h4 := (bd.offset_lawful r').2
  unfold Board.addr at h
  have hb : bd.data.base[b] = bd.data.base[b'] := by omega
  exact ⟨bd.base_inj hb, bd.offset_inj (by omega)⟩

end Sys2Proof

namespace Sys2Proof.Machine

/-! ## Registers by address -/

theorem mem_allRegisters (b : Fin 4) (r : Reg) : (b, r) ∈ allRegisters := by
  revert b
  cases r <;> decide

theorem registerAt_addr (bd : Board) (b : Fin 4) (r : Reg) : registerAt bd (bd.addr b r) = some (b, r) := by
  unfold registerAt
  cases h : allRegisters.find? (fun p => bd.addr p.1 p.2 == bd.addr b r) with
  | none =>
    have := List.find?_eq_none.1 h (b, r) (mem_allRegisters b r)
    simp at this
  | some p =>
    have hp := List.find?_some h
    have := bd.addr_inj (by simpa using hp)
    rw [← this.1, ← this.2]

theorem registerAt_none (bd : Board) (a : Nat) (h : ∀ b r, bd.addr b r ≠ a) : registerAt bd a = none := by
  unfold registerAt
  rw [List.find?_eq_none]
  rintro ⟨b, r⟩ -
  simpa using h b r

theorem registerAt_some {bd : Board} {a : Nat} {b : Fin 4} {r : Reg} (h : registerAt bd a = some (b, r)) :
    bd.addr b r = a := by
  have := List.find?_some h
  simpa using this

/-- An access at a register's address reaches that register if its window is mapped. -/
theorem access_addr (s : State) (b : Fin 4) (r : Reg) :
    access (s.board.addr b r) 4 s = if s.winMapped[b] then .ok (b, r) else .error .windowUnmapped := by
  unfold access
  simp [registerAt_addr, s.board.addr_aligned b r]

variable {s : State} {b : Fin 4}

theorem memRead_oe (h : s.winMapped[b] = true) : memRead (s.board.addr b .oe) 4 s = .ok (s.oe[b], s) := by
  simp [memRead, access_addr, h]

theorem memRead_dataIn (h : s.winMapped[b] = true) : memRead (s.board.addr b .dataIn) 4 s = .ok (dataIn b s) := by
  simp [memRead, access_addr, h]

theorem memWrite_oe (h : s.winMapped[b] = true) (v : Word) :
    memWrite (s.board.addr b .oe) 4 v s = .ok { s with oe := s.oe.set b v } := by
  simp [memWrite, access_addr, h]

theorem memWrite_set (h : s.winMapped[b] = true) (v : Word) :
    memWrite (s.board.addr b .setDataOut) 4 v s = .ok { s with dataOut := s.dataOut.set b (s.dataOut[b] ||| v) } := by
  simp [memWrite, access_addr, h]

theorem memWrite_clear (h : s.winMapped[b] = true) (v : Word) :
    memWrite (s.board.addr b .clearDataOut) 4 v s =
      .ok { s with dataOut := s.dataOut.set b (s.dataOut[b] &&& ~~~ v) } := by
  simp [memWrite, access_addr, h]

/-! ## The byte view -/

/-- The byte view reads the stored registers only. -/
theorem storedByte_congr {s t : State} {a : Nat} (hb : t.board = s.board)
    (ho : ∀ b, registerAt s.board (a - a % 4) = some (b, .oe) → t.oe[b] = s.oe[b])
    (hd : ∀ b, registerAt s.board (a - a % 4) = some (b, .dataOut) → t.dataOut[b] = s.dataOut[b]) :
    storedByte t a = storedByte s a := by
  unfold storedByte
  rw [hb]
  cases h : registerAt s.board (a - a % 4) with
  | none => rfl
  | some p =>
    obtain ⟨b, r⟩ := p
    cases r
    · simp [ho b h]
    · rfl
    · simp [hd b h]
    · rfl
    · rfl

theorem storedByte_at (s : State) (b : Fin 4) (r : Reg) (k : Nat) (hk : k < 4) :
    storedByte s (s.board.addr b r + k) =
      match r with
      | .oe => some (registerByte s.oe[b] k)
      | .dataOut => some (registerByte s.dataOut[b] k)
      | .dataIn => none
      | .clearDataOut => none
      | .setDataOut => none := by
  have h := s.board.addr_aligned b r
  have h1 : (s.board.addr b r + k) % 4 = k := by omega
  unfold storedByte
  rw [h1, Nat.add_sub_cancel, registerAt_addr]
  cases r <;> rfl

end Sys2Proof.Machine
end

