-- ==== Sys2Proof/Laws/Steps.lean ====
section
/-! SUPPORT. What each step that touches a line does, and how a step list is run: one lemma for each outcome of its first
step. -/

namespace Sys2Proof.Machine

/-! ## Lines -/

theorem lineOf_line {s : State} {l : Line} (h : s.resolved.contains l = true) : lineOf s (.line l) = .ok l := by
  simp only [lineOf, h, if_true]

theorem lineOf_role {s : State} {r : Role} (h : s.resolved.contains (s.board.roleLine r) = true) :
    lineOf s (.role r) = .ok (s.board.roleLine r) := by
  simp only [lineOf, h, if_true]

section
variable {s : State} {ref : LineRef} {l : Line} {j : Job}

theorem stepOeRead_ready (hl : lineOf s ref = .ok l) (hw : s.winMapped[l.bank] = true) :
    stepOeRead ref j s = .go { j with oeWord := s.oe[l.bank] } s := by
  simp only [stepOeRead, hl, memRead_oe hw]

theorem stepOeWrite_ready (hl : lineOf s ref = .ok l) (hw : s.winMapped[l.bank] = true) (d : Dir) :
    stepOeWrite ref d j s =
      .go j (emit (.gpioDir l d) { s with oe := s.oe.set l.bank (withDir j.oeWord l d) }) := by
  simp only [stepOeWrite, hl, memWrite_oe hw]

/-- A level step sets or clears one latch bit (40_gpio.md R124, R125). -/
theorem stepLevel_ready (hl : lineOf s ref = .ok l) (hw : s.winMapped[l.bank] = true) (v : Bool) :
    stepLevel ref v j s = .go j (emit (.gpioLevel l v) { s with dataOut := setLatch l v s.dataOut }) := by
  cases v
  · simp only [stepLevel, hl, portOf, memWrite_clear hw, setLatch, Bool.false_eq_true, if_false]
  · simp only [stepLevel, hl, portOf, memWrite_set hw, setLatch, if_true]

/-- The bit a read of `DATAIN` shows for a line (10_state.md R22). -/
def sampledBit (s : State) (l : Line) : Bool :=
  if lineBit s.oe[l.bank] l then lineBit s.env.askPads.1 l else lineBit s.env.askPads.2.askDriven.1 l

theorem lineBit_dataInWord (oe p d : Word) (l : Line) :
    lineBit (dataInWord oe p d) l = if lineBit oe l then lineBit p l else lineBit d l := by
  have hl := l.bit.isLt
  simp only [lineBit, dataInWord, BitVec.getLsbD_or, BitVec.getLsbD_and, BitVec.getLsbD_not, hl, decide_true,
    Bool.true_and]
  rcases Bool.eq_false_or_eq_true (oe.getLsbD l.bit.val) with h | h <;>
    simp only [h, Bool.and_true, Bool.and_false, Bool.not_true, Bool.not_false, Bool.or_false, Bool.false_or, if_true,
      Bool.false_eq_true, if_false]

theorem sampleLine_ready (hl : lineOf s ref = .ok l) (hw : s.winMapped[l.bank] = true) :
    sampleLine ref s =
      .ok (sampledBit s l, emit (.gpioSample l (sampledBit s l)) { s with env := s.env.askPads.2.askDriven.2 }) := by
  simp only [sampleLine, hl, memRead_dataIn hw, dataIn, Env.askLevels, lineBit_dataInWord, sampledBit]

end

/-! ## Running a step list -/

/-- Only a poll repeats. -/
theorem micro_ne_again {m : Micro} (hm : ∀ l v d, m ≠ .poll l v d) (j j' : Job) (s s' : State) :
    micro m j s ≠ .again j' s' := by
  cases m
  case poll l v d => exact absurd rfl (hm l v d)
  all_goals
    simp only [micro, stepTakeSerial, stepTakeTwowire, stepReleaseSerial, demand, stepResolve, stepOeRead, stepOeWrite,
      stepLevel, stepSample, stepOpenBus, stepCloseBus, stepEnterSecondary, stepLeaveSecondary, stepExchange,
      stepSendFrame, stepRawWrite, stepCheckRx, stepCheckCount, stepReturnRx, stepReturnByte, stepReturnCount,
      stepCheckFrameOp, stepSetExt, stepStopIfNoExt, stepOpenHandle, stepCheckExt, stepBusWrite, stepBusRead, stepPhase,
      stepThreshold, stepPackBits, stepValidate, stepInterpret, raise, stopOk]
    repeat' split
    all_goals simp

theorem settle_eq_micro {m : Micro} {j : Job} {s : State} (h : ∀ j' s', micro m j s ≠ .again j' s') (n : Nat) :
    settle n m j s = micro m j s := by
  cases n with
  | zero => rfl
  | succ n =>
    cases hm : micro m j s with
    | again j' s' => exact absurd hm (h j' s')
    | go j' s' => simp only [settle, hm]
    | stop j' s' => simp only [settle, hm]
    | wait => simp only [settle, hm]
    | refuse r => simp only [settle, hm]

theorem runCode_nil (j : Job) (s : State) : runCode [] j s = .next (finish j s) := rfl

section
variable {m : Micro} {ms : List Micro} {j j' : Job} {s s' : State}

theorem runCode_go (h : micro m j s = .go j' s') : runCode (m :: ms) j s = runCode ms j' s' := by
  simp only [runCode, settle_eq_micro (m := m) (j := j) (s := s) (by simp [h]), h]

theorem runCode_stop (h : micro m j s = .stop j' s') : runCode (m :: ms) j s = .next (finish j' s') := by
  simp only [runCode, settle_eq_micro (m := m) (j := j) (s := s) (by simp [h]), h]

theorem runCode_wait (h : micro m j s = .wait) : runCode (m :: ms) j s = .next (park j (m :: ms) s) := by
  simp only [runCode, settle_eq_micro (m := m) (j := j) (s := s) (by simp [h]), h]

theorem runCode_refuse {r : Refusal} (h : micro m j s = .refuse r) : runCode (m :: ms) j s = .refused r := by
  simp only [runCode, settle_eq_micro (m := m) (j := j) (s := s) (by simp [h]), h]

end

/-- A step list that is not a poll at its head, unfolded once. -/
theorem runCode_cons {m : Micro} (hm : ∀ l v d, m ≠ .poll l v d) (ms : List Micro) (j : Job) (s : State) :
    runCode (m :: ms) j s =
      match micro m j s with
      | .go j s => runCode ms j s
      | .again j s => .next (park j (m :: ms) s)
      | .stop j s => .next (finish j s)
      | .wait => .next (park j (m :: ms) s)
      | .refuse r => .refused r := by
  simp only [runCode, settle_eq_micro (micro_ne_again hm j · s ·)] <;> rfl

end Sys2Proof.Machine
end

