-- ==== Sys2Proof/Laws/Blocks.lean ====
section
/-! SUPPORT. What the recurring parts of step lists do as a whole: the strobed exchange, the module write, the module read, the
direction updates. Each lemma says all that the part does, and the meanings of the operations are put together from
them. -/

namespace Sys2Proof.Machine

theorem setLatch_low_high (l : Line) (d : Vector Word 4) : setLatch l true (setLatch l false d) = setLatch l true d := by
  unfold setLatch
  simp only [Bool.false_eq_true, if_false, if_true, Fin.getElem_fin, Vector.getElem_set_self, Vector.set_set]
  congr 1
  ext i
  simp
  grind

theorem setLatch_again (l : Line) (v : Bool) (d : Vector Word 4) : setLatch l v (setLatch l v d) = setLatch l v d := by
  unfold setLatch
  cases v <;>
    simp only [Bool.false_eq_true, if_false, if_true, Fin.getElem_fin, Vector.getElem_set_self, Vector.set_set] <;>
    congr 1 <;> ext i <;> simp

theorem setLatch_high_low (l : Line) (d : Vector Word 4) : setLatch l false (setLatch l true d) = setLatch l false d := by
  unfold setLatch
  simp only [Bool.false_eq_true, if_false, if_true, Fin.getElem_fin, Vector.getElem_set_self, Vector.set_set]
  congr 1
  ext i
  simp
  grind

/-- The state after a transfer under the secondary profile (41_serial_bus.md R146). -/
def strobed (tx : List Byte) (s : State) : State :=
  { s with
    dataOut := strobeHigh s
    env := (s.env.askExchange tx.length).2
    trace := s.trace ++ strobedEvents s tx (s.env.askExchange tx.length).1 }

theorem frameSent_eq_strobed (a : BitVec 4) (op : BitVec 3) (s : State) :
    frameSent a op s = strobed [addressFrame a op] s := rfl

section
variable {s : State} {j : Job} {rest : List Micro}

theorem stepLevel_role {r : Role} (h : s.resolved.contains (s.board.roleLine r) = true)
    (hw : s.winMapped[(s.board.roleLine r).bank] = true) (v : Bool) :
    stepLevel (.role r) v j s =
      .go j (emit (.gpioLevel (s.board.roleLine r) v) { s with dataOut := setLatch (s.board.roleLine r) v s.dataOut }) :=
  stepLevel_ready (lineOf_role h) hw v

theorem stepLevel_line {l : Line} (h : s.resolved.contains l = true) (hw : s.winMapped[l.bank] = true) (v : Bool) :
    stepLevel (.line l) v j s = .go j (emit (.gpioLevel l v) { s with dataOut := setLatch l v s.dataOut }) :=
  stepLevel_ready (lineOf_line h) hw v

/-- A transfer under the secondary profile: strobe and profile are put back, and only then is a failure reported (R146,
decision D13). -/
theorem runCode_secondary (tx : List Byte) (ho : s.spiOpen = true) (hr : RoleReady s .ds) :
    runCode (secondarySteps (.exchange (.bytes tx)) ++ rest) j s =
      match (s.env.askExchange tx.length).1 with
      | none => .next (finish { j with saved := none, rx := none, result := .error .transferFailed } (strobed tx s))
      | some rx => runCode rest { j with saved := none, rx := some rx } (strobed tx s) := by
  obtain ⟨h1, h2⟩ := hr
  cases hx : (s.env.askExchange tx.length).1 <;> cases hd : differsFromSecondary s.spiActive <;>
  simp only [secondarySteps, List.cons_append, List.nil_append, runCode_cons, ne_eq, not_false_eq_true, implies_true,
    reduceCtorEq, micro, demand, ho, if_true, stepEnterSecondary, hd, Bool.false_eq_true, if_false,
    stepLevel_role, h1, h2, emit, payloadBytes, stepExchange, stepLeaveSecondary, stepCheckRx, hx, raise, strobed, strobeHigh,
    strobedEvents, sectionEvents, sectionProfile, setLatch_low_high, List.append_assoc]

/-- The transmission of one address frame, as an exchange of its byte (R161). -/
theorem runCode_frame {ref : AddrRef} {a : BitVec 4} (op : BitVec 3) (ha : addrOf s ref = some a)
    (ho : s.spiOpen = true) (hr : RoleReady s .ds) :
    runCode (frameSteps ref op ++ rest) j s =
      match (s.env.askExchange 1).1 with
      | none => .next (finish { j with saved := none, rx := none, result := .error .transferFailed } (frameSent a op s))
      | some rx => runCode rest { j with saved := none, rx := some rx } (frameSent a op s) := by
  obtain ⟨h1, h2⟩ := hr
  cases hx : (s.env.askExchange 1).1 <;> cases hd : differsFromSecondary s.spiActive <;>
  cases ref <;> simp only [addrOf, Option.some.injEq] at ha <;>
  simp only [frameSteps, secondarySteps, List.cons_append, List.nil_append, runCode_cons, ne_eq, not_false_eq_true,
    implies_true, reduceCtorEq, micro, demand, ho, if_true, stepEnterSecondary, hd, Bool.false_eq_true, if_false,
    stepLevel_role, h1, h2, emit, stepExchange, stepSendFrame, addrOf, ha, List.length_cons, List.length_nil, Nat.zero_add,
    stepLeaveSecondary, stepCheckRx, hx, raise, frameSent, strobeHigh,
    strobedEvents, sectionEvents, sectionProfile, setLatch_low_high, List.append_assoc]

/-- The frame and payload of a module write (R163). -/
theorem runCode_write {ref : AddrRef} {a : BitVec 4} {p : Payload} {data : List Byte} (hp : payloadBytes s.board p = data)
    (ha : addrOf s ref = some a) (hs : AddressingReady s) :
    runCode (writeSteps ref p ++ rest) j s =
      match (moduleWrite a data s).1 with
      | .error .transferFailed =>
        .next (finish { j with saved := none, rx := none, result := .error .transferFailed } (moduleWrite a data s).2)
      | .error e =>
        .next (finish { j with
          saved := none, rx := (s.env.askExchange 1).1, result := .error e
          count := ((frameSent a opWrite s).env.askSpiWrite data.length).1 } (moduleWrite a data s).2)
      | .ok n => runCode rest { j with saved := none, rx := (s.env.askExchange 1).1, count := n }
          (moduleWrite a data s).2 := by
  obtain ⟨ho, hd, h1, h2⟩ := hs
  unfold writeSteps
  rw [List.append_assoc, runCode_frame opWrite ha ho hd]
  cases hx : (s.env.askExchange 1).1 with
  | none => simp only [moduleWrite, hx]
  | some rx =>
    by_cases hn : ((s.env.askExchange 1).2.askSpiWrite data.length).1 < 0 <;>
    cases hdf : differsFromSecondary s.spiActive <;>
    simp only [List.cons_append, List.nil_append, runCode_cons, ne_eq, not_false_eq_true, implies_true, reduceCtorEq,
      micro, stepEnterSecondary, hdf, Bool.false_eq_true, if_false, if_true, stepLevel_role, frameSent, h1, h2, emit,
      stepRawWrite, hp, stepLeaveSecondary, stepCheckCount, Nat.cast_zero, hn, raise, moduleWrite, hx, payloadSent, setLatch_low_high,
      setLatch_again, setLatch_high_low, payloadEvents, sectionEvents, sectionProfile, List.append_assoc]

/-- A chip-select toggle (30_encoding.md R93). -/
theorem runCode_toggle (hc : RoleReady s .cs) :
    runCode ([.level (.role .cs) false, .level (.role .cs) true] ++ rest) j s = runCode rest j (toggled s) := by
  obtain ⟨h1, h2⟩ := hc
  simp only [List.cons_append, List.nil_append, runCode_cons, ne_eq, not_false_eq_true, implies_true, reduceCtorEq, micro,
    stepLevel_role, h1, h2, emit, toggled, setLatch_low_high, List.append_assoc]

/-- The raw one-byte read of a module read (R164). -/
theorem runCode_rawRead (hc : RoleReady s .cs) :
    runCode ([.enterSecondary, .level (.role .cs) false, .exchange .fill, .level (.role .cs) true,
        .leaveSecondary, .checkRx .readFailed] ++ rest) j s =
      match (s.env.askExchange 1).1 with
      | none => .next (finish { j with saved := none, rx := none, result := .error .readFailed } (rawReadDone s))
      | some rx => runCode rest { j with saved := none, rx := some rx } (rawReadDone s) := by
  obtain ⟨h1, h2⟩ := hc
  cases hx : (s.env.askExchange 1).1 <;> cases hd : differsFromSecondary s.spiActive <;>
  simp only [List.cons_append, List.nil_append, runCode_cons, ne_eq, not_false_eq_true, implies_true,
    reduceCtorEq, micro, if_true, stepEnterSecondary, hd, Bool.false_eq_true, if_false,
    stepLevel_role, h1, h2, emit, payloadBytes, stepExchange, stepLeaveSecondary, stepCheckRx, List.length_cons, List.length_nil,
    Nat.zero_add, hx, raise, rawReadDone, sectionEvents, sectionProfile, setLatch_low_high, List.append_assoc]

/-- The two local selector lines (43_register_bus.md R182). -/
theorem runCode_mux (loc : BitVec 2) (h0 : RoleReady s .mux0) (h1 : RoleReady s .mux1) :
    runCode ([.level (.role .mux0) (muxLevel loc 0), .level (.role .mux1) (muxLevel loc 1)] ++ rest) j s =
      runCode rest j (muxDriven loc s) := by
  simp only [List.cons_append, List.nil_append, runCode_cons, ne_eq, not_false_eq_true, implies_true, reduceCtorEq, micro,
    stepLevel_role h0.1 h0.2, emit, stepLevel_role, h1.1, h1.2, muxDriven, muxLevel, List.append_assoc]

/-- The two halves of a direction update (R122, R123). -/
theorem runCode_direction {l : Line} (d : Dir) (h : LineReady s l) :
    runCode ([.oeRead (.line l), .oeWrite (.line l) d] ++ rest) j s =
      runCode rest { j with oeWord := s.oe[l.bank] }
        (emit (.gpioDir l d) { s with oe := s.oe.set l.bank (withDir s.oe[l.bank] l d) }) := by
  simp only [List.cons_append, List.nil_append, runCode_cons, ne_eq, not_false_eq_true, implies_true, reduceCtorEq, micro,
    stepOeRead_ready (lineOf_line h.1) h.2, stepOeWrite_ready (lineOf_line h.1) h.2]

end

/-! ## A module write leaves alone what it does not name -/

section
variable (a : BitVec 4) (data : List Byte) (s : State)

theorem moduleWrite_lockSerial (x : Option Nat) :
    moduleWrite a data { s with lockSerial := x } =
      ((moduleWrite a data s).1, { (moduleWrite a data s).2 with lockSerial := x }) := by
  simp only [moduleWrite]; cases (s.env.askExchange 1).1 <;> rfl

theorem moduleWrite_lockTwowire (x : Option Nat) :
    moduleWrite a data { s with lockTwowire := x } =
      ((moduleWrite a data s).1, { (moduleWrite a data s).2 with lockTwowire := x }) := by
  simp only [moduleWrite]; cases (s.env.askExchange 1).1 <;> rfl

@[simp] theorem moduleWrite_cur : (moduleWrite a data s).2.cur = s.cur := by
  simp only [moduleWrite]; cases (s.env.askExchange 1).1 <;> rfl

@[simp] theorem moduleWrite_keeps_lockSerial : (moduleWrite a data s).2.lockSerial = s.lockSerial := by
  simp only [moduleWrite]; cases (s.env.askExchange 1).1 <;> rfl

@[simp] theorem moduleWrite_keeps_lockTwowire : (moduleWrite a data s).2.lockTwowire = s.lockTwowire := by
  simp only [moduleWrite]; cases (s.env.askExchange 1).1 <;> rfl

@[simp] theorem moduleWrite_board : (moduleWrite a data s).2.board = s.board := by
  simp only [moduleWrite]; cases (s.env.askExchange 1).1 <;> rfl

/-- The only errors of a module write. -/
theorem moduleWrite_error {e : Error} (h : (moduleWrite a data s).1 = .error e) :
    e = .transferFailed ∨ e = .writeFailed := by
  revert h
  simp only [moduleWrite]
  cases (s.env.askExchange 1).1 with
  | none => intro h; injection h with h; exact .inl h.symm
  | some rx =>
    simp only
    split
    · intro h; injection h with h; exact .inr h.symm
    · intro h; injection h

end

/-! ## The end of an operation that took its lock when it was free -/

theorem finish_idle {j : Job} {t : State} {r : Result} (hj : j.who = t.cur) (hr : j.result = r)
    (hs : t.lockSerial ≠ some t.cur) (ht : t.lockTwowire ≠ some t.cur) : finish j t = answered r t := by
  simp only [finish, unlock, answered, hj, hr, hs, ht, if_false]

theorem finish_serial {j : Job} {t : State} {r : Result} (hj : j.who = t.cur) (hr : j.result = r)
    (hs : t.lockSerial = none) (ht : t.lockTwowire ≠ some t.cur) : finish j { t with lockSerial := some j.who } = answered r t := by
  simp only [finish, unlock, answered, hj, hr, hs, ht, if_true, if_false]

theorem finish_twowire {j : Job} {t : State} {r : Result} (hj : j.who = t.cur) (hr : j.result = r)
    (ht : t.lockTwowire = none) (hs : t.lockSerial ≠ some t.cur) : finish j { t with lockTwowire := some j.who } = answered r t := by
  simp only [finish, unlock, answered, hj, hr, hs, ht, if_true, if_false]

theorem finish_both {j : Job} {t : State} {r : Result} (hj : j.who = t.cur) (hr : j.result = r)
    (ht : t.lockTwowire = none) (hs : t.lockSerial = none) :
    finish j { t with lockSerial := some j.who, lockTwowire := some j.who } = answered r t := by
  simp only [finish, unlock, answered, hj, hr, hs, ht, if_true]

/-! ## The start of an operation -/

theorem execCode_ready {i : Instr} {code : List Micro} {s : State} (h : busy s.cur s = false) :
    execCode i code s = runCode code (Job.fresh s.cur i code) s := by
  simp only [execCode, h, Bool.false_eq_true, if_false]

/-- The role lines an operation needs are resolved (40_gpio.md R128). -/
theorem runCode_requireRoles {j : Job} {s : State} {rest : List Micro} {rs : List Role} (h : rolesResolved rs s = true) :
    runCode (.requireRoles rs :: rest) j s = runCode rest j s :=
  runCode_go (by simp only [micro, demand, h, if_true])

theorem rolesResolved_serial {s : State} (h : SerialUnit s) : rolesResolved serialRoles s = true := by
  simp only [rolesResolved, serialRoles, List.all_cons, List.all_nil, h.1, Bool.and_self]

theorem rolesResolved_addressing {s : State} (h : AddressingUnit s) : rolesResolved addressingRoles s = true := by
  simp only [rolesResolved, addressingRoles, List.all_cons, List.all_nil, h.1.1, h.2.1, Bool.and_self]

theorem rolesResolved_register {s : State} (h : RegisterUnit s) : rolesResolved registerRoles s = true := by
  simp only [rolesResolved, registerRoles, List.all_cons, List.all_nil, h.1.1, h.2.1, Bool.and_self]

/-- Everything `select_channel` needs, with and without an extension code. -/
theorem rolesResolved_select {s : State} {p : Bool} (h : RegisterUnit s) (ha : p = true → AddressingUnit s) :
    rolesResolved (selectRoles p) s = true := by
  cases p
  · exact rolesResolved_register h
  · have ha := ha rfl
    simp only [rolesResolved, selectRoles, registerRoles, addressingRoles, if_true, List.cons_append, List.nil_append,
      List.all_cons, List.all_nil, h.1.1, h.2.1, ha.1.1, ha.2.1, Bool.and_self]

theorem runCode_takeSerial {j : Job} {s : State} {rest : List Micro} (h : s.lockSerial = none) :
    runCode (.takeSerial :: rest) j s = runCode rest j { s with lockSerial := some j.who } :=
  runCode_go (by simp only [micro, stepTakeSerial, h])

theorem runCode_takeTwowire {j : Job} {s : State} {rest : List Micro} (h : s.lockTwowire = none) :
    runCode (.takeTwowire :: rest) j s = runCode rest j { s with lockTwowire := some j.who } :=
  runCode_go (by simp only [micro, stepTakeTwowire, h])

theorem lengthOk_iff {maxLen : Nat} {len : BitVec 16} {n : Nat} :
    lengthOk maxLen len n = true ↔ len ≠ 0 ∧ n = len.toNat ∧ len.toNat ≤ maxLen := by
  simp [lengthOk, and_assoc]

theorem runCode_requireLen {j : Job} {s : State} {rest : List Micro} {len : BitVec 16} {n : Nat}
    (h : lengthOk s.board.data.maxLen len n = true) :
    runCode (.requireLen len n :: rest) j s = runCode rest j s :=
  runCode_go (by simp only [micro, demand, h, if_true])

theorem runCode_requireOpen {j : Job} {s : State} {rest : List Micro} (h : s.spiOpen = true) :
    runCode (.requireOpen :: rest) j s = runCode rest j s :=
  runCode_go (by simp only [micro, demand, h, if_true])

theorem runCode_requireHandle {j : Job} {s : State} {rest : List Micro} {t : BitVec 7}
    (h : s.i2cHandle[t.toFin] = true) : runCode (.requireHandle t :: rest) j s = runCode rest j s :=
  runCode_go (by simp only [micro, demand, h, if_true])

theorem runCode_stopIfNoExt {j : Job} {s : State} {rest : List Micro} {a : BitVec 4} (h : s.extAddr = some a) :
    runCode (.stopIfNoExt :: rest) j s = runCode rest j s :=
  runCode_go (by simp only [micro, stepStopIfNoExt, h])

theorem runCode_stopWithoutExt {j : Job} {s : State} {rest : List Micro} (h : s.extAddr = none) :
    runCode (.stopIfNoExt :: rest) j s = .next (finish j s) :=
  runCode_stop (by simp only [micro, stepStopIfNoExt, h, stopOk])

theorem runCode_checkExt {j : Job} {s : State} {rest : List Micro} {a e : BitVec 4} (h : s.extAddr = some a)
    (hp : parked e = false) : runCode (.checkExt e :: rest) j s = runCode rest j s :=
  runCode_go (by simp [micro, stepCheckExt, h, hp])

end Sys2Proof.Machine
end

