-- ==== Sys2Proof/Laws/Run.lean ====
section
/-! SUPPORT. Everything a step of an operation can do, said once: which state each kind of step leaves alone, and the
induction over a step list that carries such a fact through a whole operation, whatever its outcome. -/

namespace Sys2Proof.Machine

/-! ## Inversion of the steps that touch a line -/

section
variable {s s' : State} {ref : LineRef} {l : Line} {j j' : Job}

theorem stepLevel_inv {v : Bool} {o : MicroOut} (h : stepLevel ref v j s = o) :
    (∃ r, o = .refuse r) ∨ ∃ l, lineOf s ref = .ok l ∧ s.winMapped[l.bank] = true ∧
      o = .go j (emit (.gpioLevel l v) { s with dataOut := setLatch l v s.dataOut }) := by
  subst h
  cases hl : lineOf s ref with
  | error r => exact .inl ⟨r, by simp only [stepLevel, hl]⟩
  | ok l =>
    cases hw : s.winMapped[l.bank] with
    | true => exact .inr ⟨l, rfl, hw, stepLevel_ready hl hw v⟩
    | false => exact .inl ⟨.windowUnmapped, by cases v <;> simp [stepLevel, hl, memWrite, portOf, access_addr, hw]⟩

theorem stepOeWrite_inv {d : Dir} {o : MicroOut} (h : stepOeWrite ref d j s = o) :
    (∃ r, o = .refuse r) ∨ ∃ l, lineOf s ref = .ok l ∧ s.winMapped[l.bank] = true ∧
      o = .go j (emit (.gpioDir l d) { s with oe := s.oe.set l.bank (withDir j.oeWord l d) }) := by
  subst h
  cases hl : lineOf s ref with
  | error r => exact .inl ⟨r, by simp only [stepOeWrite, hl]⟩
  | ok l =>
    cases hw : s.winMapped[l.bank] with
    | true => exact .inr ⟨l, rfl, hw, stepOeWrite_ready hl hw d⟩
    | false => exact .inl ⟨.windowUnmapped, by simp [stepOeWrite, hl, memWrite, access_addr, hw]⟩

theorem stepOeRead_inv {o : MicroOut} (h : stepOeRead ref j s = o) :
    (∃ r, o = .refuse r) ∨ ∃ l, lineOf s ref = .ok l ∧ s.winMapped[l.bank] = true ∧
      o = .go { j with oeWord := s.oe[l.bank] } s := by
  subst h
  cases hl : lineOf s ref with
  | error r => exact .inl ⟨r, by simp only [stepOeRead, hl]⟩
  | ok l =>
    cases hw : s.winMapped[l.bank] with
    | true => exact .inr ⟨l, rfl, hw, stepOeRead_ready hl hw⟩
    | false => exact .inl ⟨.windowUnmapped, by simp [stepOeRead, hl, memRead, access_addr, hw]⟩

theorem sampleLine_inv {o : Except Refusal (Bool × State)} (h : sampleLine ref s = o) :
    (∃ r, o = .error r) ∨ ∃ l, lineOf s ref = .ok l ∧ s.winMapped[l.bank] = true ∧
      o = .ok (sampledBit s l, emit (.gpioSample l (sampledBit s l)) { s with env := s.env.askPads.2.askDriven.2 }) := by
  subst h
  cases hl : lineOf s ref with
  | error r => exact .inl ⟨r, by simp only [sampleLine, hl]⟩
  | ok l =>
    cases hw : s.winMapped[l.bank] with
    | true => exact .inr ⟨l, rfl, hw, sampleLine_ready hl hw⟩
    | false => exact .inl ⟨.windowUnmapped, by simp [sampleLine, hl, memRead, access_addr, hw]⟩

end

/-! ## What a step leaves alone -/

/-- The operation and the state after a step that has an effect. -/
def MicroOut.after : MicroOut → Option (Job × State)
  | .go j s => some (j, s)
  | .again j s => some (j, s)
  | .stop j s => some (j, s)
  | .wait => none
  | .refuse _ => none

/-- What a step leaves alone, by what the step is. -/
structure Frame (m : Micro) (j : Job) (s : State) (j' : Job) (s' : State) : Prop where
  oe : (∀ l d, m ≠ .oeWrite l d) → s'.oe = s.oe
  dataOut : (∀ l v, m ≠ .level l v) → s'.dataOut = s.dataOut
  resolved : (∀ id, m ≠ .resolve id) → s'.winMapped = s.winMapped ∧ s'.resolved = s.resolved
  extAddr : (∀ a, m ≠ .setExt a) → s'.extAddr = s.extAddr
  i2cHandle : (∀ t, m ≠ .openHandle t) → s'.i2cHandle = s.i2cHandle
  openClose : (∀ p c, m ≠ .openBus p c) → m ≠ .closeBus → s'.spiOpen = s.spiOpen ∧ s'.spiPrimary = s.spiPrimary
  active : (∀ p c, m ≠ .openBus p c) → m ≠ .closeBus → m ≠ .enterSecondary → m ≠ .leaveSecondary →
    s'.spiActive = s.spiActive ∧ j'.saved = j.saved
  lockSerial : m ≠ .takeSerial → m ≠ .releaseSerial → s'.lockSerial = s.lockSerial
  lockTwowire : m ≠ .takeTwowire → s'.lockTwowire = s.lockTwowire
  dht : (∀ l v d, m ≠ .poll l v d) → j'.dht.count = j.dht.count ∧ j'.dht.low = j.dht.low ∧ j'.dht.high = j.dht.high
  rest : s'.inflight = s.inflight ∧ s'.board = s.board ∧ s'.cur = s.cur ∧ s'.inputs = s.inputs ∧ s'.results = s.results
  job : j'.who = j.who ∧ j'.instr = j.instr ∧ j'.todo = j.todo

theorem micro_frame {m : Micro} {j j' : Job} {s s' : State} (h : (micro m j s).after = some (j', s')) :
    Frame m j s j' s' := by
  cases m
  case oeRead l =>
    obtain ⟨r, ho⟩ | ⟨l, -, -, ho⟩ := stepOeRead_inv (ref := l) (j := j) (s := s) rfl <;>
      simp only [micro, ho, MicroOut.after] at h <;> cases h
    constructor <;> simp
  case sample l =>
    obtain ⟨r, ho⟩ | ⟨l, -, -, ho⟩ := sampleLine_inv (ref := l) (s := s) rfl <;>
      simp only [micro, stepSample, ho, MicroOut.after] at h <;> cases h
    constructor <;> simp
  case poll l v d =>
    obtain ⟨r, ho⟩ | ⟨l, -, -, ho⟩ := sampleLine_inv (ref := l) (s := s) rfl <;>
      simp only [micro, stepPoll, ho] at h
    · cases h
    repeat' split at h
    all_goals cases h
    all_goals constructor <;> simp
  case oeWrite l d =>
    obtain ⟨r, ho⟩ | ⟨l, -, -, ho⟩ := stepOeWrite_inv (ref := l) (d := d) (j := j) (s := s) rfl <;>
      simp only [micro, ho, MicroOut.after] at h <;> cases h
    constructor <;> simp
  case level l v =>
    obtain ⟨r, ho⟩ | ⟨l, -, -, ho⟩ := stepLevel_inv (ref := l) (v := v) (j := j) (s := s) rfl <;>
      simp only [micro, ho, MicroOut.after] at h <;> cases h
    constructor <;> simp
  all_goals
    simp only [micro, stepTakeSerial, stepTakeTwowire, stepReleaseSerial, demand, stepResolve, stepOpenBus, stepCloseBus,
      stepEnterSecondary, stepLeaveSecondary, stepExchange, stepSendFrame, stepRawWrite, stepCheckRx, stepCheckCount,
      stepReturnRx, stepReturnByte, stepReturnCount, stepCheckFrameOp, stepSetExt, stepStopIfNoExt, stepOpenHandle,
      stepCheckExt, stepBusWrite, stepBusRead, stepPhase, stepThreshold, stepPackBits, stepValidate, stepInterpret, raise,
      stopOk, resolvePin, resolveLine, openSerial, openTarget, forgetProfiles] at h
    repeat' split at h
    all_goals cases h
    all_goals constructor <;> simp [emit]

/-! ## Induction over a step list -/

/-- A fact that every poll keeps is kept while a step repeats. -/
theorem settle_ind {P : Job → State → Prop} {m : Micro}
    (hm : ∀ j s j' s', P j s → (micro m j s).after = some (j', s') → P j' s') (n : Nat) {j : Job} {s : State} (h : P j s) :
    ∀ j' s', (settle n m j s).after = some (j', s') → P j' s' := by
  induction n generalizing j s with
  | zero => exact fun j' s' ha => hm j s j' s' h ha
  | succ n ih =>
    intro j' s' ha
    cases ho : micro m j s with
    | again j1 s1 =>
      simp only [settle, ho] at ha
      exact ih (hm j s j1 s1 h (by simp only [ho, MicroOut.after])) j' s' ha
    | go j1 s1 => exact hm j s j' s' h (by simpa only [settle, ho] using ha)
    | stop j1 s1 => exact hm j s j' s' h (by simpa only [settle, ho] using ha)
    | wait => simp only [settle, ho, MicroOut.after] at ha; cases ha
    | refuse r => simp only [settle, ho, MicroOut.after] at ha; cases ha

/-- Polls one after another leave alone what one poll does. -/
theorem Frame.trans_poll {ref : LineRef} {v : Bool} {d : CountDest} {j j1 j2 : Job} {s s1 s2 : State}
    (f : Frame (.poll ref v d) j s j1 s1) (g : Frame (.poll ref v d) j1 s1 j2 s2) : Frame (.poll ref v d) j s j2 s2 where
  oe h := (g.oe h).trans (f.oe h)
  dataOut h := (g.dataOut h).trans (f.dataOut h)
  resolved h := ⟨(g.resolved h).1.trans (f.resolved h).1, (g.resolved h).2.trans (f.resolved h).2⟩
  extAddr h := (g.extAddr h).trans (f.extAddr h)
  i2cHandle h := (g.i2cHandle h).trans (f.i2cHandle h)
  openClose h h' := ⟨(g.openClose h h').1.trans (f.openClose h h').1, (g.openClose h h').2.trans (f.openClose h h').2⟩
  active h1 h2 h3 h4 :=
    ⟨(g.active h1 h2 h3 h4).1.trans (f.active h1 h2 h3 h4).1, (g.active h1 h2 h3 h4).2.trans (f.active h1 h2 h3 h4).2⟩
  lockSerial h h' := (g.lockSerial h h').trans (f.lockSerial h h')
  lockTwowire h := (g.lockTwowire h).trans (f.lockTwowire h)
  dht h := absurd rfl (h ref v d)
  rest :=
    ⟨g.rest.1.trans f.rest.1, g.rest.2.1.trans f.rest.2.1, g.rest.2.2.1.trans f.rest.2.2.1,
      g.rest.2.2.2.1.trans f.rest.2.2.2.1, g.rest.2.2.2.2.trans f.rest.2.2.2.2⟩
  job := ⟨g.job.1.trans f.job.1, g.job.2.1.trans f.job.2.1, g.job.2.2.trans f.job.2.2⟩

/-- A step that is no poll does not repeat. -/
theorem settle_not_poll {m : Micro} (hm : ∀ l v d, m ≠ .poll l v d) (n : Nat) (j : Job) (s : State) :
    settle n m j s = micro m j s :=
  settle_eq_micro (micro_ne_again hm j · s ·) n

/-- A step repeated leaves alone what the step does. -/
theorem settle_frame {m : Micro} {n : Nat} {j j' : Job} {s s' : State} (h : (settle n m j s).after = some (j', s')) :
    Frame m j s j' s' := by
  by_cases hm : ∀ l v d, m ≠ .poll l v d
  · rw [settle_not_poll hm] at h
    exact micro_frame h
  · simp only [ne_eq, not_forall, not_not] at hm
    obtain ⟨l, v, d, rfl⟩ := hm
    induction n generalizing j s with
    | zero => exact micro_frame h
    | succ n ih =>
      cases ho : micro (.poll l v d) j s with
      | again j1 s1 =>
        simp only [settle, ho] at h
        exact (micro_frame (by simp only [ho, MicroOut.after])).trans_poll (ih h)
      | go j1 s1 => exact micro_frame (by simpa only [settle, ho] using h)
      | stop j1 s1 => exact micro_frame (by simpa only [settle, ho] using h)
      | wait => simp only [settle, ho, MicroOut.after] at h; cases h
      | refuse r => simp only [settle, ho, MicroOut.after] at h; cases h

/-! ## Steps at which an operation may end or wait -/

/-- The steps at which an operation may end early, wait, or repeat. -/
def Micro.ends : Micro → Bool
  | .takeSerial => true
  | .takeTwowire => true
  | .checkRx _ => true
  | .checkCount _ _ => true
  | .checkFrameOp _ => true
  | .stopIfNoExt => true
  | .checkExt _ => true
  | .poll _ _ _ => true
  | .validate => true
  | _ => false

/-- Every other step goes on or stops the model. -/
theorem micro_goes {m : Micro} (hm : m.ends = false) (j : Job) (s : State) :
    (∃ j' s', micro m j s = .go j' s') ∨ ∃ r, micro m j s = .refuse r := by
  cases m
  case oeRead l =>
    obtain ⟨r, ho⟩ | ⟨l, -, -, ho⟩ := stepOeRead_inv (ref := l) (j := j) (s := s) rfl <;> simp [micro, ho]
  case oeWrite l d =>
    obtain ⟨r, ho⟩ | ⟨l, -, -, ho⟩ := stepOeWrite_inv (ref := l) (d := d) (j := j) (s := s) rfl <;> simp [micro, ho]
  case level l v =>
    obtain ⟨r, ho⟩ | ⟨l, -, -, ho⟩ := stepLevel_inv (ref := l) (v := v) (j := j) (s := s) rfl <;> simp [micro, ho]
  case sample l =>
    obtain ⟨r, ho⟩ | ⟨l, -, -, ho⟩ := sampleLine_inv (ref := l) (s := s) rfl <;> simp [micro, stepSample, ho]
  all_goals try (simp only [Micro.ends, Bool.true_eq_false] at hm; done)
  all_goals
    simp only [micro, stepReleaseSerial, demand, stepResolve, stepOpenBus, stepCloseBus, stepEnterSecondary,
      stepLeaveSecondary, stepExchange, stepSendFrame, stepRawWrite, stepReturnRx, stepReturnByte, stepReturnCount,
      stepSetExt, stepOpenHandle, stepBusWrite, stepBusRead, stepPhase, stepThreshold, stepPackBits, stepInterpret]
    repeat' split
    all_goals simp

theorem settle_goes {m : Micro} (hm : m.ends = false) (n : Nat) (j : Job) (s : State) :
    (∃ j' s', settle n m j s = .go j' s') ∨ ∃ r, settle n m j s = .refuse r := by
  rw [settle_not_poll (by rintro l v d rfl; cases hm)]
  exact micro_goes hm j s

/-- How an operation that answers a next state goes through its first step: on to the rest, or to its end or a wait at a
step that allows one. -/
theorem runCode_step {m : Micro} {ms : List Micro} {j : Job} {s t : State} (h : runCode (m :: ms) j s = .next t) :
    (∃ j1 s1, settle Config.dhtSpinBound m j s = .go j1 s1 ∧ Frame m j s j1 s1 ∧ runCode ms j1 s1 = .next t) ∨
    (m.ends = true ∧
      ((∃ j1 s1, settle Config.dhtSpinBound m j s = .again j1 s1 ∧ Frame m j s j1 s1 ∧ t = park j1 (m :: ms) s1) ∨
        (∃ j1 s1, settle Config.dhtSpinBound m j s = .stop j1 s1 ∧ Frame m j s j1 s1 ∧ t = finish j1 s1) ∨
        (settle Config.dhtSpinBound m j s = .wait ∧ t = park j (m :: ms) s))) := by
  have hg := settle_goes (m := m) (n := Config.dhtSpinBound) (j := j) (s := s)
  simp only [runCode] at h
  split at h
  next j1 s1 ho => exact .inl ⟨j1, s1, ho, settle_frame (congrArg MicroOut.after ho), h⟩
  all_goals
    cases he : m.ends
    · obtain ⟨j', s', h1⟩ | ⟨r, h1⟩ := hg he <;> simp_all
    refine .inr ⟨rfl, ?_⟩
  next j1 s1 ho => cases h; exact .inl ⟨j1, s1, ho, settle_frame (congrArg MicroOut.after ho), rfl⟩
  next j1 s1 ho => cases h; exact .inr (.inl ⟨j1, s1, ho, settle_frame (congrArg MicroOut.after ho), rfl⟩)
  next ho => cases h; exact .inr (.inr ⟨ho, rfl⟩)
  next => cases h

/-- A step that ends the operation, or stays at itself, moves no lock and no profile. -/
theorem settle_stop_locks {m : Micro} {n : Nat} {j j' : Job} {s s' : State}
    (h : settle n m j s = .stop j' s' ∨ settle n m j s = .again j' s') :
    s'.lockSerial = s.lockSerial ∧ s'.lockTwowire = s.lockTwowire ∧ s'.spiOpen = s.spiOpen ∧
      s'.spiPrimary = s.spiPrimary ∧ s'.spiActive = s.spiActive ∧ j'.saved = j.saved ∧
      s'.winMapped = s.winMapped ∧ s'.resolved = s.resolved ∧ s'.extAddr = s.extAddr ∧ s'.i2cHandle = s.i2cHandle ∧
      s'.oe = s.oe ∧ s'.dataOut = s.dataOut := by
  have hg := settle_goes (m := m) (n := n) (j := j) (s := s)
  have f : Frame m j s j' s' := settle_frame (by rcases h with h | h <;> exact congrArg MicroOut.after h)
  have he : m.ends = true := by
    cases he : m.ends
    · obtain ⟨j', s', h1⟩ | ⟨r, h1⟩ := hg he <;> simp [h1] at h
    · rfl
  have ht : m ≠ .takeSerial := by
    rintro rfl
    rw [settle_not_poll (by simp)] at h
    simp only [micro, stepTakeSerial] at h
    revert h
    repeat' split
    all_goals simp
  have hw : m ≠ .takeTwowire := by
    rintro rfl
    rw [settle_not_poll (by simp)] at h
    simp only [micro, stepTakeTwowire] at h
    revert h
    repeat' split
    all_goals simp
  have ho := f.openClose (by rintro _ _ rfl; cases he) (by rintro rfl; cases he)
  have ha := f.active (by rintro _ _ rfl; cases he) (by rintro rfl; cases he) (by rintro rfl; cases he)
    (by rintro rfl; cases he)
  have hr := f.resolved (by rintro _ rfl; cases he)
  exact ⟨f.lockSerial ht (by rintro rfl; cases he), f.lockTwowire hw, ho.1, ho.2, ha.1, ha.2, hr.1, hr.2,
    f.extAddr (by rintro _ rfl; cases he), f.i2cHandle (by rintro _ rfl; cases he), f.oe (by rintro _ _ rfl; cases he),
    f.dataOut (by rintro _ _ rfl; cases he)⟩

/-- A fact that every step of a list keeps holds where the operation ends or waits. -/
theorem runCode_ind {P : Job → State → Prop} {Q : State → Prop} {code : List Micro}
    (hm : ∀ m ∈ code, ∀ j s j' s', P j s → (micro m j s).after = some (j', s') → P j' s')
    (hf : ∀ j s, P j s → Q (finish j s)) (hp : ∀ j s ms, P j s → Q (park j ms s))
    {j : Job} {s t : State} (h : P j s) (hr : runCode code j s = .next t) : Q t := by
  induction code generalizing j s with
  | nil => simp only [runCode] at hr; cases hr; exact hf j s h
  | cons m ms ih =>
    have hs := settle_ind (hm m (by simp)) Config.dhtSpinBound h
    simp only [runCode] at hr
    split at hr
    next j1 s1 ho =>
      exact ih (fun m' hm' => hm m' (by simp [hm'])) (hs j1 s1 (by simp only [ho, MicroOut.after])) hr
    next j1 s1 ho => cases hr; exact hp _ _ _ (hs j1 s1 (by simp only [ho, MicroOut.after]))
    next j1 s1 ho => cases hr; exact hf _ _ (hs j1 s1 (by simp only [ho, MicroOut.after]))
    next ho => cases hr; exact hp _ _ _ h
    next => cases hr

/-- The meaning of an instruction is its step list run by the requester. -/
theorem exec_eq_execCode (i : Instr) (s : State) : exec i s = execCode i (codeOf i) s := by
  cases i <;> rfl

/-- A fact that every step of an instruction keeps holds after it. -/
theorem exec_ind {P : Job → State → Prop} {Q : State → Prop} {i : Instr}
    (hm : ∀ m ∈ codeOf i, ∀ j s j' s', P j s → (micro m j s).after = some (j', s') → P j' s')
    (hf : ∀ j s, P j s → Q (finish j s)) (hp : ∀ j s ms, P j s → Q (park j ms s))
    {s t : State} (h : P (Job.fresh s.cur i (codeOf i)) s) (hr : exec i s = .next t) : Q t := by
  rw [exec_eq_execCode, execCode] at hr
  split at hr
  · cases hr
  · exact runCode_ind hm hf hp h hr

end Sys2Proof.Machine
end

