-- ==== Sys2Proof/Laws/Codes.lean ====
section
/-! SUPPORT. Which steps stand in the step list of which instruction. -/

namespace Sys2Proof.Machine

/-- What every step of an instruction leaves alone, the instruction leaves alone. -/
theorem exec_keeps {α : Type} {f : State → α} {i : Instr} {s t : State}
    (hm : ∀ m ∈ codeOf i, ∀ j s j' s', Frame m j s j' s' → f s' = f s)
    (hf : ∀ j s, f (finish j s) = f s) (hp : ∀ j ms s, f (park j ms s) = f s)
    (hr : exec i s = .next t) : f t = f s :=
  exec_ind (P := fun _ s' => f s' = f s) (Q := fun s' => f s' = f s)
    (fun m hmem j s1 j' s1' h ha => (hm m hmem j s1 j' s1' (micro_frame ha)).trans h)
    (fun j s1 h => (hf j s1).trans h) (fun j s1 ms h => (hp j ms s1).trans h) rfl hr

theorem pairSteps_poll (l : Line) (n : Nat) : ∀ m ∈ pairSteps l n, ∃ v d, m = .poll (.line l) v d := by
  induction n with
  | zero => simp [pairSteps]
  | succ n ih => 
    intro m hm
    simp only [pairSteps, List.mem_cons] at hm
    rcases hm with rfl | rfl | hm
    · exact ⟨_, _, rfl⟩
    · exact ⟨_, _, rfl⟩
    · exact ih m hm

/-- The steps that write a kind of state stand only in the lists of the operations named. -/
theorem codeOf_mem {i : Instr} {m : Micro} (h : m ∈ codeOf i) :
  ((∃ l d, m = .oeWrite l d) → (∃ l, i = .gpioSetOutput l ∨ i = .gpioSetInput l) ∨ ∃ k l, i = .wireRead k l) ∧
  ((∃ id, m = .resolve id) → ∃ id, i = .gpioResolve id) ∧
  ((∃ id, m = .setExt id) → ∃ id, i = .addrSetExt id) ∧
  ((∃ id, m = .openHandle id) → ∃ id, i = .regOpenHandle id) ∧
  ((∃ id c, m = .openBus id c) → ∃ p a b c, i = .serialOpen p a b c) ∧
  (m = .closeBus → i = .serialClose) ∧
  ((∃ l v, m = .level l v) → ¬ ((∃ id, i = .gpioResolve id) ∨ (∃ l, i = .gpioSetOutput l ∨ i = .gpioSetInput l ∨ i = .gpioRead l) ∨
      (∃ path mode word speed, i = .serialOpen path mode word speed) ∨ i = .serialClose ∨
      (∃ len tx, i = .serialTransfer len tx) ∨ (∃ a, i = .addrSetExt a) ∨
      (firstLock i = .twowire ∧ ∀ loc p e, i ≠ .regSelect loc p e))) := by
  cases i
  case wireRead k l =>
    simp only [codeOf, codeWireRead, wakeSteps, requestSteps, listenSteps, sampleSteps, decodeSteps, setOutputSteps,
      setInputSteps, List.mem_append, List.mem_cons, List.not_mem_nil, or_false] at h
    have hp := pairSteps_poll l Config.dhtPairs m
    by_cases hq : m ∈ pairSteps l Config.dhtPairs
    · obtain ⟨v, d, rfl⟩ := hp hq
      simp
    · refine ⟨?_, ?_, ?_, ?_, ?_, ?_, ?_⟩ <;> (try (rintro ⟨_, rfl⟩)) <;> (try (rintro ⟨_, _, rfl⟩)) <;>
      simp_all [firstLock]
  case regSelect loc p e =>
    cases p <;>
    simp only [codeOf, codeRegSelect, extensionSteps, writeSteps, frameSteps, secondarySteps, if_true, if_false,
      Bool.false_eq_true, List.mem_append, List.mem_cons, List.not_mem_nil, or_false, false_or] at h <;>
    refine ⟨?_, ?_, ?_, ?_, ?_, ?_, ?_⟩ <;> (try (rintro ⟨_, rfl⟩)) <;> (try (rintro ⟨_, _, rfl⟩)) <;>
      simp_all [firstLock]
  case regRead a b c d =>
    cases b <;> simp only [codeOf, codeRegRead, if_true, if_false, Bool.false_eq_true, List.mem_append, List.mem_cons,
      List.not_mem_nil, or_false, false_or] at h <;>
    refine ⟨?_, ?_, ?_, ?_, ?_, ?_, ?_⟩ <;> (try (rintro ⟨_, rfl⟩)) <;> (try (rintro ⟨_, _, rfl⟩)) <;>
      simp_all [firstLock]
  all_goals
    simp only [codeOf, codeGpioResolve, codeGpioSetOutput, codeGpioSetInput, codeGpioSetHigh, codeGpioSetLow,
      codeGpioRead, codeSerialOpen, codeSerialTransfer, codeSerialTransferSecondary, codeSerialClose, codeAddrSelect,
      codeAddrWrite, codeAddrRead, codeAddrSetExt, codeAddrUnselectExt, codeFrame, codeRegOpenHandle, codeRegWrite,
      setOutputSteps, setInputSteps, writeSteps, frameSteps, secondarySteps, List.mem_append, List.mem_cons,
      List.not_mem_nil, or_false] at h
    refine ⟨?_, ?_, ?_, ?_, ?_, ?_, ?_⟩ <;> (try (rintro ⟨_, rfl⟩)) <;> (try (rintro ⟨_, _, rfl⟩)) <;>
      simp_all [firstLock]

theorem codeOf_ne_nil (i : Instr) : ∃ m ms, codeOf i = m :: ms := by
  cases i <;> exact ⟨_, _, rfl⟩

/-- An operation that needs role lines asks for all of them in its first step, before any check and any lock (40_gpio.md
R128). -/
theorem codeOf_roles (i : Instr) : neededRoles i = [] ∨ ∃ ms, codeOf i = .requireRoles (neededRoles i) :: ms := by
  cases i <;> first | exact .inl rfl | exact .inr ⟨_, rfl⟩ | skip
  case regSelect loc p e => cases p <;> exact .inr ⟨_, rfl⟩

/-- When that step goes on. -/
theorem rolesResolved_iff {rs : List Role} {s : State} :
    rolesResolved rs s = true ↔ ∀ r ∈ rs, s.resolved.contains (s.board.roleLine r) = true :=
  List.all_eq_true

end Sys2Proof.Machine
end

