-- ==== Sys2Proof/Laws/Fields.lean ====
section
/-! SUPPORT. Operand fields: reading what was written gives the value back, and what can be read was written so. -/

namespace Sys2Proof

/-! ## Fields of at most one byte -/

theorem takeField_put {w : Nat} (hw : w ≤ 8) (v : BitVec w) (rest : List Byte) :
    takeField w (putField v ++ rest) = .ok (v, rest) := by
  have hv := v.isLt
  have hp : 2 ^ w ≤ 2 ^ 8 := Nat.pow_le_pow_right (by omega) hw
  have ht : (v.setWidth 8).toNat = v.toNat := by
    rw [BitVec.toNat_setWidth, Nat.mod_eq_of_lt (by omega)]
  simp only [putField, List.cons_append, List.nil_append, takeField, ht, hv, if_true, BitVec.ofNat_toNat,
    BitVec.setWidth_eq]

theorem takeField_ok {w : Nat} {bs rest : List Byte} {v : BitVec w}
    (h : takeField w bs = .ok (v, rest)) : bs = putField v ++ rest := by
  cases bs with
  | nil => cases h
  | cons b bs =>
    simp only [takeField] at h
    split at h
    · next hb =>
      simp only [Except.ok.injEq, Prod.mk.injEq] at h
      obtain ⟨rfl, rfl⟩ := h
      simp only [putField, List.cons_append, List.nil_append, List.cons.injEq, and_true]
      apply BitVec.eq_of_toNat_eq
      rw [BitVec.toNat_setWidth, BitVec.toNat_ofNat, Nat.mod_eq_of_lt hb, Nat.mod_eq_of_lt b.isLt]
    · cases h

theorem takeFlag_put (f : Bool) (rest : List Byte) : takeFlag (putFlag f ++ rest) = .ok (f, rest) := by
  simp only [takeFlag, putFlag, takeField_put (w := 1) (by decide)]
  cases f <;> rfl

theorem takeFlag_ok {bs rest : List Byte} {f : Bool} (h : takeFlag bs = .ok (f, rest)) : bs = putFlag f ++ rest := by
  simp only [takeFlag] at h
  cases hf : takeField 1 bs with
  | error e => rw [hf] at h; cases h
  | ok r =>
    rw [hf] at h
    injection h with h
    injection h with h1 h2
    rw [takeField_ok hf, ← h1, ← h2, putFlag]
    congr 2
    have : ∀ v : BitVec 1, v = BitVec.ofBool (v == 1#1) := by decide
    exact this r.1

theorem takeLine_put (l : Line) (rest : List Byte) : takeLine (putLine l ++ rest) = .ok (l, rest) := by
  simp only [takeLine, putLine, List.append_assoc, takeField_put (w := 2) (by decide), takeField_put (w := 5) (by decide),
    bind, Except.bind]

theorem takeLine_ok {bs rest : List Byte} {l : Line} (h : takeLine bs = .ok (l, rest)) : bs = putLine l ++ rest := by
  simp only [takeLine, bind, Except.bind] at h
  split at h
  · cases h
  · next r1 h1 =>
    split at h
    · cases h
    · next r2 h2 =>
      injection h with h
      injection h with h3 h4
      rw [takeField_ok h1, takeField_ok h2, ← h3, ← h4, putLine, List.append_assoc]

/-! ## Fields of two and four bytes -/

theorem takeHalf_put (v : BitVec 16) (rest : List Byte) : takeHalf (putHalf v ++ rest) = .ok (v, rest) := by
  simp only [putHalf, List.cons_append, List.nil_append, takeHalf, Except.ok.injEq, Prod.mk.injEq, and_true]
  ext i hi
  simp only [BitVec.getElem_append, BitVec.getElem_extractLsb']
  split <;> simp <;> grind

theorem takeHalf_ok {bs rest : List Byte} {v : BitVec 16} (h : takeHalf bs = .ok (v, rest)) : bs = putHalf v ++ rest := by
  match bs, h with
  | b0 :: b1 :: bs, h =>
    simp only [takeHalf, Except.ok.injEq, Prod.mk.injEq] at h
    obtain ⟨rfl, rfl⟩ := h
    simp only [putHalf, List.cons_append, List.nil_append, List.cons.injEq, and_true]
    constructor <;> ext i hi <;> simp <;> grind

theorem takeWord_put (v : BitVec 32) (rest : List Byte) : takeWord (putWord v ++ rest) = .ok (v, rest) := by
  simp only [takeWord, putWord, List.append_assoc, takeHalf_put]
  simp only [Except.ok.injEq, Prod.mk.injEq, and_true]
  ext i hi
  simp only [BitVec.getElem_append, BitVec.getElem_extractLsb']
  split <;> simp <;> grind

theorem takeWord_ok {bs rest : List Byte} {v : BitVec 32} (h : takeWord bs = .ok (v, rest)) : bs = putWord v ++ rest := by
  simp only [takeWord] at h
  split at h
  · cases h
  · next lo bs1 h1 =>
    split at h
    · cases h
    · next hi bs2 h2 =>
      simp only [Except.ok.injEq, Prod.mk.injEq] at h
      obtain ⟨rfl, rfl⟩ := h
      rw [takeHalf_ok h1, takeHalf_ok h2, putWord, List.append_assoc]
      congr 2
      · ext i hi
        simp
        grind
      · congr 1
        ext i hi
        simp
        grind

/-! ## Buffers -/

theorem takeBytes_put (data rest : List Byte) : takeBytes data.length (data ++ rest) = .ok (data, rest) := by
  simp [takeBytes]

theorem takeBytes_ok {n : Nat} {bs data rest : List Byte} (h : takeBytes n bs = .ok (data, rest)) :
    bs = data ++ rest ∧ data.length = n := by
  simp only [takeBytes] at h
  split at h
  · next hn =>
    simp only [Except.ok.injEq, Prod.mk.injEq] at h
    obtain ⟨rfl, rfl⟩ := h
    exact ⟨(List.take_append_drop n bs).symm, List.length_take_of_le hn⟩
  · cases h

theorem takeBuffer_put {len : BitVec 16} {data : List Byte} (h : data.length = len.toNat) (rest : List Byte) :
    takeBuffer (putBuffer len data ++ rest) = .ok (len, data, rest) := by
  simp only [takeBuffer, putBuffer, List.append_assoc, takeHalf_put, bind, Except.bind, ← h, takeBytes_put]

theorem takeBuffer_ok {bs data rest : List Byte} {len : BitVec 16} (h : takeBuffer bs = .ok (len, data, rest)) :
    bs = putBuffer len data ++ rest ∧ data.length = len.toNat := by
  simp only [takeBuffer, bind, Except.bind] at h
  split at h
  · cases h
  · next r1 h1 =>
    split at h
    · cases h
    · next r2 h2 =>
      simp only [Except.ok.injEq, Prod.mk.injEq] at h
      obtain ⟨rfl, rfl, rfl⟩ := h
      have hb := takeBytes_ok h2
      exact ⟨by rw [takeHalf_ok h1, hb.1, putBuffer, List.append_assoc], hb.2⟩

/-! ## Opcodes and frames -/

theorem ofByte_code (o : Op) : Op.ofByte o.code = some o := by cases o <;> decide

theorem code_ofByte {b : Byte} {o : Op} (h : Op.ofByte b = some o) : o.code = b := by
  simpa using List.find?_some h

theorem addressFrame_fields (a : BitVec 4) (op : BitVec 3) :
    (addressFrame a op).extractLsb' 3 4 = a ∧ (addressFrame a op).extractLsb' 0 3 = op ∧
      (addressFrame a op).getLsbD 7 = parity a := by
  revert a op
  decide

theorem addressFrame_of_byte {f : Byte} (h : f.getLsbD 7 = parity (f.extractLsb' 3 4)) :
    addressFrame (f.extractLsb' 3 4) (f.extractLsb' 0 3) = f := by
  revert f
  decide

end Sys2Proof
end

