-- ==== Sys2Proof/Laws/Grains.lean ====
section
/-! SUPPORT. An operation run one step at a time: a step does not look at the rest of its list, and the grains of an
operation come to where its whole run comes. -/

namespace Sys2Proof.Machine

/-- The same outcome of an operation with another list of steps to make. -/
def MicroOut.withTodo (x : List Micro) : MicroOut → MicroOut
  | .go j s => .go { j with todo := x } s
  | .again j s => .again { j with todo := x } s
  | .stop j s => .stop { j with todo := x } s
  | .wait => .wait
  | .refuse r => .refuse r

/-- A step does not look at the rest of its list. -/
theorem micro_todo (m : Micro) (j : Job) (s : State) (x : List Micro) :
    micro m { j with todo := x } s = (micro m j s).withTodo x := by
  cases m
  all_goals
    simp only [micro, stepTakeSerial, stepTakeTwowire, stepReleaseSerial, demand, stepResolve, stepOeRead, stepOeWrite,
      stepLevel, stepSample, stepPoll, stepOpenBus, stepCloseBus, stepEnterSecondary, stepLeaveSecondary, stepExchange,
      stepSendFrame, stepRawWrite, stepCheckRx, stepCheckCount, stepReturnRx, stepReturnByte, stepReturnCount,
      stepCheckFrameOp, stepSetExt, stepStopIfNoExt, stepOpenHandle, stepCheckExt, stepBusWrite, stepBusRead, stepPhase,
      stepThreshold, stepPackBits, stepValidate, stepInterpret, raise, stopOk]
    repeat' split
    all_goals rfl

theorem runInputs_append (xs ys : List Input) (s : State) :
    runInputs (xs ++ ys) s = match runInputs xs s with | .next t => runInputs ys t | .fault f => .fault f | .refused r => .refused r := by
  induction xs generalizing s with
  | nil => rfl
  | cons x xs ih => 
    simp only [List.cons_append, runInputs]
    cases takeInput x s <;> simp [ih]

/-- The operation of a requester that has no other. -/
theorem takeJob_last {who : Nat} {js : List Job} {j : Job} (h : js.any (fun j => j.who == who) = false) (hj : j.who = who) :
    takeJob who (js ++ [j]) = some (j, js) := by
  induction js with
  | nil => simp [takeJob, hj]
  | cons k ks ih => 
    simp only [List.any_cons, Bool.or_eq_false_iff, beq_eq_false_iff_ne] at h
    simp [takeJob, h.1, ih h.2]

/-- A grain of the operation put into flight last. -/
theorem grain_parked {j : Job} {s : State} {ms : List Micro} (h : busy j.who s = false) :
    grain j.who (park j ms s) = grainJob { j with todo := ms } s := by
  simp only [grain, park_inflight, takeJob_last (j := { j with todo := ms }) h rfl]
  rfl

theorem finish_todo (j : Job) (s : State) (x) : finish {j with todo := x} s = finish j s := rfl
theorem park_todo (j : Job) (s : State) (x y) : park {j with todo := x} y s = park j y s := rfl

theorem runInputs_one (i : Input) (s : State) : runInputs [i] s = takeInput i s := by
  simp only [runInputs]; cases takeInput i s <;> rfl

/-- The grains of one step come to where the step repeated comes. -/
theorem settle_grains {m : Micro} {ms : List Micro} (n : Nat) {j : Job} {s : State} (hb : busy j.who s = false) :
    match settle n m j s with
    | .go j1 s1 => ∃ k, runInputs (List.replicate k (.grain j.who)) (park j (m :: ms) s) =
        .next (if ms = [] then finish j1 s1 else park j1 ms s1)
    | .again j1 s1 => ∃ k, runInputs (List.replicate k (.grain j.who)) (park j (m :: ms) s) = .next (park j1 (m :: ms) s1)
    | .stop j1 s1 => ∃ k, runInputs (List.replicate k (.grain j.who)) (park j (m :: ms) s) = .next (finish j1 s1)
    | _ => True := by
  have one : ∀ {j s}, busy j.who s = false → runInputs [.grain j.who] (park j (m :: ms) s) =
      match micro m j s with
      | .go j s => .next (if ms = [] then finish j s else park j ms s)
      | .again j s => .next (park j (m :: ms) s)
      | .stop j s => .next (finish j s)
      | .wait => .next (park j (m :: ms) s)
      | .refuse r => .refused r := by
    intro j s hb
    simp only [runInputs_one, takeInput, grain_parked hb, grainJob, micro_todo]
    cases micro m j s <;> simp only [MicroOut.withTodo] <;> first | rfl | (split <;> rfl)
  induction n generalizing j s with
  | zero =>
    simp only [settle]
    have := one hb
    cases h : micro m j s <;> simp only [h] at this ⊢ <;> exact ⟨1, this⟩
  | succ n ih =>
    simp only [settle]
    have := one hb
    cases hm : micro m j s with
    | again j1 s1 =>
      simp only [hm] at this ⊢
      have f := micro_frame (congrArg MicroOut.after hm)
      have hw : j1.who = j.who := f.job.1
      have := ih (j := j1) (s := s1) (by rw [hw, busy, f.rest.1]; exact hb)
      rw [hw] at this
      revert this
      cases settle n m j1 s1 with
      | go j2 s2 => 
        rintro ⟨k, hk⟩
        refine ⟨1 + k, ?_⟩
        rw [List.replicate_add, runInputs_append, List.replicate_one, ‹runInputs _ (park j _ s) = _›]
        exact hk
      | again j2 s2 => 
        rintro ⟨k, hk⟩
        refine ⟨1 + k, ?_⟩
        rw [List.replicate_add, runInputs_append, List.replicate_one, ‹runInputs _ (park j _ s) = _›]
        exact hk
      | stop j2 s2 => 
        rintro ⟨k, hk⟩
        refine ⟨1 + k, ?_⟩
        rw [List.replicate_add, runInputs_append, List.replicate_one, ‹runInputs _ (park j _ s) = _›]
        exact hk
      | wait => simp
      | refuse => simp
    | go j1 s1 => simp only [hm] at this ⊢; exact ⟨1, this⟩
    | stop j1 s1 => simp only [hm] at this ⊢; exact ⟨1, this⟩
    | wait => simp
    | refuse => simp

/-- The grains of a step list come to where its whole run comes. -/
theorem runCode_grains {m : Micro} {ms : List Micro} {j : Job} {s t : State} (hb : busy j.who s = false)
    (h : runCode (m :: ms) j s = .next t) : ∃ k, runInputs (List.replicate k (.grain j.who)) (park j (m :: ms) s) = .next t := by
  induction ms generalizing m j s with
  | nil =>
    have g := settle_grains (ms := []) (m := m) Config.dhtSpinBound hb
    obtain ⟨j1, s1, h1, f, hr⟩ | ⟨he, ⟨j1, s1, h1, f, rfl⟩ | ⟨j1, s1, h1, f, rfl⟩ | ⟨h1, rfl⟩⟩ := runCode_step h
    · simp only [h1, if_true, runCode] at g hr; cases hr; exact g
    · simpa only [h1] using g
    · simpa only [h1] using g
    · exact ⟨0, rfl⟩
  | cons m2 ms ih =>
    have g := settle_grains (ms := m2 :: ms) (m := m) Config.dhtSpinBound hb
    obtain ⟨j1, s1, h1, f, hr⟩ | ⟨he, ⟨j1, s1, h1, f, rfl⟩ | ⟨j1, s1, h1, f, rfl⟩ | ⟨h1, rfl⟩⟩ := runCode_step h
    · simp only [h1, reduceCtorEq, if_false] at g
      obtain ⟨k, hk⟩ := g
      obtain ⟨k2, hk2⟩ := ih (by rw [f.job.1, busy, f.rest.1]; exact hb) hr
      rw [f.job.1] at hk2
      refine ⟨k + k2, ?_⟩
      rw [List.replicate_add, runInputs_append, hk]
      exact hk2
    · simpa only [h1] using g
    · simpa only [h1] using g
    · exact ⟨0, rfl⟩

end Sys2Proof.Machine
end

