-- ==== Sys2Proof/Laws/Sections.lean ====
section
/-! SUPPORT. The critical sections of the step lists (20_memory.md R73): every instruction's list keeps them whole, and what
that gives at each step of a list. -/

namespace Sys2Proof.Machine

/-- What the discipline says of the rest of a list after one step of it. -/
def Micro.next (ser win : Bool) : Micro → Bool × Bool
  | .takeSerial => (true, win)
  | .releaseSerial => (false, win)
  | .enterSecondary => (ser, true)
  | .leaveSecondary => (ser, false)
  | _ => (ser, win)

theorem disciplined_tail {ser win : Bool} {m : Micro} {ms : List Micro} (h : disciplined ser win (m :: ms) = true) :
    disciplined (m.next ser win).1 (m.next ser win).2 ms = true := by
  cases m <;> simp only [disciplined, Bool.and_eq_true] at h <;> simp only [Micro.next] <;> first | exact h | exact h.2

/-- Nothing that may end the operation stands inside a section. -/
theorem disciplined_ends {ser win : Bool} {m : Micro} {ms : List Micro} (h : disciplined ser win (m :: ms) = true)
    (hm : m.ends = true) : win = false := by
  cases m <;> simp only [Micro.ends, Bool.false_eq_true] at hm <;> simp only [disciplined, Bool.and_eq_true] at h <;>
    simpa using h.1

/-- A section is left only under the lock it was entered under. -/
theorem disciplined_needs_lock (ms : List Micro) : disciplined false true ms = false := by
  induction ms with
  | nil => rfl
  | cons m ms ih => cases m <;> simp [disciplined, ih]

/-- The steps that touch the bus profile are made under the lock. -/
theorem disciplined_locked {ser win : Bool} {m : Micro} {ms : List Micro} (h : disciplined ser win (m :: ms) = true)
    (hm : (∃ p c, m = .openBus p c) ∨ m = .closeBus ∨ m = .enterSecondary ∨ m = .leaveSecondary) :
    ser = true ∧ (m = .leaveSecondary ∨ win = false) := by
  rcases hm with ⟨p, c, rfl⟩ | rfl | rfl | rfl <;> simp only [disciplined, Bool.and_eq_true, Bool.not_eq_true'] at h <;>
    simp [h]

/-- Holding the lock from the start breaks no section. -/
theorem disciplined_mono {win : Bool} {ms : List Micro} (h : disciplined false win ms = true) :
    disciplined true win ms = true := by
  induction ms generalizing win with
  | nil => exact h
  | cons m ms ih =>
    cases m <;> simp only [disciplined, Bool.and_eq_true, Bool.false_eq_true, false_and] at h ⊢ <;>
      first | exact ⟨h.1, ih h.2⟩ | exact ih h | exact h

theorem disciplined_pairs (l : Line) (n : Nat) (ms : List Micro) (ser : Bool) :
    disciplined ser false (pairSteps l n ++ ms) = disciplined ser false ms := by
  induction n with
  | zero => rfl
  | succ n ih => simpa [pairSteps, disciplined] using ih

/-- Every instruction keeps its critical sections whole. -/
theorem codeOf_disciplined (i : Instr) : disciplined false false (codeOf i) = true := by
  cases i
  case wireRead k l =>
    simp [codeOf, codeWireRead, wakeSteps, requestSteps, listenSteps, sampleSteps, decodeSteps, setOutputSteps,
      setInputSteps, disciplined, disciplined_pairs]
  case regSelect loc p e =>
    cases p <;> simp [codeOf, codeRegSelect, extensionSteps, writeSteps, frameSteps, secondarySteps, disciplined]
  case regRead t n r l => cases n <;> simp [codeOf, codeRegRead, disciplined]
  all_goals
    simp [codeOf, codeGpioResolve, codeGpioSetOutput, codeGpioSetInput, codeGpioSetHigh, codeGpioSetLow, codeGpioRead,
      codeSerialOpen, codeSerialTransfer, codeSerialTransferSecondary, codeSerialClose, codeAddrSelect, codeAddrWrite,
      codeAddrRead, codeAddrSetExt, codeAddrUnselectExt, codeFrame, codeRegOpenHandle, codeRegWrite, setOutputSteps,
      setInputSteps, writeSteps, frameSteps, secondarySteps, disciplined]

/-- The rest of an operation that has saved a profile holds `lock.serial`. -/
theorem JobOk.saved_locked {s : State} {j : Job} (h : JobOk s j) {p : Profile} (hp : j.saved = some p) :
    s.lockSerial = some j.who := by
  obtain ⟨win, hd, hw⟩ := h.section_whole
  obtain rfl := hw (by simp [hp])
  by_contra hc
  have : (s.lockSerial == some j.who) = false := by simpa using hc
  simp [this, disciplined_needs_lock] at hd

end Sys2Proof.Machine
end

