-- ==== Sys2Proof/Laws/Traces.lean ====
section
/-! SUPPORT. The event of each step, and the induction over the steps of the machine. -/

namespace Sys2Proof.Machine

/-- A fact kept by every step of an operation, and by the bookkeeping around it, is kept by every step of the machine. -/
theorem step_ind {P : State → Prop} {s t : State} (h : P s)
    (hm : ∀ m j s j' s', P s → (micro m j s).after = some (j', s') → P s')
    (hf : ∀ j s, P s → P (finish j s)) (hp : ∀ j ms s, P s → P (park j ms s))
    (hu : ∀ s inp cur js, P s → P { s with inputs := inp, cur := cur, inflight := js })
    (hs : step s = .next t) : P t := by
  unfold step at hs
  split at hs
  · cases hs; exact h
  next inp rest hin =>
  have hcur : ∀ w, P { s with inputs := rest, cur := w } := fun w => hu s _ _ s.inflight h
  cases inp with
  | issue who f bytes =>
    simp only [takeInput] at hs
    split at hs
    · cases hs
    · exact exec_ind (P := fun _ s => P s) (Q := P) (fun m _ j s j' s' => hm m j s j' s') hf (fun j s ms => hp j ms s) (hcur who) hs
  | start who f bytes =>
    simp only [takeInput, startCode] at hs
    split at hs
    · cases hs
    · split at hs
      · cases hs
      · cases hs; exact hp _ _ _ (hcur who)
  | grain who =>
    simp only [takeInput, grain] at hs
    split at hs
    · cases hs
    next j r hj =>
      have h1 : P { s with inputs := rest, inflight := r } := hu s _ s.cur _ h
      unfold grainJob at hs
      split at hs
      · cases hs; exact hf _ _ h1
      · split at hs
        next ho => 
          have := hm _ _ _ _ _ h1 (congrArg MicroOut.after ho)
          split at hs <;> cases hs
          · exact hf _ _ this
          · exact hp _ _ _ this
        next ho => cases hs; exact hp _ _ _ (hm _ _ _ _ _ h1 (congrArg MicroOut.after ho))
        next ho => cases hs; exact hf _ _ (hm _ _ _ _ _ h1 (congrArg MicroOut.after ho))
        next ho => cases hs; exact hp _ _ _ h1
        next ho => cases hs

/-- A step has at most one event, and only `resolve` maps and only `open_channel_handle` opens a target. -/
theorem micro_trace {m : Micro} {j j' : Job} {s s' : State} (h : (micro m j s).after = some (j', s')) :
    (s'.trace = s.trace ∨ (∃ e, s'.trace = s.trace ++ [e] ∧ (∀ b, e ≠ .mapWindow b) ∧ ∀ t, e ≠ .i2cOpen t) ∨
      (∃ id, m = .resolve id) ∨ (∃ t, m = .openHandle t) ∨ ∃ p c, m = .openBus p c) := by
  cases m
  case oeRead l =>
    obtain ⟨r, ho⟩ | ⟨l, -, -, ho⟩ := stepOeRead_inv (ref := l) (j := j) (s := s) rfl <;>
      simp only [micro, ho, MicroOut.after] at h <;> cases h
    simp
  case sample l =>
    obtain ⟨r, ho⟩ | ⟨l, -, -, ho⟩ := sampleLine_inv (ref := l) (s := s) rfl <;>
      simp only [micro, stepSample, ho, MicroOut.after] at h <;> cases h
    exact .inr (.inl ⟨_, rfl, by simp, by simp⟩)
  case poll l v d =>
    obtain ⟨r, ho⟩ | ⟨l, -, -, ho⟩ := sampleLine_inv (ref := l) (s := s) rfl <;>
      simp only [micro, stepPoll, ho] at h
    · cases h
    repeat' split at h
    all_goals cases h
    all_goals exact .inr (.inl ⟨_, rfl, by simp, by simp⟩)
  case oeWrite l d =>
    obtain ⟨r, ho⟩ | ⟨l, -, -, ho⟩ := stepOeWrite_inv (ref := l) (d := d) (j := j) (s := s) rfl <;>
      simp only [micro, ho, MicroOut.after] at h <;> cases h
    exact .inr (.inl ⟨_, rfl, by simp, by simp⟩)
  case level l v =>
    obtain ⟨r, ho⟩ | ⟨l, -, -, ho⟩ := stepLevel_inv (ref := l) (v := v) (j := j) (s := s) rfl <;>
      simp only [micro, ho, MicroOut.after] at h <;> cases h
    exact .inr (.inl ⟨_, rfl, by simp, by simp⟩)
  case resolve => simp
  case openHandle => simp
  case openBus => simp
  all_goals
    simp only [micro, stepTakeSerial, stepTakeTwowire, stepReleaseSerial, demand,  stepCloseBus,
      stepEnterSecondary, stepLeaveSecondary, stepExchange, stepSendFrame, stepRawWrite, stepCheckRx, stepCheckCount,
      stepReturnRx, stepReturnByte, stepReturnCount, stepCheckFrameOp, stepSetExt, stepStopIfNoExt, 
      stepCheckExt, stepBusWrite, stepBusRead, stepPhase, stepThreshold, stepPackBits, stepValidate, stepInterpret, raise,
      stopOk, forgetProfiles] at h
    repeat' split at h
    all_goals cases h
    all_goals first | exact .inl rfl | exact .inr (.inl ⟨_, rfl, by simp, by simp⟩)

/-- `gpio.resolve` maps a window only where it is not mapped. -/
theorem resolve_once (id : BitVec 16) (s : State) :
    (resolvePin id s).2.i2cHandle = s.i2cHandle ∧
    (((resolvePin id s).2.winMapped = s.winMapped ∧ (resolvePin id s).2.trace = s.trace) ∨
    ∃ b : Fin 4, s.winMapped[b] = false ∧ (resolvePin id s).2.winMapped = s.winMapped.set b true ∧
      (resolvePin id s).2.trace = s.trace ++ [.mapWindow b]) := by
  unfold resolvePin
  cases hp : s.board.data.pin id with
  | none => exact ⟨rfl, .inl ⟨rfl, rfl⟩⟩
  | some l =>
    simp only [resolveLine]
    split
    · exact ⟨rfl, .inl ⟨rfl, rfl⟩⟩
    next hw =>
    split
    · split
      · exact ⟨rfl, .inr ⟨l.bank, by simpa using hw, rfl, rfl⟩⟩
      · exact ⟨rfl, .inl ⟨rfl, rfl⟩⟩
    · exact ⟨rfl, .inl ⟨rfl, rfl⟩⟩

/-- `open_channel_handle` opens a target only where it is not open. -/
theorem openTarget_once (t : BitVec 7) (s : State) :
    (openTarget t s).2.winMapped = s.winMapped ∧
    (((openTarget t s).2.i2cHandle = s.i2cHandle ∧ (openTarget t s).2.trace = s.trace) ∨
    (s.i2cHandle[t.toFin] = false ∧ (openTarget t s).2.i2cHandle = s.i2cHandle.set t.toFin true ∧
      (openTarget t s).2.trace = s.trace ++ [.i2cOpen t])) := by
  unfold openTarget
  split
  · exact ⟨rfl, .inl ⟨rfl, rfl⟩⟩
  next hw =>
  simp only
  split
  · exact ⟨rfl, .inr ⟨by simpa using hw, rfl, rfl⟩⟩
  · exact ⟨rfl, .inl ⟨rfl, rfl⟩⟩

/-- The events of `serial_bus.open`. -/
theorem openSerial_trace (p c) (s : State) : (openSerial p c s).2.trace = s.trace ∨ (openSerial p c s).2.trace = s.trace ++ [.spiOpen, .spiProfile c] := by
  unfold openSerial
  simp only
  split <;> simp

/-- What `gpio.resolve` does to the windows and the lines returned. -/
theorem resolvePin_lines (id : BitVec 16) (s : State) :
    ((resolvePin id s).2.winMapped = s.winMapped ∧ (resolvePin id s).2.resolved = s.resolved) ∨
    ∃ l, s.board.data.pin id = some l ∧ (resolvePin id s).2.resolved = noteLine l s.resolved ∧
      (resolvePin id s).2.winMapped[l.bank] = true ∧
      ∀ b : Fin 4, s.winMapped[b] = true → (resolvePin id s).2.winMapped[b] = true := by
  unfold resolvePin
  cases hp : s.board.data.pin id with
  | none => exact .inl ⟨rfl, rfl⟩
  | some l =>
    simp only [resolveLine]
    split
    next hw => exact .inr ⟨l, rfl, rfl, hw, fun _ h => h⟩
    split
    · split
      · refine .inr ⟨l, rfl, rfl, by simp, fun b h => ?_⟩
        simp only [emit_winMapped, Fin.getElem_fin, Vector.getElem_set]
        split
        · rfl
        · exact h
      · exact .inl ⟨rfl, rfl⟩
    · exact .inl ⟨rfl, rfl⟩

end Sys2Proof.Machine
end

