-- ==== Sys2Proof/Laws/Invariant.lean ====
section
/-! SUPPORT. The invariant of the machine through one step of an operation, its end and its parking. -/

namespace Sys2Proof.Machine

/-- Two states with the same values in the fields the invariant reads. -/
structure SameCtl (s t : State) : Prop where
  lockSerial : t.lockSerial = s.lockSerial
  lockTwowire : t.lockTwowire = s.lockTwowire
  spiOpen : t.spiOpen = s.spiOpen
  spiPrimary : t.spiPrimary = s.spiPrimary
  spiActive : t.spiActive = s.spiActive
  board : t.board = s.board
  resolved : t.resolved = s.resolved
  winMapped : t.winMapped = s.winMapped

/-- The invariant reads only those fields. -/
theorem InvWith.congr {js s t} (h : InvWith js s) (e : SameCtl s t) : InvWith js t := by
  obtain ⟨h1,h2,h3,h4,h5,h6⟩ := h
  refine ⟨h1, by rw [e.lockSerial]; exact h2, by rw [e.lockTwowire]; exact h3, fun j hj => ?_, ?_, ?_⟩
  · obtain ⟨g1,g2,g3⟩ := h4 j hj
    exact ⟨by rw [e.lockSerial]; exact g1, by rw [e.spiOpen, e.spiPrimary, e.spiActive, e.board]; exact g2, g3⟩
  · rw [e.spiOpen, e.spiPrimary, e.spiActive]; exact h5
  · rw [e.resolved, e.winMapped]; exact h6

/-- The order of the operations in flight does not matter. -/
theorem InvWith.perm {js ks s} (h : InvWith js s) (p : js.Perm ks) : InvWith ks s := by
  obtain ⟨h1,h2,h3,h4,h5,h6⟩ := h
  have pm : (js.map (fun j => j.who)).Perm (ks.map (fun j => j.who)) := p.map _
  exact ⟨pm.nodup_iff.1 h1, fun r hr => pm.mem_iff.1 (h2 r hr), fun r hr => pm.mem_iff.1 (h3 r hr),
    fun j hj => h4 j (p.mem_iff.2 hj), fun ho ha => h5 ho fun j hj => ha j (p.mem_iff.1 hj), h6⟩

/-- The operation taken is one of those in flight. -/
theorem takeJob_perm {w js j rest} (h : takeJob w js = some (j, rest)) : js.Perm (j :: rest) ∧ j.who = w := by
  induction js generalizing j rest with
  | nil => cases h
  | cons k ks ih =>
    simp only [takeJob] at h
    split at h
    · cases h; exact ⟨.refl _, by assumption⟩
    · split at h
      · cases h
      next k' ks' hk =>
        cases h
        have := ih hk
        exact ⟨(this.1.cons k).trans (.swap _ _ _), this.2⟩

/-- An operation with no profile saved ends. -/
theorem InvWith.fin {j js s} (h : InvWith (j :: js) s) (hs : j.saved = none) : InvWith js (finish j s) := by
  obtain ⟨h1,h2,h3,h4,h5,h6⟩ := h
  simp only [List.map_cons, List.nodup_cons] at h1
  have hk : ∀ k ∈ js, k.who ≠ j.who := fun k hk e => h1.1 (by rw [← e]; exact List.mem_map_of_mem hk)
  refine ⟨h1.2, ?_, ?_, ?_, ?_, h6⟩
  · intro r hr
    simp only [finish_lockSerial, unlock] at hr
    split at hr
    · cases hr
    · have := h2 r hr
      simp only [List.map_cons, List.mem_cons] at this
      rcases this with rfl | h; contradiction; exact h
  · intro r hr
    simp only [finish_lockTwowire, unlock] at hr
    split at hr
    · cases hr
    · have := h3 r hr
      simp only [List.map_cons, List.mem_cons] at this
      rcases this with rfl | h; contradiction; exact h
  · intro k hkm
    obtain ⟨g1,g2,g3⟩ := h4 k (by simp [hkm])
    refine ⟨?_, g2, g3⟩
    have : ((finish j s).lockSerial == some k.who) = (s.lockSerial == some k.who) := by
      simp only [finish_lockSerial, unlock]
      split
      next e => rw [e]; simp [(hk k hkm).symm]
      · rfl
    rw [this]; exact g1
  · intro ho ha
    exact h5 ho (by simpa [hs] using ha)

/-- While a step touches the bus profile no other operation has one saved. -/
theorem lock_other {j js s m} {win : Bool} {ms : List Micro} (h : InvWith (j :: js) s)
    (hd : disciplined (s.lockSerial == some j.who) win (m :: ms) = true)
    (hm : (∃ p c, m = .openBus p c) ∨ m = .closeBus ∨ m = .enterSecondary ∨ m = .leaveSecondary) :
    (∀ k ∈ js, k.saved = none) := by
  have := (disciplined_locked hd hm).1
  simp at this
  intro k hk
  cases hks : k.saved with
  | none => rfl
  | some p =>
    have h1 := h.one_each
    simp only [List.map_cons, List.nodup_cons] at h1
    have := (h.jobs k (by simp [hk])).saved_locked hks
    have e : k.who = j.who := by simp_all
    exact absurd (e ▸ List.mem_map_of_mem (f := fun j => j.who) hk) h1.1


theorem saved_none {j : Job} {win : Bool} (hw : j.saved.isSome = true → win = true) (h : win = false) : j.saved = none := by
  cases hjs : j.saved with
  | none => rfl
  | some q => rw [h, hjs] at hw; exact absurd (hw rfl) (by simp)

/-- What a step does to `lock.serial`. -/
theorem lock_step {n m j s j1 s1} {ser win : Bool} (f : Frame m j s j1 s1) (hser : ser = (s.lockSerial == some j.who))
    (ho : settle n m j s = .go j1 s1) :
    (s1.lockSerial == some j.who) = (m.next ser win).1 ∧
      (∀ k, k ≠ j.who → (s1.lockSerial == some k) = (s.lockSerial == some k)) := by
  by_cases ht : m = .takeSerial
  · subst ht
    rw [settle_not_poll (by simp)] at ho
    simp only [micro, stepTakeSerial] at ho
    split at ho
    next e => cases ho; refine ⟨by simp [Micro.next], fun k hk => ?_⟩; simp [e, hk.symm]
    next e =>
      split at ho <;> cases ho
      next e' => simp [Micro.next, e, e']
  by_cases hr : m = .releaseSerial
  · subst hr
    rw [settle_not_poll (by simp)] at ho
    simp only [micro, stepReleaseSerial] at ho
    cases ho
    simp only [Micro.next, unlock]
    split
    next e => refine ⟨by simp, fun k hk => ?_⟩; simp [e, hk.symm]
    next e => simp [e]
  have := f.lockSerial ht hr
  rw [this, ← hser]
  refine ⟨?_, fun _ _ => rfl⟩
  cases m <;> first | rfl | exact absurd rfl ht | exact absurd rfl hr

/-- What a step does to `lock.twowire`. -/
theorem twowire_step {n m j s j1 s1} (f : Frame m j s j1 s1) 
    (ho : settle n m j s = .go j1 s1) {r : Nat} (hr : s1.lockTwowire = some r) (e : r ≠ j.who) :
    s.lockTwowire = some r := by
  by_cases ht : m = .takeTwowire
  · subst ht
    rw [settle_not_poll (by simp)] at ho
    simp only [micro, stepTakeTwowire] at ho
    split at ho
    next => cases ho; simp at hr; exact absurd hr.symm e
    next => 
      split at ho <;> cases ho
      exact hr
  · rwa [f.lockTwowire ht] at hr

/-- What a step does to the bus profile. -/
theorem profile_step {n m j s j1 s1 ms} {ser win : Bool} {others : Prop} (f : Frame m j s j1 s1)
    (ho : settle n m j s = .go j1 s1) (hd : disciplined ser win (m :: ms) = true)
    (hw : j.saved.isSome = true → win = true)
    (hsp : ∀ p, j.saved = some p → s.spiOpen = true → p = s.spiPrimary ∧ s.spiActive = s.board.secondary)
    (hpr : s.spiOpen = true → j.saved = none → others → s.spiActive = s.spiPrimary)
    (hoth : ((∃ p c, m = .openBus p c) ∨ m = .closeBus ∨ m = .enterSecondary ∨ m = .leaveSecondary) → others) :
    (∀ p, j1.saved = some p → s1.spiOpen = true → p = s1.spiPrimary ∧ s1.spiActive = s1.board.secondary) ∧
      (j1.saved.isSome = true → (m.next ser win).2 = true) ∧
      (s1.spiOpen = true → j1.saved = none → others → s1.spiActive = s1.spiPrimary) := by
  by_cases hm : (∃ p c, m = .openBus p c) ∨ m = .closeBus ∨ m = .enterSecondary ∨ m = .leaveSecondary
  · have hn := hoth hm
    have hl := (disciplined_locked hd hm).2
    rcases hm with ⟨p, c, rfl⟩ | rfl | rfl | rfl
    all_goals rw [settle_not_poll (by simp)] at ho
    · have hs := saved_none hw (by simpa using hl)
      simp only [micro, stepOpenBus, openSerial, emit] at ho
      split at ho <;> cases ho
      next hop =>
      have hop' : s.spiOpen = false := by simpa using hop
      split <;> simp [hs, hop']
    · have hs := saved_none hw (by simpa using hl)
      simp only [micro, stepCloseBus, emit] at ho
      cases ho
      simp [hs]
    · have hs := saved_none hw (by simpa using hl)
      simp only [micro, stepEnterSecondary, emit] at ho
      split at ho <;> cases ho
      · simp [Micro.next]
        exact fun a => hpr a hs hn
      · simp [hs]
        exact fun a b => hpr a hs b
    · simp only [micro, stepLeaveSecondary, emit] at ho
      split at ho <;> cases ho
      next p hp => simp; exact fun a _ => (hsp p hp a).1
      next hp => simp [hp]; exact fun a b => hpr a hp b
  · simp only [not_or, not_exists] at hm
    have g1 := f.openClose hm.1 hm.2.1
    have g2 := f.active hm.1 hm.2.1 hm.2.2.1 hm.2.2.2
    have g3 := f.rest.2.1
    rw [g1.1, g1.2, g2.1, g2.2, g3]
    refine ⟨hsp, ?_, hpr⟩
    intro hh
    have := hw hh; subst this
    cases m <;> first | rfl | exact absurd rfl hm.2.2.2

/-- A step keeps every returned line in a mapped window. -/
theorem resolved_step {n m j s j1 s1} (f : Frame m j s j1 s1)
    (ho : settle n m j s = .go j1 s1) (h6 : ∀ l, s.resolved.contains l = true → s.winMapped[l.bank] = true) :
    ∀ l, s1.resolved.contains l = true → s1.winMapped[l.bank] = true := by
  by_cases hr : ∃ id, m = .resolve id
  · obtain ⟨id, rfl⟩ := hr
    rw [settle_not_poll (by simp)] at ho
    simp only [micro, stepResolve] at ho
    injection ho with _ ho
    subst ho
    obtain ⟨h1, h2⟩ | ⟨l0, -, h1, h2, h3⟩ := resolvePin_lines id s
    · rw [h1, h2]; exact h6
    · intro l hl
      rw [h1, noteLine] at hl
      by_cases e : l = l0
      · subst e; exact h2
      · refine h3 _ (h6 l ?_)
        split at hl
        · exact hl
        · simpa [e] using hl
  · have := f.resolved (by simpa using hr)
    rw [this.1, this.2]; exact h6

/-- An operation makes a step. -/
theorem InvWith.step {n j j1 js s s1 m ms} (h : InvWith ({j with todo := m :: ms} :: js) s)
    (f : Frame m j s j1 s1)
    (ho : settle n m j s = .go j1 s1) 
    (hcnt : ∀ c ∈ j1.dht.count :: (j1.dht.low ++ j1.dht.high), c ≤ Config.dhtSpinBound) :
    InvWith ({j1 with todo := ms} :: js) s1 := by
  obtain ⟨h1,h2,h3,h4,h5,h6⟩ := id h
  have hj := h4 _ (List.mem_cons_self ..)
  obtain ⟨⟨win, hd, hw⟩, hsp, hcb⟩ := hj
  simp only at hd hw hsp
  simp only [List.map_cons, List.nodup_cons] at h1
  have hk : ∀ k ∈ js, k.who ≠ j.who := fun k hk e => h1.1 (by rw [← e]; exact List.mem_map_of_mem hk)
  have hlock := lock_step (win := win) f rfl ho
  have hm' := f.job.1
  have hoth := fun hm => lock_other h hd hm
  have hprof := profile_step f ho hd hw hsp (fun a b c => h5 a (by simp [b]; exact c)) hoth
  refine ⟨?_, ?_, ?_, ?_, ?_, ?_⟩
  · simp only [List.map_cons, List.nodup_cons, hm']; exact h1
  · intro r hr
    simp only [List.map_cons, List.mem_cons, hm']
    by_cases e : r = j.who
    · exact .inl e
    · have := hlock.2 r e
      simp [hr] at this
      have := h2 r this
      simpa using this
  · intro r hr
    simp only [List.map_cons, List.mem_cons, hm']
    by_cases e : r = j.who
    · exact .inl e
    · simpa using h3 r (twowire_step f ho hr e)
  · intro k hkm
    simp only [List.mem_cons] at hkm
    rcases hkm with rfl | hkm
    · refine ⟨⟨(m.next (s.lockSerial == some j.who) win).2, ?_, hprof.2.1⟩, hprof.1, hcnt⟩
      simp only [hm', hlock.1]
      exact disciplined_tail hd
    · obtain ⟨g1,g2,g3⟩ := h4 k (by simp [hkm])
      refine ⟨by rw [hlock.2 _ (hk k hkm)]; exact g1, ?_, g3⟩
      intro p hp
      by_cases hm : (∃ p c, m = .openBus p c) ∨ m = .closeBus ∨ m = .enterSecondary ∨ m = .leaveSecondary
      · have := hoth hm k hkm
        rw [this] at hp; cases hp
      · simp only [not_or, not_exists] at hm
        have g1 := f.openClose hm.1 hm.2.1
        have g2' := f.active hm.1 hm.2.1 hm.2.2.1 hm.2.2.2
        rw [g1.1, g1.2, g2'.1, f.rest.2.1]
        exact g2 p hp
  · intro a b
    exact hprof.2.2 a (b {j1 with todo := ms} (List.mem_cons_self ..)) (fun k hk => b k (by simp [hk])) 
  · exact resolved_step f ho h6


/-- A step keeps the counts within their bound. -/
theorem dht_step {n m j s j1 s1} (h : settle n m j s = .go j1 s1 ∨ settle n m j s = .again j1 s1)
    (hb : ∀ c ∈ j.dht.count :: (j.dht.low ++ j.dht.high), c ≤ Config.dhtSpinBound) :
    ∀ c ∈ j1.dht.count :: (j1.dht.low ++ j1.dht.high), c ≤ Config.dhtSpinBound := by
  have hmic : ∀ j s j1 s1 l v d, (micro (.poll l v d) j s = .go j1 s1 ∨ micro (.poll l v d) j s = .again j1 s1) →
    (∀ c ∈ j.dht.count :: (j.dht.low ++ j.dht.high), c ≤ Config.dhtSpinBound) →
    ∀ c ∈ j1.dht.count :: (j1.dht.low ++ j1.dht.high), c ≤ Config.dhtSpinBound := by
    intro j s j1 s1 l v d h hb
    simp only [micro, stepPoll] at h
    split at h
    · simp at h
    split at h
    · split at h
      · simp [raise] at h
      · simp only [reduceCtorEq, MicroOut.again.injEq, false_or] at h
        rw [← h.1]
        intro c hc
        simp only [List.mem_cons] at hc
        rcases hc with rfl | hc
        · show j.dht.count + 1 ≤ _; omega
        · exact hb c (by simp [hc])
    · simp only [reduceCtorEq, MicroOut.go.injEq, or_false] at h
      rw [← h.1]
      intro c hc
      have := hb j.dht.count (by simp)
      simp only [List.mem_cons, List.mem_append] at hc
      cases d <;> simp only [Dht.store, List.mem_append, List.mem_singleton] at hc
      · rcases hc with hc | hc | hc
        · omega
        · exact hb c (by simp [hc])
        · exact hb c (by simp [hc])
      · rcases hc with hc | (hc | hc) | hc
        · omega
        · exact hb c (by simp [hc])
        · omega
        · exact hb c (by simp [hc])
      · rcases hc with hc | hc | (hc | hc)
        · omega
        · exact hb c (by simp [hc])
        · exact hb c (by simp [hc])
        · omega
  by_cases hm : ∀ l v d, m ≠ .poll l v d
  · have f : Frame m j s j1 s1 := settle_frame (by rcases h with h | h <;> exact congrArg MicroOut.after h)
    have := f.dht hm
    rw [this.1, this.2.1, this.2.2]; exact hb
  · simp only [ne_eq, not_forall, not_not] at hm
    obtain ⟨l, v, d, rfl⟩ := hm
    induction n generalizing j s with
    | zero => exact hmic _ _ _ _ _ _ _ h hb
    | succ n ih =>
      cases ho : micro (.poll l v d) j s with
      | again j1 s1 =>
        simp only [settle, ho] at h
        exact ih (hmic _ _ _ _ _ _ _ (.inr ho) hb) h
      | go j2 s2 => exact hmic j s _ _ l v d (by rw [ho]; simpa only [settle, ho] using h) hb
      | stop j2 s2 => simp [settle, ho] at h
      | wait => simp [settle, ho] at h
      | refuse r => simp [settle, ho] at h

/-- An operation stays at its step. -/
theorem InvWith.stay {n j j1 js s s1 m ms} (h : InvWith ({j with todo := m :: ms} :: js) s)
    (ho : settle n m j s = .again j1 s1) : InvWith ({j1 with todo := m :: ms} :: js) s1 := by
  have k := settle_stop_locks (.inr ho)
  have f : Frame m j s j1 s1 := settle_frame (congrArg MicroOut.after ho)
  have h0 := h.congr (t := s1) ⟨k.1, k.2.1, k.2.2.1, k.2.2.2.1, k.2.2.2.2.1, f.rest.2.1, k.2.2.2.2.2.2.2.1, k.2.2.2.2.2.2.1⟩
  obtain ⟨h1,h2,h3,h4,h5,h6⟩ := h0
  have hs := k.2.2.2.2.2.1
  have hj := f.job.1
  refine ⟨by simpa [hj] using h1, by simpa [hj] using h2, by simpa [hj] using h3, ?_, by simpa [hs] using h5, h6⟩
  intro k hk
  simp only [List.mem_cons] at hk
  rcases hk with rfl | hk
  · obtain ⟨g1, g2, g3⟩ := h4 _ (List.mem_cons_self ..)
    refine ⟨by simpa [hj, hs] using g1, by simpa [hs] using g2, dht_step (j := j) (j1 := j1) (.inr ho) g3⟩
  · exact h4 k (by simp [hk])

/-- An operation ends early. -/
theorem InvWith.ended {n j j1 js s s1 m ms} (h : InvWith ({j with todo := m :: ms} :: js) s)
    (ho : settle n m j s = .stop j1 s1) (he : m.ends = true) : InvWith js (finish j1 s1) := by
  have k := settle_stop_locks (.inl ho)
  have f : Frame m j s j1 s1 := settle_frame (congrArg MicroOut.after ho)
  have h0 := h.congr (t := s1) ⟨k.1, k.2.1, k.2.2.1, k.2.2.2.1, k.2.2.2.2.1, f.rest.2.1, k.2.2.2.2.2.2.2.1, k.2.2.2.2.2.2.1⟩
  have : j.saved = none := by
    obtain ⟨win, hd, hw⟩ := (h.jobs _ (List.mem_cons_self ..)).section_whole
    exact saved_none hw (disciplined_ends hd he)
  have := h0.fin this
  refine this.congr ?_
  constructor <;> simp [f.job.1]

/-- An operation has no step left. -/
theorem InvWith.done {j js s} (h : InvWith ({j with todo := []} :: js) s) : InvWith js (Machine.finish j s) := by
  have : j.saved = none := by
    obtain ⟨win, hd, hw⟩ := (h.jobs _ (List.mem_cons_self ..)).section_whole
    exact saved_none hw (by simpa [disciplined] using hd)
  have := h.fin this
  refine this.congr ?_
  constructor <;> simp

/-- An operation is put into flight. -/
theorem InvWith.park {j js s ms} (h : InvWith ({j with todo := ms} :: js) s) (hi : s.inflight = js) : Inv (Machine.park j ms s) := by
  unfold Inv
  simp only [park_inflight, hi]
  refine (h.perm (by simpa using (List.perm_append_singleton _ js).symm)).congr ?_
  constructor <;> rfl

theorem finish_inv {j js s} (h : InvWith js (finish j s)) (hi : s.inflight = js) : Inv (Machine.finish j s) := by
  unfold Inv
  simpa [hi] using h

/-- An operation runs as far as it can. -/
theorem runCode_inv {code j js s t} (h : InvWith ({j with todo := code} :: js) s) (hi : s.inflight = js) 
    (hr : runCode code j s = .next t) : Inv t := by
  induction code generalizing j s with
  | nil => 
    simp only [runCode] at hr; cases hr
    exact finish_inv h.done hi
  | cons m ms ih =>
    have hc := (h.jobs _ (List.mem_cons_self ..)).counts_bounded
    obtain ⟨j1, s1, h1, f, hr⟩ | ⟨he, ⟨j1, s1, h1, f, rfl⟩ | ⟨j1, s1, h1, f, rfl⟩ | ⟨h1, rfl⟩⟩ := runCode_step hr
    · exact ih (h.step f h1 (dht_step (.inl h1) hc)) (f.rest.1.trans hi) hr
    · exact (h.stay h1).park (f.rest.1.trans hi)
    · exact finish_inv (h.ended h1 he) (f.rest.1.trans hi)
    · exact h.park hi

/-- An operation makes one step. -/
theorem grainJob_inv {j js s t} (h : InvWith (j :: js) s) (hi : s.inflight = js) 
    (hr : grainJob j s = .next t) : Inv t := by
  unfold grainJob at hr
  split at hr
  next hn => cases hr; exact finish_inv (InvWith.done (by rw [← hn]; exact h)) hi
  next m ms hn => 
    have h : InvWith ({j with todo := m :: ms} :: js) s := by rw [← hn]; exact h
    have hc := (h.jobs _ (List.mem_cons_self ..)).counts_bounded
    split at hr
    next j1 s1 h1 => 
      have f : Frame m j s j1 s1 := micro_frame (congrArg MicroOut.after h1)
      have := h.step (n := 0) f h1 (dht_step (n := 0) (.inl h1) hc)
      split at hr
      next hz => subst hz; cases hr; exact finish_inv this.done (f.rest.1.trans hi)
      next => cases hr; exact this.park (f.rest.1.trans hi)
    next j1 s1 h1 => 
      have f : Frame m j s j1 s1 := micro_frame (congrArg MicroOut.after h1)
      cases hr
      exact (h.stay (n := 0) h1).park (f.rest.1.trans hi)
    next j1 s1 h1 => 
      have f : Frame m j s j1 s1 := micro_frame (congrArg MicroOut.after h1)
      cases hr
      refine finish_inv (h.ended (n := 0) h1 ?_) (f.rest.1.trans hi)
      cases he : m.ends
      · obtain ⟨j', s', h2⟩ | ⟨r, h2⟩ := micro_goes he j s <;> simp [h1] at h2
      · rfl
    next => cases hr; exact h.park hi
    next => cases hr

/-- A new operation. -/
theorem fresh_inv {s : State} {i : Instr} (h : Inv s) (hb : busy s.cur s = false) :
    InvWith ({Job.fresh s.cur i (codeOf i) with todo := codeOf i} :: s.inflight) s := by
  obtain ⟨h1,h2,h3,h4,h5,h6⟩ := h
  have hb' : s.cur ∉ s.inflight.map (fun j => j.who) := by
    simp only [busy, List.any_eq_false, beq_iff_eq] at hb
    simp only [List.mem_map, not_exists, not_and]
    exact hb
  refine ⟨?_, fun r hr => by simp [Job.fresh]; exact .inr (by simpa using h2 r hr), fun r hr => by simp [Job.fresh]; exact .inr (by simpa using h3 r hr), ?_, ?_, h6⟩
  · simp only [List.map_cons, List.nodup_cons, Job.fresh]; exact ⟨hb', h1⟩
  · intro k hk
    simp only [List.mem_cons] at hk
    rcases hk with rfl | hk
    · refine ⟨⟨false, ?_, by simp [Job.fresh]⟩, by simp [Job.fresh], by simp [Job.fresh, Dht.fresh]⟩
      cases he : (s.lockSerial == some (Job.fresh s.cur i (codeOf i)).who)
      · exact codeOf_disciplined i
      · exact disciplined_mono (codeOf_disciplined i)
    · exact h4 k hk
  · intro a b; exact h5 a fun k hk => b k (by simp [hk])

end Sys2Proof.Machine
end

