-- ==== Sys2Proof/Laws/Lines.lean ====
section
/-! SUPPORT. Lines: a latch or direction bit written leaves the others alone, and what the GPIO operations leave where they
answer a next state. -/

namespace Sys2Proof.Machine

/-- The latch bit written. -/
theorem setLatch_same (l : Line) (v : Bool) (d : Vector Word 4) :
    lineBit (setLatch l v d)[l.bank] l = v := by
  unfold setLatch
  have hm := l.bit.isLt
  cases v <;> simp [lineBit, mask, hm]

/-- Another line's latch bit (20_memory.md R76). -/
theorem setLatch_other {l m : Line} (h : m ≠ l) (v : Bool) (d : Vector Word 4) :
    lineBit (setLatch l v d)[m.bank] m = lineBit d[m.bank] m := by
  unfold setLatch
  simp only [Fin.getElem_fin, Vector.getElem_set]
  split
  next hb =>
    have hne : m.bit.val ≠ l.bit.val := by
      intro e
      apply h
      cases m; cases l; simp only [Line.mk.injEq] at *
      exact ⟨Fin.ext hb.symm, Fin.ext e⟩
    have hb' : l.bank.val = m.bank.val := hb
    have hm := m.bit.isLt
    have : d[l.bank.val] = d[m.bank.val] := by simp only [hb']
    rw [← this]
    split <;> simp [lineBit, mask, hm] <;> intros <;> omega
  next => rfl

/-- Writing the level a latch bit already has changes nothing. -/
theorem setLatch_idem {l : Line} {v : Bool} {d : Vector Word 4} (h : lineBit d[l.bank] l = v) : setLatch l v d = d := by
  unfold setLatch
  have hm := l.bit.isLt
  ext b hb k hk
  simp only [Fin.getElem_fin, Vector.getElem_set]
  split
  next e =>
    simp only [lineBit, Fin.getElem_fin] at h
    subst e
    cases v <;> simp [mask] <;> intro x <;> by_cases hkk : k = l.bit.val <;> simp_all
    all_goals omega
  · rfl

/-- Another line's direction bit. -/
theorem withDir_other {l m : Line} (h : m ≠ l) (hb : m.bank = l.bank) (d : Dir) (v : Word) :
    lineBit (withDir v l d) m = lineBit v m := by
  have hne : m.bit.val ≠ l.bit.val := by
    intro e
    apply h
    cases m; cases l; simp only [Line.mk.injEq] at *
    exact ⟨hb, Fin.ext e⟩
  have hm := m.bit.isLt
  cases d <;> simp [withDir, lineBit, mask, hm] <;> intros <;> omega

/-- A level step of a role line, seen on the latch of any role line. -/
theorem latch_role (s s1 : State) {ref r r' v} {j j1 : Job} (hb : ref = .role r') (h : stepLevel ref v j s = .go j1 s1) :
    latch s1 (s.board.roleLine r) = (if r' = r then v else latch s (s.board.roleLine r)) := by
  subst hb
  obtain ⟨r, ho⟩ | ⟨l', h1, -, ho⟩ := stepLevel_inv h
  · cases ho
  · cases ho
    have : l' = s.board.roleLine r' := by
      simp only [lineOf] at h1
      split at h1 <;> cases h1
      rfl
    subst this
    simp only [latch, emit_dataOut]
    split
    next e => subst e; rw [setLatch_same]
    next e => rw [setLatch_other]; intro h; exact e (s.board.roleLine_inj h.symm)

/-- A direction operation that answers a next state (R122, R123). -/
theorem direction_inv {i : Instr} {l : Line} {d : Dir} {s t : State} (h : execCode i [.oeRead (.line l), .oeWrite (.line l) d] s = .next t) :
    t.oe = s.oe.set l.bank (withDir s.oe[l.bank] l d) ∧ t.dataOut = s.dataOut ∧ t.board = s.board := by
  unfold execCode at h
  split at h
  · cases h
  have hl : ∀ {l'}, lineOf s (.line l) = .ok l' → l' = l := by
    intro l' hl'
    simp only [lineOf] at hl'
    split at hl' <;> cases hl'
    rfl
  obtain ⟨r, ho⟩ | ⟨l', h1, -, ho⟩ := stepOeRead_inv (ref := .line l) (j := Job.fresh s.cur i [.oeRead (.line l), .oeWrite (.line l) d]) (s := s) rfl
  · rw [runCode_refuse (by exact ho)] at h; cases h
  · rw [runCode_go (by exact ho)] at h
    rw [hl h1] at h
    generalize hj : ({ Job.fresh s.cur i [.oeRead (.line l), .oeWrite (.line l) d] with oeWord := s.oe[l.bank] } : Job) = j at h
    obtain ⟨r, ho⟩ | ⟨l', h1, -, ho⟩ := stepOeWrite_inv (ref := .line l) (d := d) (j := j) (s := s) rfl
    · rw [runCode_refuse (by exact ho)] at h; cases h
    · rw [runCode_go (by exact ho), runCode_nil] at h
      cases h
      rw [hl h1]
      simp [← hj]

/-- A level operation that answers a next state (R124, R125). -/
theorem level_inv {i : Instr} {l : Line} {v : Bool} {s t : State} (h : execCode i [.level (.line l) v] s = .next t) :
    t.dataOut = setLatch l v s.dataOut ∧ t.oe = s.oe ∧ t.board = s.board := by
  unfold execCode at h
  split at h
  · cases h
  have hl : ∀ {l'}, lineOf s (.line l) = .ok l' → l' = l := by
    intro l' hl'
    simp only [lineOf] at hl'
    split at hl' <;> cases hl'
    rfl
  obtain ⟨r, ho⟩ | ⟨l', h1, -, ho⟩ := stepLevel_inv (ref := .line l) (v := v) (j := Job.fresh s.cur i [.level (.line l) v]) (s := s) rfl
  · rw [runCode_refuse (by exact ho)] at h; cases h
  · rw [runCode_go (by exact ho), runCode_nil] at h
    cases h
    rw [hl h1]
    simp

end Sys2Proof.Machine
end

