-- ==== Sys2Proof/Laws/PerInstr.lean ====
section
/-! SUPPORT. One lemma per instruction: its encoding, followed by any bytes, decodes to it and leaves those bytes. -/

namespace Sys2Proof.Laws.RoundTrip

/-- The instruction is read back from its own bytes, whatever follows them. -/
def Statement (i : Instr) : Prop :=
  i.encodable = true → ∀ rest : List Byte, decodePrefix (encode i).1 ((encode i).2 ++ rest) = .ok (i, rest)

/-- A command is read by its opcode. -/
theorem decodePrefix_command (o : Op) (bs : List Byte) :
    decodePrefix .command (o.code :: bs) = takeOperands o bs := by
  simp only [decodePrefix, decodeCommand, ofByte_code]

/-- A frame of a known operation is read by its fields. -/
theorem decodePrefix_frame (a : BitVec 4) (op : BitVec 3) (rest : List Byte) :
    decodePrefix .addressFrame (addressFrame a op :: rest) = (frameInstr a op).map (fun i => (i, rest)) := by
  obtain ⟨h1, h2, h3⟩ := addressFrame_fields a op
  simp only [decodePrefix, decodeFrame, h1, h2, h3, if_true]
  cases frameInstr a op <;> rfl

theorem length_of_lenMatches {len : BitVec 16} {data : List Byte} (h : Instr.lenMatches len data = true) :
    data.length = len.toNat := by
  simpa [Instr.lenMatches] using h

theorem gpioResolve (id : BitVec 16) : Statement (.gpioResolve id) := by
  intro _ rest
  simp only [encode, List.cons_append, decodePrefix_command, takeOperands, takeHalf_put, bind, Except.bind]

theorem gpioSetOutput (l : Line) : Statement (.gpioSetOutput l) := by
  intro _ rest
  simp only [encode, List.cons_append, decodePrefix_command, takeOperands, takeLine_put, bind, Except.bind]

theorem gpioSetInput (l : Line) : Statement (.gpioSetInput l) := by
  intro _ rest
  simp only [encode, List.cons_append, decodePrefix_command, takeOperands, takeLine_put, bind, Except.bind]

theorem gpioSetHigh (l : Line) : Statement (.gpioSetHigh l) := by
  intro _ rest
  simp only [encode, List.cons_append, decodePrefix_command, takeOperands, takeLine_put, bind, Except.bind]

theorem gpioSetLow (l : Line) : Statement (.gpioSetLow l) := by
  intro _ rest
  simp only [encode, List.cons_append, decodePrefix_command, takeOperands, takeLine_put, bind, Except.bind]

theorem gpioRead (l : Line) : Statement (.gpioRead l) := by
  intro _ rest
  simp only [encode, List.cons_append, decodePrefix_command, takeOperands, takeLine_put, bind, Except.bind]

theorem serialOpen (path : List Byte) (mode : BitVec 2) (word : BitVec 8) (speed : BitVec 32) :
    Statement (.serialOpen path mode word speed) := by
  intro h rest
  have hp : path.length = (BitVec.ofNat 16 path.length).toNat := by
    simp only [Instr.encodable, decide_eq_true_eq] at h
    rw [BitVec.toNat_ofNat, Nat.mod_eq_of_lt h]
  simp only [encode, List.cons_append, List.append_assoc, decodePrefix_command, takeOperands, takeBuffer_put hp,
    takeField_put (w := 2) (by decide), takeField_put (w := 8) (by decide), takeWord_put, bind, Except.bind]

theorem serialTransfer (len : BitVec 16) (tx : List Byte) : Statement (.serialTransfer len tx) := by
  intro h rest
  simp only [encode, List.cons_append, decodePrefix_command, takeOperands, takeBuffer_put (length_of_lenMatches h),
    bind,
    Except.bind]

theorem serialTransferSecondary (len : BitVec 16) (tx : List Byte) : Statement (.serialTransferSecondary len tx) := by
  intro h rest
  simp only [encode, List.cons_append, decodePrefix_command, takeOperands, takeBuffer_put (length_of_lenMatches h),
    bind,
    Except.bind]

theorem serialClose  : Statement .serialClose := by
  intro _ rest
  simp only [encode, List.cons_append, List.nil_append, decodePrefix_command, takeOperands]

theorem addrSelect (address : BitVec 4) (operation : BitVec 3) : Statement (.addrSelect address operation) := by
  intro _ rest
  simp only [encode, List.cons_append, List.append_assoc, decodePrefix_command, takeOperands,
    takeField_put (w := 4) (by decide), takeField_put (w := 3) (by decide), bind, Except.bind]

theorem addrWrite (address : BitVec 4) (len : BitVec 16) (data : List Byte) :
    Statement (.addrWrite address len data) := by
  intro h rest
  simp only [encode, List.cons_append, List.append_assoc, decodePrefix_command, takeOperands,
    takeBuffer_put (length_of_lenMatches h), takeField_put (w := 4) (by decide), bind, Except.bind]

theorem addrRead (address : BitVec 4) : Statement (.addrRead address) := by
  intro _ rest
  simp only [encode, List.cons_append, decodePrefix_command, takeOperands, takeField_put (w := 4) (by decide), bind,
    Except.bind]

theorem addrSetExt (address : BitVec 4) : Statement (.addrSetExt address) := by
  intro _ rest
  simp only [encode, List.cons_append, decodePrefix_command, takeOperands, takeField_put (w := 4) (by decide), bind,
    Except.bind]

theorem addrUnselectExt  : Statement .addrUnselectExt := by
  intro _ rest
  simp only [encode, List.cons_append, List.nil_append, decodePrefix_command, takeOperands]

theorem regOpenHandle (target : BitVec 7) : Statement (.regOpenHandle target) := by
  intro _ rest
  simp only [encode, List.cons_append, decodePrefix_command, takeOperands, takeField_put (w := 7) (by decide), bind,
    Except.bind]

theorem regSelect (loc : BitVec 2) (extPresent : Bool) (ext : BitVec 4) :
    Statement (.regSelect loc extPresent ext) := by
  intro _ rest
  simp only [encode, List.cons_append, List.append_assoc, decodePrefix_command, takeOperands,
    takeField_put (w := 2) (by decide), takeFlag_put, takeField_put (w := 4) (by decide), bind, Except.bind]

theorem regRead (target : BitVec 7) (noAddr : Bool) (reg : Byte) (len : BitVec 16) :
    Statement (.regRead target noAddr reg len) := by
  intro _ rest
  simp only [encode, List.cons_append, List.append_assoc, decodePrefix_command, takeOperands,
    takeField_put (w := 7) (by decide), takeFlag_put, takeField_put (w := 8) (by decide), takeHalf_put, bind,
    Except.bind]

theorem regWrite (target : BitVec 7) (noAddr : Bool) (reg : Byte) (len : BitVec 16) (data : List Byte) :
    Statement (.regWrite target noAddr reg len data) := by
  intro h rest
  simp only [encode, List.cons_append, List.append_assoc, decodePrefix_command, takeOperands,
    takeBuffer_put (length_of_lenMatches h), takeField_put (w := 7) (by decide), takeField_put (w := 8) (by decide),
    takeFlag_put, bind, Except.bind]

theorem wireRead (kind : SensorKind) (l : Line) : Statement (.wireRead kind l) := by
  intro _ rest
  simp only [encode, List.cons_append, List.append_assoc, decodePrefix_command, takeOperands, takeFlag_put,
    takeLine_put, bind, Except.bind]
  cases kind <;> rfl

theorem frameWrite (address : BitVec 4) :
    Statement (.frameWrite address) := fun _ rest => decodePrefix_frame address _ rest

theorem frameReadReady (address : BitVec 4) :
    Statement (.frameReadReady address) := fun _ rest => decodePrefix_frame address _ rest

theorem frameReadExec (address : BitVec 4) :
    Statement (.frameReadExec address) := fun _ rest => decodePrefix_frame address _ rest

end Sys2Proof.Laws.RoundTrip
end

