-- ==== Sys2Proof/Laws/Polls.lean ====
section
/-! SUPPORT. Polled measurements (44_single_wire.md R205): one poll on a ready line, and a whole measurement on a line whose
levels are scripted. -/

namespace Sys2Proof.Machine

/-- The state after one sample of a line. -/
def polled (l : Line) (v : Bool) (s : State) : State :=
  emit (.gpioSample l v) { s with env := s.env.askPads.2.askDriven.2 }

/-- One sample takes one scripted level word. -/
theorem polled_pads (l v) (s : State) : (polled l v s).env.pads = s.env.pads.tail := by
  simp only [polled, emit_env, Env.askDriven, Env.askPads]
  cases h : s.env.pads <;> simp [nextAnswer, anyAnswer]

/-- One poll on a ready line. -/
theorem stepPoll_ready {s : State} {j : Job} {l : Line} (h : LineReady s l) (level dest) :
    stepPoll (.line l) level dest j s =
      if sampledBit s l = level then
        (if j.dht.count + 1 > Config.dhtSpinBound then
          .stop { j with dht := { j.dht with count := j.dht.count + 1 }, result := .error .timeout } (polled l (sampledBit s l) s)
        else .again { j with dht := { j.dht with count := j.dht.count + 1 } } (polled l (sampledBit s l) s))
      else .go { j with dht := j.dht.store dest } (polled l (sampledBit s l) s) := by
  simp only [stepPoll, sampleLine_ready (lineOf_line h.1) h.2, raise, polled]

/-- The level an input line shows where levels are scripted. -/
theorem sampled_head {s : State} {l : Line} {w : Word} {ws} (hi : lineBit s.oe[l.bank] l = true) (hp : s.env.pads = w :: ws) :
    sampledBit s l = lineBit w l := by
  simp only [sampledBit, hi, if_true, Env.askPads, hp, nextAnswer, anyAnswer]

/-- `n` polls that see the level and one that does not. -/
theorem measure_go (n : Nat) {s : State} {j : Job} {l : Line} {level : Bool} {dest : CountDest} {ws rest : List Word} {w : Word}
    (hr : LineReady s l) (hi : lineBit s.oe[l.bank] l = true) (hw : ∀ v ∈ ws, lineBit v l = level) (hl : lineBit w l = !level)
    (hp : s.env.pads = ws ++ w :: rest) (hn : ws.length ≤ n) (hb : j.dht.count + ws.length ≤ Config.dhtSpinBound) :
    ∃ t, settle n (.poll (.line l) level dest) j s = .go { j with dht := { j.dht with count := j.dht.count + ws.length }.store dest } t ∧
      t.env.pads = rest ∧ t.trace = s.trace ++ (List.replicate ws.length (.gpioSample l level) ++ [.gpioSample l (!level)]) := by
  induction ws generalizing n s j with
  | nil => 
    have hs := sampled_head hi hp
    have : micro (.poll (.line l) level dest) j s = .go { j with dht := j.dht.store dest } (polled l (!level) s) := by
      simp only [micro, stepPoll_ready hr, hs, hl]
      simp
    rw [settle_eq_micro (by simp [this]), this]
    exact ⟨_, rfl, by rw [polled_pads, hp]; rfl, by simp [polled]⟩
  | cons v ws ih =>
    have hs := sampled_head hi hp
    have hv := hw v (by simp)
    simp only [List.length_cons] at hn hb
    have hc : ¬ (j.dht.count + 1 > Config.dhtSpinBound) := by omega
    have : micro (.poll (.line l) level dest) j s = .again { j with dht := { j.dht with count := j.dht.count + 1 } } (polled l level s) := by
      simp only [micro, stepPoll_ready hr, hs, hv, hc, if_true, if_false]
    obtain ⟨n, rfl⟩ : ∃ k, n = k + 1 := ⟨n - 1, by omega⟩
    simp only [settle, this]
    obtain ⟨t, h1, h2, h3⟩ := ih (s := polled l level s) (j := { j with dht := { j.dht with count := j.dht.count + 1 } }) n hr hi (fun v h => hw v (by simp [h])) (by rw [polled_pads, hp]; rfl) (by omega) (by simp only; omega)
    refine ⟨t, ?_, h2, ?_⟩
    · rw [h1]; simp only [List.length_cons, Nat.add_assoc, Nat.add_comm 1]
    · rw [h3]; simp [polled, List.replicate_succ]

end Sys2Proof.Machine
end

