-- ==== Sys2Proof/Tests/Slice0.lean ====
section
/-! SUPPORT. The model's own tests. Expected values come from the tables and vectors of spec/ (each theorem names its vector
or rule); the byte layout of operands is assumption 1. The last section shows, for every statement with hypotheses, a
state and operands that meet them. -/

namespace Sys2Proof.Tests

open Sys2Proof.Machine

/-! ## The board and states of 95_test_vectors.md -/

def cs : Line := ⟨0, 5⟩
def ds : Line := ⟨1, 17⟩
def mux0 : Line := ⟨1, 16⟩
def mux1 : Line := ⟨1, 18⟩
def sensor : Line := ⟨2, 3⟩
def l28 : Line := ⟨1, 28⟩
def l31 : Line := ⟨3, 31⟩
def prim : Profile := ⟨0, 8, 1000000⟩
def sec : Profile := ⟨3, 8, 500000⟩

/-- The end state of program PR1 for `o0 = o1 = 0xFFFFFFFF`, `d0 = d1 = 0`, with the trace and results so far left out. -/
def booted : State where
  oe := #v[0xFFFFFFDF, 0xFFF8FFFF, 0xFFFFFFFF, 0xFFFFFFFF]
  dataOut := #v[0x20, 0x20000, 0, 0]
  winMapped := #v[true, true, true, false]
  spiOpen := true
  spiPrimary := prim
  spiActive := prim
  extAddr := some 12
  i2cHandle := (Vector.replicate 128 false).set 0x76 true
  lockSerial := none
  lockTwowire := none
  inflight := []
  board := Board.example95
  resolved := [sensor, mux1, mux0, ds, cs]
  cur := 0
  inputs := []
  env := Env.unscripted
  trace := []
  results := []

/-- Nothing mapped, resolved or opened. -/
def fresh : State :=
  { booted with
    winMapped := #v[false, false, false, false], spiOpen := false, extAddr := none
    i2cHandle := Vector.replicate 128 false, resolved := [] }

/-- `booted` before its bus, its extension board and its target were opened. -/
def closedBus : State :=
  { booted with spiOpen := false, extAddr := none, i2cHandle := Vector.replicate 128 false }

/-- Everything mapped, every line of the GPIO vectors resolved. -/
def wired : State :=
  { booted with
    winMapped := #v[true, true, true, true], resolved := [l28, l31, ⟨0, 0⟩, sensor, mux1, mux0, ds, cs] }

/-- The trace and the results of an outcome. -/
def answers (o : Host.Outcome State Fault Refusal) : Option (List Event × List (Nat × Result)) :=
  match o with
  | .next t => some (t.trace, t.results)
  | .fault _ => none
  | .refused _ => none

/-- One field of the next state. -/
def field {α : Type} (f : State → α) (o : Host.Outcome State Fault Refusal) : Option α :=
  match o with
  | .next t => some (f t)
  | .fault _ => none
  | .refused _ => none

def withSerial (exchanges : List (Option (List Byte))) (writes : List Int) (s : State) : State :=
  { s with env := { s.env with exchange := exchanges, spiWrite := writes } }

def withTarget (writes : List Int) (reads : List (Int × List Byte)) (s : State) : State :=
  { s with env := { s.env with i2cWrite := writes, i2cRead := reads } }

/-- Levels from outside, and zeros for the draws of driven lines. -/
def withPads (pads : List Word) (s : State) : State :=
  { s with env := { s.env with pads := pads, driven := pads.map (fun _ => 0) } }

/-- Why an outcome stops. -/
def refusal (o : Host.Outcome State Fault Refusal) : Option Refusal :=
  match o with
  | .next _ => none
  | .fault _ => none
  | .refused r => some r

/-! ## WellFormed refuses -/

theorem test_wellFormed_transfer_length : (Instr.serialTransfer 2 [0]).wellFormed = false := by decide
theorem test_wellFormed_transfer_zero : (Instr.serialTransfer 0 []).wellFormed = false := by decide
theorem test_wellFormed_secondary_length : (Instr.serialTransferSecondary 1 [0, 0]).wellFormed = false := by decide
theorem test_wellFormed_secondary_zero : (Instr.serialTransferSecondary 0 []).wellFormed = false := by decide
theorem test_wellFormed_module_length : (Instr.addrWrite 5 1 []).wellFormed = false := by decide
theorem test_wellFormed_module_zero : (Instr.addrWrite 5 0 []).wellFormed = false := by decide
theorem test_wellFormed_regWrite_length : (Instr.regWrite 0 false 0 2 [0]).wellFormed = false := by decide
theorem test_wellFormed_regWrite_zero : (Instr.regWrite 0 false 0 0 []).wellFormed = false := by decide
theorem test_wellFormed_regRead_zero : (Instr.regRead 0 false 0 0).wellFormed = false := by decide
theorem test_wellFormed_word_zero : (Instr.serialOpen [] 0 0 1).wellFormed = false := by decide
theorem test_wellFormed_speed_zero : (Instr.serialOpen [] 0 8 0).wellFormed = false := by decide
theorem test_wellFormed_path_long (path : List Byte) (h : path.length = 65536) :
    (Instr.serialOpen path 0 8 1).wellFormed = false := by
  simp [Instr.wellFormed, Instr.encodable, h]

/-! ## Decoding, one word for each constructor (opcodes of R90, operands of R92, frames of vector F1) -/

theorem test_decode_resolve : decode .command [0x10, 0x63, 0x01] = .ok (.gpioResolve 0x163) := by decide
theorem test_decode_set_output : decode .command [0x11, 3, 31] = .ok (.gpioSetOutput ⟨3, 31⟩) := by decide
theorem test_decode_set_input : decode .command [0x12, 2, 3] = .ok (.gpioSetInput ⟨2, 3⟩) := by decide
theorem test_decode_set_high : decode .command [0x13, 0, 5] = .ok (.gpioSetHigh ⟨0, 5⟩) := by decide
theorem test_decode_set_low : decode .command [0x14, 1, 16] = .ok (.gpioSetLow ⟨1, 16⟩) := by decide
theorem test_decode_read : decode .command [0x15, 2, 3] = .ok (.gpioRead ⟨2, 3⟩) := by decide
/-- "bus0", mode 0, word 8, speed 1000000 = 0x000F4240 (program PR1). -/
theorem test_decode_open :
    decode .command [0x20, 4, 0, 0x62, 0x75, 0x73, 0x30, 0, 8, 0x40, 0x42, 0x0F, 0x00] =
      .ok (.serialOpen [0x62, 0x75, 0x73, 0x30] 0 8 1000000) := by decide
theorem test_decode_transfer : decode .command [0x21, 2, 0, 0xD0, 0x00] = .ok (.serialTransfer 2 [0xD0, 0]) := by decide
theorem test_decode_transfer_secondary :
    decode .command [0x22, 1, 0, 0x29] = .ok (.serialTransferSecondary 1 [0x29]) := by decide
theorem test_decode_close : decode .command [0x23] = .ok .serialClose := by decide
theorem test_decode_select : decode .command [0x30, 15, 3] = .ok (.addrSelect 15 3) := by decide
theorem test_decode_module_write : decode .command [0x31, 5, 1, 0, 0xFF] = .ok (.addrWrite 5 1 [0xFF]) := by decide
theorem test_decode_module_read : decode .command [0x32, 7] = .ok (.addrRead 7) := by decide
theorem test_decode_set_ext : decode .command [0x33, 12] = .ok (.addrSetExt 12) := by decide
theorem test_decode_unselect : decode .command [0x34] = .ok .addrUnselectExt := by decide
theorem test_decode_open_handle : decode .command [0x40, 0x76] = .ok (.regOpenHandle 0x76) := by decide
theorem test_decode_select_channel : decode .command [0x41, 2, 1, 6] = .ok (.regSelect 2 true 6) := by decide
theorem test_decode_reg_read :
    decode .command [0x42, 0x76, 0, 0xD0, 1, 0] = .ok (.regRead 0x76 false 0xD0 1) := by decide
theorem test_decode_reg_write :
    decode .command [0x43, 0x76, 1, 0, 2, 0, 0xAB, 0xCD] = .ok (.regWrite 0x76 true 0 2 [0xAB, 0xCD]) := by decide
theorem test_decode_wire : decode .command [0x50, 1, 2, 3] = .ok (.wireRead .fractional ⟨2, 3⟩) := by decide
theorem test_decode_frame_write : decode .addressFrame [0xD9] = .ok (.frameWrite 11) := by decide
theorem test_decode_frame_ready : decode .addressFrame [0xBA] = .ok (.frameReadReady 7) := by decide
theorem test_decode_frame_exec : decode .addressFrame [0x7B] = .ok (.frameReadExec 15) := by decide

/-! ## Decoding refuses -/

theorem test_refuse_opcode : decode .command [0x16, 0, 0] = .error (.unknownOpcode 0x16) := by decide
theorem test_refuse_opcode_zero : decode .command [0x00] = .error (.unknownOpcode 0) := by decide
theorem test_refuse_parity : decode .addressFrame [0x3A] = .error .badParity := by decide
theorem test_refuse_frame_zero : decode .addressFrame [0x28] = .error .reservedFrameOperation := by decide
theorem test_refuse_frame_four : decode .addressFrame [0x2C] = .error .reservedFrameOperation := by decide
theorem test_refuse_wide : decode .command [0x11, 4, 0] = .error .operandTooWide := by decide
theorem test_refuse_truncated : decode .command [0x21, 2, 0, 0xD0] = .error .truncated := by decide
theorem test_refuse_trailing : decode .command [0x23, 0] = .error .trailingBytes := by decide
/-- Vector F1, the frame byte of every address for a write. -/
theorem test_frame_bytes :
    [0, 1, 2, 3, 4, 5, 6, 7].map (fun a => addressFrame a 1) = [0x01, 0x89, 0x91, 0x19, 0xA1, 0x29, 0x31, 0xB9] ∧
    [8, 9, 10, 11, 12, 13, 14, 15].map (fun a => addressFrame a 1) = [0xC1, 0x49, 0x51, 0xD9, 0x61, 0xE9, 0xF1, 0x79] := by
  decide

/-! ## GPIO (vectors GP1 to GP22) -/

theorem test_GP1 :
    answers (exec (.gpioResolve 7) { fresh with env := { Env.unscripted with openMem := [true], map := [true] } }) =
      some ([.mapWindow 1], [(0, .ok (.line 7 l28))]) := by decide
theorem test_GP6 :
    answers (exec (.gpioResolve 20) { fresh with env := { Env.unscripted with openMem := [true], map := [false] } }) =
      some ([], [(0, .error (.mapFailed 2))]) := by decide
theorem test_GP8 : field State.oe (exec (.gpioSetOutput l28) { wired with oe := #v[0, 0xFFFFFFFF, 0, 0] }) =
    some #v[0, 0xEFFFFFFF, 0, 0] := by decide
theorem test_GP12 : field State.oe (exec (.gpioSetOutput l31) { wired with oe := #v[0, 0, 0, 0xFFFFFFFF] }) =
    some #v[0, 0, 0, 0x7FFFFFFF] := by decide
theorem test_GP10 : field State.oe (exec (.gpioSetInput l28) { wired with oe := #v[0, 0xEFFFFFFF, 0, 0] }) =
    some #v[0, 0xFFFFFFFF, 0, 0] := by decide
theorem test_GP14 : field State.dataOut (exec (.gpioSetHigh l31) { wired with dataOut := #v[0, 0, 0, 1] }) =
    some #v[0, 0, 0, 0x80000001] := by decide
theorem test_GP16 : field State.dataOut (exec (.gpioSetLow cs) { wired with dataOut := #v[0xFFFFFFFF, 0, 0, 0] }) =
    some #v[0xFFFFFFDF, 0, 0, 0] := by decide
theorem test_GP18 : answers (exec (.gpioRead sensor) (withPads [0x00000008] wired)) =
    some ([.gpioSample sensor true], [(0, .ok (.bit true))]) := by decide
theorem test_GP19 : answers (exec (.gpioRead sensor) (withPads [0xFFFFFFF7] wired)) =
    some ([.gpioSample sensor false], [(0, .ok (.bit false))]) := by decide
/-- Vector GP21: reads of both before the writes of both lose the first change. -/
theorem test_GP21 :
    field (fun t => t.oe[1])
      (runInputs [.start 1 .command [0x11, 1, 16], .start 2 .command [0x11, 1, 18], .grain 1, .grain 2, .grain 1, .grain 2]
        { wired with oe := #v[0, 0xFFFFFFFF, 0, 0] }) = some 0xFFFBFFFF := by decide
/-- Vector GP21, serialized. -/
theorem test_GP21_serialized :
    field (fun t => t.oe[1])
      (runInputs [.issue 1 .command [0x11, 1, 16], .issue 2 .command [0x11, 1, 18]]
        { wired with oe := #v[0, 0xFFFFFFFF, 0, 0] }) = some 0xFFFAFFFF := by decide
/-- The byte order of R65: `0x12345678` has `0x78` at its lowest address. -/
theorem test_little_endian :
    storedByte { wired with oe := #v[0x12345678, 0, 0, 0] } 0x44E07134 = some 0x78 ∧
    storedByte { wired with oe := #v[0x12345678, 0, 0, 0] } 0x44E07137 = some 0x12 := by decide

/-! ## SPI unit (vectors SP1 to SP10) -/

theorem test_SP1 :
    answers (exec (.serialOpen [0x62] 0 8 1000000) { closedBus with env := { Env.unscripted with spiOpen := [true] } }) =
      some ([.spiOpen, .spiProfile prim], [(0, .ok .busHandle)]) := by decide
theorem test_SP2 :
    answers (exec (.serialOpen [0x62] 0 8 1000000) { closedBus with env := { Env.unscripted with spiOpen := [false] } }) =
      some ([], [(0, .error (.deviceOpenFailed (.path [0x62])))]) := by decide
theorem test_SP4 :
    answers (exec (.serialTransferSecondary 1 [0x29]) (withSerial [none] [] booted)) =
      some ([.spiProfile sec, .gpioLevel ds false, .spiExchange sec [0x29] none, .gpioLevel ds true, .spiProfile prim],
        [(0, .error .transferFailed)]) := by decide
theorem test_SP5 :
    answers (exec (.serialTransferSecondary 2 [0x10, 0x20])
      (withSerial [some [0xAA, 0xBB]] [] { booted with spiPrimary := ⟨3, 8, 250000⟩, spiActive := ⟨3, 8, 250000⟩ })) =
      some ([.gpioLevel ds false, .spiExchange ⟨3, 8, 250000⟩ [0x10, 0x20] (some [0xAA, 0xBB]), .gpioLevel ds true],
        [(0, .ok (.bytes [0xAA, 0xBB]))]) := by decide
theorem test_SP7 :
    answers (exec (.serialTransfer 2 [0xD0, 0]) (withSerial [some [0, 0x60]] [] booted)) =
      some ([.spiExchange prim [0xD0, 0] (some [0, 0x60])], [(0, .ok (.bytes [0, 0x60]))]) := by decide
theorem test_SP8 :
    answers (exec (.serialTransfer 2 [0xD0, 0]) (withSerial [none] [] booted)) =
      some ([.spiExchange prim [0xD0, 0] none], [(0, .error .transferFailed)]) := by decide
theorem test_SP9 : field (fun t => (t.spiOpen, t.extAddr, t.trace)) (exec .serialClose booted) =
    some (false, some 12, [.spiClose]) := by decide
theorem test_SP10 : refusal (exec (.serialTransfer 1 [0]) { booted with spiOpen := false }) = some .busClosed := by decide

/-! ## ADDR unit (vectors S1, S2, AD1 to AD13, F2) -/

/-- The trace of vector S1 for a frame byte, a payload and its count. -/
def traceS1 (frame : Byte) (data : List Byte) (n : Int) : List Event :=
  [.spiProfile sec, .gpioLevel ds false, .spiExchange sec [frame] (some [0]), .gpioLevel ds true, .spiProfile prim] ++
  [.spiProfile sec, .gpioLevel cs true, .gpioLevel cs false, .gpioLevel cs false, .spiWrite sec data n,
    .gpioLevel cs true, .spiProfile prim]

theorem test_S1 : answers (exec (.addrWrite 5 1 [0xFF]) (withSerial [some [0]] [1] booted)) =
    some (traceS1 0x29 [0xFF] 1, [(0, .ok (.count 1))]) := by decide
theorem test_AD5 : answers (exec (.addrWrite 5 1 [0xFF]) (withSerial [some [0]] [-1] booted)) =
    some (traceS1 0x29 [0xFF] (-1), [(0, .error .writeFailed)]) := by decide
theorem test_S2 : answers (exec (.addrRead 7) (withSerial [some [0], some [0], some [0x3C]] [] booted)) =
    some ([.spiProfile sec, .gpioLevel ds false, .spiExchange sec [0xBA] (some [0]), .gpioLevel ds true,
      .spiProfile prim, .gpioLevel cs false, .gpioLevel cs true,
      .spiProfile sec, .gpioLevel ds false, .spiExchange sec [0xBB] (some [0]), .gpioLevel ds true, .spiProfile prim,
      .spiProfile sec, .gpioLevel cs false, .spiExchange sec [0] (some [0x3C]), .gpioLevel cs true, .spiProfile prim],
      [(0, .ok (.byte 0x3C))]) := by decide
theorem test_AD7 : answers (exec (.addrRead 7) (withSerial [none] [] booted)) =
    some ([.spiProfile sec, .gpioLevel ds false, .spiExchange sec [0xBA] none, .gpioLevel ds true, .spiProfile prim],
      [(0, .error .transferFailed)]) := by decide
theorem test_AD2 : answers (exec (.addrSelect 15 3) (withSerial [some [0]] [] booted)) =
    some ([.spiProfile sec, .gpioLevel ds false, .spiExchange sec [0x7B] (some [0]), .gpioLevel ds true,
      .spiProfile prim], [(0, .ok .unit)]) := by decide
theorem test_F2 : answers (exec (.addrSelect 5 4) booted) =
    some ([], [(0, .error (.contractViolation (.frameOperation 4)))]) := by decide
theorem test_AD10 : field (fun t => (t.extAddr, t.trace)) (exec (.addrSetExt 12) closedBus) = some (some 12, []) := by decide
theorem test_AD11 : answers (exec .addrUnselectExt closedBus) = some ([], [(0, .ok .unit)]) := by decide
theorem test_AD13 : answers (exec .addrUnselectExt (withSerial [some [0]] [0] booted)) =
    some (traceS1 0x61 [0x00] 0, [(0, .error .writeFailed)]) := by decide
/-- A frame row of the table run as a `select` (assumption 4); frame bytes of vector F1. -/
theorem test_frame_rows :
    field (fun t => t.trace.drop 2) (exec (.frameWrite 5) (withSerial [some [0]] [] booted)) =
      some [.spiExchange sec [0x29] (some [0]), .gpioLevel ds true, .spiProfile prim] ∧
    field (fun t => t.trace.drop 2) (exec (.frameReadReady 7) (withSerial [some [0]] [] booted)) =
      some [.spiExchange sec [0xBA] (some [0]), .gpioLevel ds true, .spiProfile prim] ∧
    field (fun t => t.trace.drop 2) (exec (.frameReadExec 7) (withSerial [some [0]] [] booted)) =
      some [.spiExchange sec [0xBB] (some [0]), .gpioLevel ds true, .spiProfile prim] := by decide

/-! ## I2C unit (vectors S3, RB1 to RB22) -/

theorem test_S3 : answers (exec (.regSelect 0b10 true 0b0110) (withSerial [some [0]] [1] booted)) =
    some ([.gpioLevel mux0 false, .gpioLevel mux1 true] ++ traceS1 0x61 [0x06] 1, [(0, .ok .unit)]) := by decide
/-- The byte sent is the board's parameter (30_encoding.md R100): a board that inverts the code sends `0xF9` for 0110. -/
theorem test_selector_parameter :
    (answers (exec (.regSelect 0b10 true 0b0110) (withSerial [some [0]] [1]
      { booted with board := { Board.example95 with
          data := { Board.example95.data with extSel := Vector.ofFn (fun e => ~~~ BitVec.ofNat 8 e.val) }
          lawful := Board.example95.lawful } }))).map (·.1) =
      some ([.gpioLevel mux0 false, .gpioLevel mux1 true] ++ traceS1 0x61 [0xF9] 1) := by decide
theorem test_RB3 : answers (exec (.regSelect 0b10 true 0b0100) booted) =
    some ([], [(0, .error (.contractViolation (.extensionCode 0b0100)))]) := by decide
theorem test_RB1 :
    answers (exec (.regOpenHandle 0x76) { closedBus with env := { Env.unscripted with i2cOpen := [true] } }) =
      some ([.i2cOpen 0x76], [(0, .ok (.targetHandle 0x76))]) := by decide
theorem test_RB2 : answers (exec (.regOpenHandle 0x76) booted) = some ([], [(0, .ok (.targetHandle 0x76))]) := by decide
theorem test_RB12 : answers (exec (.regRead 0x76 true 0 2) (withTarget [] [(2, [0x12, 0x34])] booted)) =
    some ([.i2cRead 0x76 2 2 [0x12, 0x34]], [(0, .ok (.bytes [0x12, 0x34]))]) := by decide
theorem test_RB15 : answers (exec (.regRead 0x76 false 0xD0 2) (withTarget [1] [(1, [0x60])] booted)) =
    some ([.i2cWrite 0x76 [0xD0] 1, .i2cRead 0x76 2 1 [0x60]], [(0, .error .readFailed)]) := by decide
theorem test_RB17 : answers (exec (.regWrite 0x76 false 0xF4 1 [0x27]) (withTarget [2] [] booted)) =
    some ([.i2cWrite 0x76 [0xF4, 0x27] 2], [(0, .ok .unit)]) := by decide
theorem test_RB18 : answers (exec (.regWrite 0x76 false 0xF4 1 [0x27]) (withTarget [1] [] booted)) =
    some ([.i2cWrite 0x76 [0xF4, 0x27] 1], [(0, .error .writeFailed)]) := by decide

/-! ## DHT unit (vectors M1, M2, W1 to W14, T4) -/

/-- Vectors M1 and M2: what the polls leave in `wait` and in `low`. -/
theorem test_M1 :
    (match settle 32000 (.poll (.line sensor) true .wait) (Job.fresh 0 (.gpioRead sensor) []) (withPads [8, 8, 8, 0] wired) with
      | .go j _ => j.dht.wait
      | _ => none) = some 3 := by decide
theorem test_M2 :
    (match settle 32000 (.poll (.line sensor) false .low) (Job.fresh 0 (.gpioRead sensor) []) (withPads [8] wired) with
      | .go j _ => j.dht.low
      | _ => [7]) = [0] := by decide

/-- The high counts that send five bytes, `hi` for a 1 and `lo` for a 0, after the preamble's (95_test_vectors.md
section 2.6). -/
def highsOf (hi lo : Nat) (bytes : List Byte) : List Nat :=
  80 :: bytes.flatMap (fun b => [7, 6, 5, 4, 3, 2, 1, 0].map (fun i => if b.getLsbD i then hi else lo))

/-- The low counts of the vectors. -/
def lows : List Nat := 80 :: List.replicate 40 50

theorem test_W1 : decodeTrain .fractional lows (highsOf 70 27 [0x02, 0x8C, 0x01, 0x5F, 0xEE]) =
    .ok (.climate 652 351) := by decide
theorem test_W2 : decodeTrain .fractional lows (highsOf 70 27 [0x01, 0x90, 0x80, 0x65, 0x76]) =
    .ok (.climate 400 (-101)) := by decide
theorem test_W3 : decodeTrain .integerOnly lows (highsOf 70 27 [0x37, 0x00, 0x18, 0x00, 0x4F]) =
    .ok (.climate 550 240) := by decide
theorem test_W6 : decodeTrain .fractional lows (highsOf 70 27 [0x02, 0x8C, 0x01, 0x5B, 0xEE]) =
    .error .checksumFailed := by decide
theorem test_W7 :
    decodeTrain .fractional (80 :: (List.replicate 21 50 ++ List.replicate 19 51))
      (highsOf 50 27 [0x02, 0x8C, 0x01, 0x5F, 0xEE]) = .ok (.climate 652 351) := by decide
theorem test_W8 : decodeTrain .fractional lows (highsOf 49 27 [0x02, 0x8C, 0x01, 0x5F, 0xEE]) =
    .ok (.climate 0 0) := by decide
theorem test_W10 : decodeTrain .fractional lows (highsOf 70 27 [0x00, 0x00, 0x80, 0x00, 0x80]) =
    .ok (.climate 0 0) := by decide
theorem test_W11 : decodeTrain .fractional lows (highsOf 70 27 [0xFF, 0xFF, 0xFF, 0xFF, 0xFC]) =
    .ok (.climate 65535 (-32767)) := by decide

set_option maxRecDepth 20000 in
/-- The whole of T4 with counts of zero: 83 polls, threshold 0, every bit 1, so the checksum fails (vector W14). -/
theorem test_wire_read_short :
    field (fun t => (t.results, t.trace.length, t.oe[2], t.dataOut[2]))
      (exec (.wireRead .integerOnly sensor)
        (withPads (0 :: (List.replicate 41 [8, 0]).flatten) { wired with oe := #v[0, 0, 0, 0] })) =
      some ([(0, .error .checksumFailed)], 89, 8, 0) := by decide

/-! ## Steps and requesters -/

/-- Program PR5, A first: B starts while A holds `lock.serial`, waits, and runs after A. -/
theorem test_PR5 :
    answers (runInputs [.start 1 .command [0x21, 1, 0, 0x9F], .grain 1, .grain 1, .grain 1, .issue 2 .command [0x30, 5, 1],
        .grain 1, .grain 1, .grain 1, .grain 1, .grain 2, .grain 2, .grain 2, .grain 2, .grain 2, .grain 2, .grain 2, .grain 2,
        .grain 2]
        (withSerial [some [1], some [0]] [] booted)) =
      some ([.spiExchange prim [0x9F] (some [1]), .spiProfile sec, .gpioLevel ds false, .spiExchange sec [0x29] (some [0]),
        .gpioLevel ds true, .spiProfile prim], [(1, .ok (.bytes [1])), (2, .ok .unit)]) := by decide

/-- The state built for a table word runs its instruction: `33` with an operand of zeros. -/
theorem test_withFetchWord :
    field State.extAddr (step (booted.withFetchWord 8 0x33)) = some (some 0) ∧ decodeTableWord 8 0x33 = some (.addrSetExt 0) ∧
    decodeTableWord 8 0x01 = some (.frameWrite 0) ∧ decodeTableWord 8 0x02 = some (.frameReadReady 0) ∧
    decodeTableWord 8 0x03 = some (.frameReadExec 0) := by decide

/-- A word whose first byte is a command opcode is read as a command alone: a payload length that runs off its end, an
operand too wide (assumption 3); nor does a frame with bytes behind it name an instruction. -/
theorem test_table_word_one_format :
    decodeTableWord 16 0x1F31 = none ∧ decodeTableWord 16 0x0411 = none ∧ decodeTableWord 16 0x0101 = none := by decide

/-- 40_gpio.md R128: with `DS`, `CS` or `MUX1` not resolved, nothing of the unit that needs it runs. -/
theorem test_role_lines :
    refusal (exec (.serialTransfer 1 [0]) { booted with resolved := [sensor, mux1, mux0, cs] }) = some .lineNotResolved ∧
    refusal (exec (.addrWrite 5 1 [0]) { booted with resolved := [sensor, mux1, mux0, ds] }) = some .lineNotResolved ∧
    refusal (exec (.regRead 0x76 true 0 1) { booted with resolved := [sensor, mux0, ds, cs] }) = some .lineNotResolved := by
  decide

/-! ## The hypotheses of the statements can be met -/

/-- The instruction answers a next state. -/
abbrev Runs (i : Instr) (s : State) : Prop := (field (fun _ => true) (exec i s)).isSome = true

theorem runs_next {i : Instr} {s : State} (h : Runs i s) : ∃ t, exec i s = .next t := by
  unfold Runs field at h
  split at h
  next t ht => exact ⟨t, ht⟩
  all_goals cases h

/-- Requester 1 has taken `lock.serial`; requester 2 has taken `lock.twowire`; both are in flight. -/
def contended : State :=
  { booted with
    lockSerial := some 1, lockTwowire := some 2
    inflight := [Job.fresh 1 .serialClose [.requireOpen, .closeBus], Job.fresh 2 (.regOpenHandle 5) [.openHandle 5]] }

/-- A single-wire read of the sensor line is in flight. -/
def reading : State := { booted with inflight := [Job.fresh 1 (.wireRead .fractional sensor) [.phase .wake]] }

theorem witness_DecodeOfEncode :
    (Instr.serialTransfer 65535 (List.replicate 65535 0)).encodable = true ∧
    (Instr.serialOpen (List.replicate 65535 0) 3 255 0xFFFFFFFF).encodable = true ∧
    (Instr.regWrite 0x7F true 0xFF 0 []).encodable = true ∧ (Instr.frameReadExec 15).encodable = true := by
  refine ⟨?_, ?_, by decide, by decide⟩
  · rw [Instr.encodable, Instr.lenMatches, List.length_replicate]; decide
  · rw [Instr.encodable, List.length_replicate]; decide
theorem witness_EncodeOfDecode : decode .command [0x50, 0, 3, 31] = .ok (.wireRead .integerOnly l31) := by decide
/-- Bytes around every range of opcodes, a wrong parity at both values of the bit, and operations 0, 4 and 7. -/
theorem witness_IllegalMessagesRefused :
    requesterExists 0 booted = true ∧
    (∀ b ∈ ([0x00, 0x0F, 0x16, 0x1F, 0x24, 0x2F, 0x35, 0x3F, 0x44, 0x4F, 0x51, 0xFF] : List Byte),
      b ∉ ([0x10, 0x11, 0x12, 0x13, 0x14, 0x15] : List Byte) ∧ b ∉ ([0x20, 0x21, 0x22, 0x23] : List Byte) ∧
      b ∉ ([0x30, 0x31, 0x32, 0x33, 0x34] : List Byte) ∧ b ∉ ([0x40, 0x41, 0x42, 0x43, 0x50] : List Byte)) ∧
    (∀ f ∈ ([0x81, 0x09] : List Byte),
      f.getLsbD 7 ≠ (f.getLsbD 6 ^^ f.getLsbD 5 ^^ f.getLsbD 4 ^^ f.getLsbD 3)) ∧
    (∀ f ∈ ([0x00, 0x04, 0x07, 0x8F] : List Byte),
      f.getLsbD 7 = (f.getLsbD 6 ^^ f.getLsbD 5 ^^ f.getLsbD 4 ^^ f.getLsbD 3) ∧
      (f.toNat % 8 = 0 ∨ 4 ≤ f.toNat % 8)) := by decide
theorem witness_StepRunsDecoded :
    requesterExists 3 booted = true ∧ decode .command [0x23] = .ok .serialClose ∧ busy 3 booted = false ∧
    ({ booted with inputs := [.issue 3 .command [0x23]] } : State).inputs = .issue 3 .command [0x23] :: [] ∧
    ({ booted with inputs := [.start 3 .command [0x23]] } : State).inputs = .start 3 .command [0x23] :: [] ∧
    ({ booted with inputs := [.grain 3] } : State).inputs = .grain 3 :: [] ∧ booted.inputs = [] := by decide
theorem witness_TableWordRunsNext :
    requesterExists booted.cur booted = true ∧ decodeTableWord 8 0x50 = some (.wireRead .integerOnly ⟨0, 0⟩) := by decide
theorem witness_EnvironmentLaws :
    ({ Env.unscripted with exchange := [some [1, 2]] }.askExchange 2).1 = some [1, 2] := by decide
theorem witness_PortWrites :
    booted.winMapped[(0 : Fin 4)] = true ∧ (0xFFFFFFFE : Word).getLsbD 0 = false ∧ (0 : Word).getLsbD 31 = false := by decide
theorem witness_WindowAccess :
    booted.winMapped[(2 : Fin 4)] = true ∧ booted.winMapped[(3 : Fin 4)] = false ∧ (0 : Nat) ≠ 4 ∧ (8 : Nat) ≠ 4 ∧
    0x44E07135 % 4 ≠ 0 ∧ 0x44E07140 % 4 = 0 ∧
    (∀ (b' : Fin 4) (r : Reg), booted.board.addr b' r ≠ 0x44E07140) := by
  refine ⟨by decide, by decide, by decide, by decide, by decide, by decide, fun b' r => ?_⟩
  revert b'
  cases r <;> decide
theorem witness_ResolveEffect :
    Idle fresh ∧ Idle booted ∧ fresh.board.data.pin 99 = none ∧ fresh.board.data.pin 7 = some l28 ∧
    booted.winMapped[l28.bank] = true ∧ fresh.winMapped[l28.bank] = false ∧
    ({ Env.unscripted with openMem := [false] }.askOpenMem).1 = false ∧
    ({ Env.unscripted with openMem := [true], map := [false] }.askOpenMem).2.askMap.1 = false ∧
    ({ Env.unscripted with openMem := [true], map := [true] }.askOpenMem).1 = true ∧
    ({ Env.unscripted with openMem := [true], map := [true] }.askOpenMem).2.askMap.1 = true := by decide
/-- For `SetOutputEffect`, `SetInputEffect`, `SetHighEffect`, `SetLowEffect` and `ReadEffect`: the lowest and the highest
line. -/
theorem witness_GpioEffects : Idle wired ∧ LineReady wired ⟨0, 0⟩ ∧ LineReady wired ⟨3, 31⟩ := by decide
theorem witness_RegisterBytesFrame :
    Runs (.gpioSetOutput sensor) wired ∧ Runs (.gpioSetInput sensor) wired ∧ Runs (.gpioSetHigh sensor) wired ∧
    Runs (.gpioSetLow sensor) wired ∧ Runs (.gpioResolve 99) wired ∧ Runs (.gpioRead sensor) wired ∧
    ¬ (wired.board.addr 2 .oe ≤ 0x481AC138 ∧ 0x481AC138 < wired.board.addr 2 .oe + 4) ∧
    ¬ (wired.board.addr 2 .dataOut ≤ 0x481AC13B ∧ 0x481AC13B < wired.board.addr 2 .dataOut + 4) := by decide
theorem witness_OtherLinesUntouched :
    (⟨2, 4⟩ : Line) ≠ sensor ∧ Runs (.gpioSetHigh sensor) wired ∧ Runs (.gpioSetLow sensor) wired ∧
    Runs (.gpioSetOutput sensor) wired ∧ Runs (.gpioSetInput sensor) wired := by decide
/-- For `OutputEnableRace` and `LevelWritesNeverRace`. -/
theorem witness_Races :
    mux0.bank = mux1.bank ∧ (1 : Nat) ≠ 2 ∧ requesterExists 1 wired = true ∧ requesterExists 2 wired = true ∧
    busy 1 wired = false ∧ busy 2 wired = false ∧ LineReady wired mux0 ∧ LineReady wired mux1 := by decide
theorem witness_OpenEffect :
    SerialReady closedBus ∧ SerialUnit closedBus ∧ closedBus.spiOpen = false ∧ (1 : BitVec 8) ≠ 0 ∧ (1 : BitVec 32) ≠ 0 ∧
    ({ Env.unscripted with spiOpen := [true] }.askSpiOpen).1 = true ∧
    ({ Env.unscripted with spiOpen := [false] }.askSpiOpen).1 = false := by decide
/-- For `TransferEffect`, `TransferSecondaryEffect` and `StrobeBracketing`: the shortest buffer and both answers. -/
theorem witness_Transfers :
    SerialReady booted ∧ SerialUnit booted ∧ booted.spiOpen = true ∧ RoleReady booted .ds ∧ (1 : BitVec 16) ≠ 0 ∧
    ([0x29] : List Byte).length = (1 : BitVec 16).toNat ∧ (1 : BitVec 16).toNat ≤ booted.board.data.maxLen ∧
    ({ Env.unscripted with exchange := [none] }.askExchange 1).1 = none ∧
    ({ Env.unscripted with exchange := [some [7]] }.askExchange 1).1 = some [7] := by decide
/-- The longest buffer. -/
theorem witness_Transfers_longest :
    (List.replicate 65535 (0 : Byte)).length = (65535 : BitVec 16).toNat ∧
    (65535 : BitVec 16).toNat ≤ booted.board.data.maxLen := by
  exact ⟨List.length_replicate, by decide⟩
theorem witness_CloseEffect : SerialReady booted ∧ SerialUnit booted ∧ booted.spiOpen = true := by decide
theorem witness_ProfileKept :
    (∀ path mode word speed, Instr.addrRead 7 ≠ .serialOpen path mode word speed) ∧ Instr.addrRead 7 ≠ .serialClose ∧
    Runs (.addrRead 7) (withSerial [none] [] booted) := by
  exact ⟨by simp, by simp, by decide⟩
theorem witness_SelectEffect :
    SerialReady booted ∧ AddressingUnit booted ∧ booted.spiOpen = true ∧
    (∀ op ∈ ([0, 4, 7] : List (BitVec 3)), op = 0 ∨ 4 ≤ op.toNat) ∧
    (∀ op ∈ ([1, 3] : List (BitVec 3)), 1 ≤ op.toNat ∧ op.toNat ≤ 3) := by decide
theorem witness_FrameEffect : SerialReady booted ∧ AddressingReady booted := by decide
/-- For `WriteToModuleEffect` and `ReadFromModuleEffect`. -/
theorem witness_ModuleEffects :
    SerialReady booted ∧ AddressingReady booted ∧ (1 : BitVec 16) ≠ 0 ∧
    ([0xFF] : List Byte).length = (1 : BitVec 16).toNat ∧ (1 : BitVec 16).toNat ≤ booted.board.data.maxLen := by decide
/-- For `SetExtensionEffect` on a closed bus, and the clauses of `UnselectEffect`. -/
theorem witness_ExtensionEffects :
    SerialReady closedBus ∧ AddressingUnit closedBus ∧ closedBus.spiOpen = false ∧ closedBus.extAddr = none ∧
    SerialReady booted ∧ booted.extAddr = some 12 ∧ AddressingReady booted ∧ booted.board.Listed := by
  decide
theorem witness_ChipSelectIdleHigh :
    firstLock (.addrWrite 5 1 [0xFF]) = .serial ∧
    Runs (.addrWrite 5 1 [0xFF]) (withSerial [some [0]] [-1] booted) ∧
    Runs (.regSelect 2 true 6) (withSerial [some [0]] [0] booted) ∧
    latch booted (booted.board.roleLine .cs) = true ∧ latch booted (booted.board.roleLine .ds) = true := by decide
theorem witness_OpenHandleEffect :
    TwowireReady booted ∧ RegisterUnit booted ∧ booted.i2cHandle[(0x76 : BitVec 7).toFin] = true ∧
    booted.i2cHandle[(0x7F : BitVec 7).toFin] = false ∧ booted.i2cHandle[(0 : BitVec 7).toFin] = false ∧
    ({ Env.unscripted with i2cOpen := [true] }.askI2cOpen).1 = true ∧
    ({ Env.unscripted with i2cOpen := [false] }.askI2cOpen).1 = false := by decide
theorem witness_SelectChannelEffect :
    RegisterUnit booted ∧ TwowireReady booted ∧ BothReady booted ∧
    booted.extAddr = some 12 ∧ AddressingReady booted ∧ booted.board.Listed ∧
    (∀ e ∈ ([0b0101, 0b1111] : List (BitVec 4)), e.toNat / 4 ≠ 0 ∧ e.toNat % 4 ≠ 0) := by decide
theorem witness_ParkedCodesRejected :
    TwowireReady booted ∧ RegisterUnit booted ∧ AddressingUnit booted ∧
    (0b1100 : BitVec 4) ∈ ([0b0000, 0b0001, 0b0010, 0b0011, 0b0100, 0b1000, 0b1100] : List (BitVec 4)) ∧
    (0b0000 : BitVec 4) ∈ ([0b0000, 0b0001, 0b0010, 0b0011, 0b0100, 0b1000, 0b1100] : List (BitVec 4)) ∧
    TwowireReady closedBus ∧ RegisterUnit closedBus ∧ AddressingUnit closedBus ∧ closedBus.extAddr = none := by decide
theorem witness_LocalSelectorFollows :
    booted.lockTwowire = none ∧ Runs (.regSelect 2 false 0) booted ∧
    (field State.results (exec (.regSelect 2 false 0) booted)) ≠
      some (booted.results ++ [(booted.cur, .error (.contractViolation (.extensionCode 0)))]) ∧
    Runs (.regSelect 2 true 6) (withSerial [none] [] booted) := by decide
/-- For `RegReadEffect` and `RegWriteEffect`: the address write refused and accepted. -/
theorem witness_RegisterEffects :
    TwowireReady booted ∧ RegisterUnit booted ∧ booted.i2cHandle[(0x76 : BitVec 7).toFin] = true ∧ (1 : BitVec 16) ≠ 0 ∧
    (1 : BitVec 16).toNat ≤ booted.board.data.maxLen ∧ ([0x27] : List Byte).length = (1 : BitVec 16).toNat ∧
    ({ Env.unscripted with i2cWrite := [0] }.askI2cWrite 1).1 < 1 ∧
    1 ≤ ({ Env.unscripted with i2cWrite := [1] }.askI2cWrite 1).1 := by decide
/-- A board whose `MAX_LEN` is 4. -/
def shortBuffers : Board where
  data := { Board.example95.data with maxLen := 4 }
  lawful := by decide
/-- A closed bus with an extension board set (42_addressing.md R166 allows it). -/
def closedExt : State := { closedBus with extAddr := some 12 }
/-- One state for each clause of `ContractRefusals` but the last, in their order. -/
theorem witness_ContractRefusals :
    busy ({ reading with cur := 1 } : State).cur { reading with cur := 1 } = true ∧
    (SerialReady closedBus ∧ closedBus.spiOpen = false ∧
      ∀ i ∈ ([.serialTransfer 1 [0], .serialTransferSecondary 1 [0], .serialClose, .addrSelect 15 3, .addrWrite 5 1 [0],
          .addrRead 7, .frameWrite 0] : List Instr),
        RolesResolved closedBus i ∧ i.wellFormed = true ∧ fitsBoard closedBus.board i = true ∧ needsBus closedBus i = true) ∧
    (SerialReady closedExt ∧ RolesResolved closedExt .addrUnselectExt ∧ needsBus closedExt .addrUnselectExt = true ∧
      BothReady closedExt ∧ RegisterUnit closedExt ∧ AddressingUnit closedExt ∧ closedExt.spiOpen = false ∧
      closedExt.extAddr.isSome = true ∧
      ∀ e ∈ ([0b0101, 0b1111] : List (BitVec 4)), e.toNat / 4 ≠ 0 ∧ e.toNat % 4 ≠ 0) ∧
    (SerialReady booted ∧ SerialUnit booted ∧ booted.spiOpen = true ∧ (8 : BitVec 8) ≠ 0 ∧ (1 : BitVec 32) ≠ 0) ∧
    (busy closedBus.cur closedBus = false ∧ SerialUnit closedBus ∧
      refusal (exec (.serialOpen [] 0 0 1) closedBus) = some .profileOutOfRange ∧
      refusal (exec (.serialOpen [] 0 8 0) closedBus) = some .profileOutOfRange) ∧
    (TwowireReady booted ∧ RegisterUnit booted ∧ booted.i2cHandle[(0x10 : BitVec 7).toFin] = false ∧ (1 : BitVec 16) ≠ 0 ∧
      (1 : BitVec 16).toNat ≤ booted.board.data.maxLen ∧ ([0] : List Byte).length = (1 : BitVec 16).toNat) :=
  ⟨by decide, by decide, by decide, by decide, by decide, by decide⟩
/-- A length of 0, one above `MAX_LEN`, and one that is not the buffer's, for the five operations that name one. -/
theorem witness_ContractRefusals_length :
    let s : State := { booted with board := shortBuffers }
    busy s.cur s = false ∧ s.board.data.maxLen = 4 ∧
    (∀ i ∈ ([.serialTransfer 0 [], .serialTransferSecondary 0 [], .addrWrite 5 0 [], .regRead 0x76 true 0 0,
        .regWrite 0x76 true 0 0 []] : List Instr),
      RolesResolved s i ∧ (lengthOperand i).map (·.1) = some 0) ∧
    (∀ i ∈ ([.serialTransfer 5 [0, 0, 0, 0, 0], .serialTransferSecondary 5 [0, 0, 0, 0, 0], .addrWrite 5 5 [0, 0, 0, 0, 0],
        .regRead 0x76 true 0 5, .regWrite 0x76 true 0 5 [0, 0, 0, 0, 0]] : List Instr),
      RolesResolved s i ∧ lengthOperand i = some (5, 5)) ∧
    RolesResolved s (.serialTransfer 1 []) ∧ lengthOperand (.serialTransfer 1 []) = some (1, 0) := by decide
/-- Each line in turn not resolved; for the last clause every operation that needs it. -/
theorem witness_UnresolvedLinesRefused :
    busy fresh.cur fresh = false ∧ fresh.resolved.contains sensor = false ∧ lineBusy sensor fresh = false ∧
    busy reading.cur reading = false ∧ lineBusy sensor reading = true ∧
    (∀ r ∈ [Role.cs, .ds, .mux0, .mux1],
      let s : State := { booted with resolved := booted.resolved.filter (· ≠ booted.board.roleLine r) }
      busy s.cur s = false ∧ s.resolved.contains (s.board.roleLine r) = false ∧
      ∀ r' ∈ [Role.cs, .ds, .mux0, .mux1], r' ≠ r → s.resolved.contains (s.board.roleLine r') = true) ∧
    (∀ i ∈ ([.serialOpen [] 0 8 1, .serialTransfer 1 [0], .serialTransferSecondary 1 [0], .serialClose, .addrSelect 5 1,
        .addrWrite 5 1 [0], .addrRead 7, .addrSetExt 12, .addrUnselectExt, .regSelect 2 true 6, .frameWrite 5] : List Instr),
      Role.ds ∈ neededRoles i) ∧
    (∀ i ∈ ([.addrSelect 5 1, .addrWrite 5 1 [0], .addrRead 7, .addrSetExt 12, .addrUnselectExt, .regSelect 2 true 6,
        .frameReadReady 7, .frameReadExec 7] : List Instr), Role.cs ∈ neededRoles i) ∧
    (∀ i ∈ ([.regOpenHandle 0x76, .regSelect 2 false 0, .regRead 0x76 true 0 1, .regWrite 0x76 true 0 1 [0]] : List Instr),
      Role.mux0 ∈ neededRoles i ∧ Role.mux1 ∈ neededRoles i) := by decide
/-- No poll, and 32000 polls, that see the level; and 32001. -/
theorem witness_MeasureCounts :
    LineReady wired sensor ∧ lineBit wired.oe[sensor.bank] sensor = true ∧
    (Job.fresh 0 (.gpioRead sensor) []).dht.count = 0 ∧ lineBit 0 sensor = !true ∧ lineBit 8 sensor = true ∧
    (∀ v ∈ List.replicate 32001 (8 : Word), lineBit v sensor = true) ∧ (List.replicate 32000 (8 : Word)).length ≤ 32000 ∧
    (List.replicate 32001 (8 : Word)).length = 32001 := by
  refine ⟨by decide, by decide, by decide, by decide, by decide, fun v hv => ?_, ?_, List.length_replicate⟩
  · rw [List.eq_of_mem_replicate hv]
    decide
  · rw [List.length_replicate]
theorem witness_TrainBits : lows.length = 41 ∧ (highsOf 70 27 [0, 0, 0, 0, 0]).length = 41 ∧ 4 < 5 ∧ 7 < 8 := by decide
theorem witness_ChecksumRule :
    (0xFC : Byte).toNat = ((0xFF : Byte).toNat + (0xFF : Byte).toNat + (0xFF : Byte).toNat + (0xFF : Byte).toNat) % 256 ∧
    (0xFF : Byte).toNat ≠ ((0xFF : Byte).toNat + (0xFF : Byte).toNat + (0xFF : Byte).toNat + (0xFF : Byte).toNat) % 256 := by
  decide
theorem witness_SingleBitFlipCaught : checksumOk [0x02, 0x8C, 0x01, 0x5F, 0xEE] = true ∧ 4 < 5 ∧ 7 < 8 := by decide
theorem witness_WireReadCompletes : Idle wired ∧ LineReady wired sensor ∧ lineBusy sensor wired = false := by decide
/-- Levels of the sensor line as words. -/
def levelWords (levels : List Bool) : List Word := levels.map (fun v => if v then 8 else 0)
/-- Any train of 41 pairs within the bound, among them counts of 0 and of 32000. -/
theorem witness_WireReadDecodesTrain :
    Idle wired ∧ LineReady wired sensor ∧ lineBusy sensor wired = false ∧
    (List.replicate 41 0).length = 41 ∧ (List.replicate 41 32000).length = 41 ∧ 32000 ≤ 32000 ∧
    (∀ c ∈ List.replicate 41 0 ++ List.replicate 41 32000, c ≤ 32000) ∧
    ∀ levels : List Bool,
      (withPads (levelWords levels) wired).env.pads = levelWords levels ++ [] ∧
      (levelWords levels).map (fun w => lineBit w sensor) = levels := by
  refine ⟨by decide, by decide, by decide, by simp, by simp, by simp, ?_, fun levels => ⟨by simp [withPads], ?_⟩⟩
  · intro c hc
    simp only [List.mem_append, List.mem_replicate] at hc
    omega
  · rw [levelWords, List.map_map]
    have : ((fun w => lineBit w sensor) ∘ fun v => if v = true then (8 : Word) else 0) = id := by
      funext v
      cases v <;> decide
    rw [this, List.map_id]
/-- For `OnlyAllowedErrors`, `LocksFreeAtReturn` and `WrittenOnlyBy`. -/
theorem witness_Runs :
    booted.lockSerial = none ∧ booted.lockTwowire = none ∧ Runs (.addrWrite 5 1 [0xFF]) (withSerial [some [0]] [-1] booted) ∧
    Runs (.gpioSetOutput l28) wired ∧ Runs (.addrSetExt 3) booted ∧ Runs (.gpioRead sensor) wired := by decide
theorem witness_WaitsForHeldLock :
    busy contended.cur contended = false ∧ (1 : Nat) ≠ contended.cur ∧ (2 : Nat) ≠ contended.cur ∧
    (Instr.addrWrite 5 1 [0]).wellFormed = true ∧ fitsBoard contended.board (.addrWrite 5 1 [0]) = true ∧
    RolesResolved contended (.addrWrite 5 1 [0]) ∧ RolesResolved contended (.regOpenHandle 0x76) ∧
    firstLock (.addrWrite 5 1 [0]) = .serial ∧ contended.lockSerial = some 1 ∧
    (Instr.regOpenHandle 0x76).wellFormed = true ∧ firstLock (.regOpenHandle 0x76) = .twowire ∧
    contended.lockTwowire = some 2 := by decide
/-- The invariant holds in a state with two operations in flight, each holding a lock, and a step runs from it. -/
theorem witness_InvariantKept :
    Inv { contended with inputs := [.grain 1] } ∧
    (field (fun _ => true) (step { contended with inputs := [.grain 1] })).isSome = true := by
  refine ⟨⟨by decide, ?_, ?_, ?_, fun _ _ => rfl, ?_⟩, by decide⟩
  · intro r hr; cases hr; decide
  · intro r hr; cases hr; decide
  · intro j hj
    have hj : j ∈ contended.inflight := hj
    simp only [contended, List.mem_cons, List.not_mem_nil, or_false] at hj
    rcases hj with rfl | rfl
    · exact ⟨⟨false, by decide, by decide⟩, by simp [Job.fresh], by decide⟩
    · exact ⟨⟨false, by decide, by decide⟩, by simp [Job.fresh], by decide⟩
  · intro l hl
    simp only [contended, booted, List.contains_cons, Bool.or_eq_true, beq_iff_eq, List.contains_nil, Bool.false_eq_true,
      or_false] at hl
    rcases hl with rfl | rfl | rfl | rfl | rfl <;> decide
/-- For `NothingIsUndone` and the second clause of `CreatedOnce`: a step from `fresh`, where each window has been mapped and
each handle opened no more than once. -/
theorem witness_StepRuns :
    (field (fun t => t.trace) (step { fresh with
      env := { Env.unscripted with openMem := [true], map := [true] }, inputs := [.issue 0 .command [0x10, 7, 0]] })) =
      some [.mapWindow 1] ∧ fresh.trace = [] := by decide
theorem witness_Once : Once fresh := ⟨by simp [fresh, booted], by simp [fresh, booted]⟩
/-- `BootDone` holds, and an operation on no role line and one of each unit run from there. -/
theorem witness_BootDone :
    BootDone booted ∧ lineOperand (.gpioSetLow sensor) = some sensor ∧
    (∀ r ∈ [Role.cs, .ds, .mux0, .mux1], sensor ≠ booted.board.roleLine r) ∧ Runs (.gpioSetLow sensor) booted ∧
    lineOperand (.addrWrite 5 1 [0xFF]) = none ∧ Runs (.addrWrite 5 1 [0xFF]) (withSerial [none] [] booted) :=
  ⟨⟨by decide, by decide, by decide, by decide, by decide, by decide, by decide⟩,
    by decide, by decide, by decide, by decide, by decide⟩
/-- Nothing mapped yet, and an environment that grants what the boot operations ask. -/
def beforeBoot : State :=
  { fresh with
    oe := #v[0xFFFFFFFF, 0xFFFFFFFF, 0, 0], dataOut := #v[0, 0x10000, 0, 0]
    env := { Env.unscripted with openMem := [true, true, true, true], map := [true, true, true, true], spiOpen := [true] } }
theorem witness_BootReachedAndKept :
    SerialReady beforeBoot ∧ beforeBoot.spiOpen = false ∧ prim.word ≠ 0 ∧ prim.speed ≠ 0 ∧
    beforeBoot.env.openMem = [true, true, true, true] ++ [] ∧ beforeBoot.env.map = [true, true, true, true] ++ [] ∧
    beforeBoot.env.spiOpen = true :: [] ∧
    field (fun t => (localSelector t, t.oe, t.dataOut, t.spiOpen, t.results.length))
      (execAll (bootOperations beforeBoot.board 2 [0x62] prim) beforeBoot) =
      some (2, #v[0xFFFFFFDF, 0xFFF8FFFF, 0, 0], #v[0x20, 0x60000, 0, 0], true, 13) := by decide
theorem witness_GrainsRefineWhole :
    (field (fun _ => true) (runInputs [.issue 0 .command [0x32, 7]] (withSerial [none] [] booted))).isSome = true := by decide

end Sys2Proof.Tests
end

section
/-! What reset leaves in the registers, bank by bank and handle by handle, and the two listed parameters of its board. -/

namespace Sys2Proof.Machine

/-- No window is mapped at reset (10_state.md R38). -/
theorem reset_winMapped (b : Fin 4) : State.reset.winMapped[b] = false := by
  have key : ∀ b : Fin 4, #v[false, false, false, false][b] = false := by decide
  exact key b

/-- `OE[b]` holds its reset draw (10_state.md R38). -/
theorem reset_oe (b : Fin 4) : State.reset.oe[b] = Config.resetOe b := Vector.getElem_ofFn b.isLt

/-- `DATAOUT[b]` holds its reset draw (10_state.md R38). -/
theorem reset_dataOut (b : Fin 4) : State.reset.dataOut[b] = Config.resetDataOut b := Vector.getElem_ofFn b.isLt

/-- No handle is open at reset (10_state.md R38). -/
theorem reset_i2cHandle (t : BitVec 7) : State.reset.i2cHandle[t.toFin] = false :=
  Vector.getElem_replicate t.toFin.isLt

/-- Whatever the board chosen, `withListed` gives it the values 00_scope.md R7 lists. -/
theorem withListed_listed (bd : Board) : bd.withListed.Listed := ⟨rfl, rfl⟩

/-- The board at reset takes the listed values of `EXT_SEL_ENCODE` and `RAW_READ_FILL` (00_scope.md R7, D15, D18). -/
theorem reset_board_listed : State.reset.board.Listed := withListed_listed _

/-- Settles O8: the vector registers bank by bank and handle by handle, the scalar ones as `State.reset` writes them, and
the board's two listed values from `reset_board_listed`. -/
theorem resetValues : Obligations.ResetValues := by
  unfold Obligations.ResetValues
  have hbanks : ∀ b : Fin 4, State.reset.winMapped[b] = false ∧ State.reset.oe[b] = Config.resetOe b ∧
      State.reset.dataOut[b] = Config.resetDataOut b :=
    fun b => ⟨reset_winMapped b, reset_oe b, reset_dataOut b⟩
  have hfill : State.reset.board.data.rawFill = 0x00 := reset_board_listed.2
  exact ⟨hbanks, rfl, rfl, reset_i2cHandle, rfl, rfl, rfl, rfl, rfl, extSelEncode_listed reset_board_listed, hfill⟩

end Sys2Proof.Machine
end

section
/-! The accesses at the register windows: an access the checks refuse is refused as a read and as a write by the same name, and
each register refuses the kind of access it lacks. -/

namespace Sys2Proof

/-- Every register lies inside its bank's window (20_memory.md R62). -/
theorem Board.addr_mem_window (bd : Board) (b : Fin 4) (r : Reg) :
    bd.data.base[b] ≤ bd.addr b r ∧ bd.addr b r < bd.data.base[b] + 4096 :=
  ⟨Nat.le_add_right _ _, Nat.add_lt_add_left (bd.offset_lawful r).2 _⟩

end Sys2Proof

namespace Sys2Proof.Machine

/-! ## What the checks let through and what they refuse -/

theorem access_mapped {s : State} {b : Fin 4} (h : s.winMapped[b] = true) (r : Reg) :
    access (s.board.addr b r) 4 s = .ok (b, r) := by
  simp [access_addr, h]

/-- A refused access is refused whole: the read and the write both answer the refusal's name. -/
theorem memRead_memWrite_of_access_error {a n : Nat} {s : State} {e : Refusal} (h : access a n s = .error e) (v : Word) :
    memRead a n s = .error e ∧ memWrite a n v s = .error e := by
  simp [memRead, memWrite, h]

theorem access_unmapped {s : State} {b : Fin 4} (h : s.winMapped[b] = false) (r : Reg) :
    access (s.board.addr b r) 4 s = .error .windowUnmapped := by
  simp [access_addr, h]

theorem access_notWord {n : Nat} (h : n ≠ 4) (a : Nat) (s : State) : access a n s = .error .accessNotWord := by
  simp [access, h]

theorem access_misaligned {a : Nat} (h : a % 4 ≠ 0) (s : State) : access a 4 s = .error .accessMisaligned := by
  simp [access, h]

theorem access_noRegister {a : Nat} {s : State} (ha : a % 4 = 0) (h : ∀ b r, s.board.addr b r ≠ a) :
    access a 4 s = .error .noRegisterAtAddress := by
  simp [access, ha, registerAt_none s.board a h]

/-! ## The kinds of access a register lacks -/

section
variable {s : State} {b : Fin 4} {r : Reg}

/-- Only `OE` and `DATAIN` have a read side (20_memory.md R62). -/
theorem memRead_forbidden (h : s.winMapped[b] = true) (hoe : r ≠ .oe) (hin : r ≠ .dataIn) :
    memRead (s.board.addr b r) 4 s = .error .accessKindForbidden := by
  cases r with
  | oe => exact absurd rfl hoe
  | dataIn => exact absurd rfl hin
  | dataOut | clearDataOut | setDataOut => simp [memRead, access_mapped h]

/-- `DATAIN` and the latch's own offset have no write side (20_memory.md R62). -/
theorem memWrite_forbidden (h : s.winMapped[b] = true) (hr : r = .dataIn ∨ r = .dataOut) (v : Word) :
    memWrite (s.board.addr b r) 4 v s = .error .accessKindForbidden := by
  rcases hr with rfl | rfl <;> simp [memWrite, access_mapped h]

end

/-! ## Bits a port write leaves -/

/-- A bit written as 0 to a port leaves the latch's bit (10_state.md R23). -/
theorem latchBit_of_portBit_zero {m : Word} {k : Nat} (h : m.getLsbD k = false) (latch : Word) :
    (latch ||| m).getLsbD k = latch.getLsbD k ∧ (latch &&& ~~~ m).getLsbD k = latch.getLsbD k := by
  have hin : latch.getLsbD k = true → k < 32 := BitVec.lt_of_getLsbD
  constructor
  · simp [h]
  · simpa [h] using hin

/-! ## The statements -/

/-- Settles O10: the two port writes by the rules of the windows, the bits written as 0 one by one, and both reads refused
because a port has no read side. -/
theorem portWrites : Obligations.PortWrites := by
  unfold Obligations.PortWrites
  intro s b m hmap
  have hbits : ∀ k, m.getLsbD k = false →
      (s.dataOut[b] ||| m).getLsbD k = s.dataOut[b].getLsbD k ∧
      (s.dataOut[b] &&& ~~~ m).getLsbD k = s.dataOut[b].getLsbD k :=
    fun _ hk => latchBit_of_portBit_zero hk s.dataOut[b]
  exact ⟨memWrite_set hmap m, memWrite_clear hmap m, hbits, memRead_forbidden hmap (by decide) (by decide),
    memRead_forbidden hmap (by decide) (by decide)⟩

/-- Settles O11: where the registers lie is the lawful board's doing, a mapped register answers by its own rule, and every
other access fails one of the checks of `access`. -/
theorem windowAccess : Obligations.WindowAccess := by
  unfold Obligations.WindowAccess
  intro s b
  refine ⟨s.board.addr_mem_window b, fun _ _ _ => s.board.addr_inj, fun hmap => ?mapped, fun hmap r v => ?unmapped,
    fun a n v hn => ?notWord, fun a v ha => ?misaligned, fun a v ha hreg => ?noRegister⟩
  case mapped =>
    exact ⟨memRead_oe hmap, memWrite_oe hmap, memRead_dataIn hmap, memWrite_forbidden hmap (.inl rfl),
      memRead_forbidden hmap (by decide) (by decide), memWrite_forbidden hmap (.inr rfl)⟩
  case unmapped => exact memRead_memWrite_of_access_error (access_unmapped hmap r) v
  case notWord => exact memRead_memWrite_of_access_error (access_notWord hn a s) v
  case misaligned => exact memRead_memWrite_of_access_error (access_misaligned ha s) v
  case noRegister => exact memRead_memWrite_of_access_error (access_noRegister ha hreg) v

end Sys2Proof.Machine
end

section
/-! The parity bit of an address frame, as a count of ones. -/

namespace Sys2Proof

open Machine

/-- The parity bit counts the address bits: it is 1 when the number of their ones is odd (30_encoding.md R96). -/
theorem parity_eq_true_iff_popcount (a : BitVec 4) : parity a = true ↔ popcount a % 2 = 1 := by
  revert a
  decide

/-- Parity and address together have an even number of ones (R96). -/
theorem popcount_parity_append (a : BitVec 4) : popcount (BitVec.ofBool (parity a) ++ a) % 2 = 0 := by
  revert a
  decide

/-- Bits 7 to 3 of a frame are its parity and its address (R95). -/
theorem addressFrame_parity_address (a : BitVec 4) (op : BitVec 3) :
    (addressFrame a op).extractLsb' 3 5 = BitVec.ofBool (parity a) ++ a :=
  BitVec.extractLsb'_append_eq_left

/-- Settles O4: bit 7 of a frame is `parity`, whatever the operation, and bits 7 to 3 are `parity` and the address. -/
theorem frameParityEven : Obligations.FrameParityEven := by
  unfold Obligations.FrameParityEven
  intro a op op'
  have hbit : ∀ op, (addressFrame a op).getLsbD 7 = parity a := fun op => (addressFrame_fields a op).2.2
  rw [hbit op, hbit op', addressFrame_parity_address]
  exact ⟨by simp only [parity, Bool.xor_assoc], parity_eq_true_iff_popcount a, popcount_parity_append a, rfl⟩

end Sys2Proof
end

section
/-! The selector byte sent to the extension board, which `unselect_extension` (42_addressing.md R167) and `select_channel`
(43_register_bus.md R182) end with: a module write that must see its byte accepted. -/

namespace Sys2Proof.Machine

/-- A code neither half of which is zero is live (30_encoding.md R99). -/
theorem parked_eq_false {e : BitVec 4} (hhi : e.toNat / 4 ≠ 0) (hlo : e.toNat % 4 ≠ 0) : parked e = false := by
  revert e
  decide

section
variable {s t : State} {j : Job} {rest : List Micro} {a e : BitVec 4} {r : Except Error Int}

/-- The selector byte's write, whoever holds the locks: it ends the operation with its error, or goes on with the count
accepted (42_addressing.md R163). -/
theorem runCode_selector_cases (hw : moduleWrite a [extSelEncode s.board e] s = (r, t)) (ha : s.extAddr = some a)
    (hs : AddressingReady s) (x y : Option Nat) :
    (∃ err k, r = .error err ∧ k.who = j.who ∧ k.result = .error err ∧
      runCode (writeSteps .ext (.selector e) ++ rest) j { s with lockSerial := x, lockTwowire := y } =
        .next (finish k { t with lockSerial := x, lockTwowire := y })) ∨
    (∃ k, r = .ok k.count ∧ k.who = j.who ∧ k.result = j.result ∧
      runCode (writeSteps .ext (.selector e) ++ rest) j { s with lockSerial := x, lockTwowire := y } =
        runCode rest k { t with lockSerial := x, lockTwowire := y }) := by
  have hlocked : moduleWrite a [extSelEncode s.board e] { s with lockSerial := x, lockTwowire := y } =
      (r, { t with lockSerial := x, lockTwowire := y }) := by
    rw [moduleWrite_lockTwowire a _ { s with lockSerial := x } y, moduleWrite_lockSerial, hw]
  have hrun := runCode_write (ref := .ext) (p := .selector e) (j := j) (rest := rest)
    (s := { s with lockSerial := x, lockTwowire := y }) (payloadBytes_selector s.board e) ha hs
  simp only [hlocked] at hrun
  cases r with
  | ok n => refine .inr ⟨_, rfl, ?_, ?_, hrun⟩ <;> rfl
  | error err =>
    obtain rfl | rfl := moduleWrite_error a _ s (congrArg Prod.fst hw)
    all_goals refine .inl ⟨_, _, rfl, ?_, ?_, hrun⟩ <;> rfl

/-- The selector byte must have been accepted. -/
theorem runCode_checkAccepted (hr : j.result = .ok .unit) :
    ∃ k, k.who = j.who ∧ k.result = selectorResult (.ok j.count) ∧
      runCode [.checkCount 1 .writeFailed] j s = .next (finish k s) := by
  by_cases hn : j.count < 1
  · exact ⟨{ j with result := .error .writeFailed }, rfl, by simp only [selectorResult, hn, if_true],
      runCode_stop (by simp only [micro, stepCheckCount, Nat.cast_one, hn, if_true, raise])⟩
  · have hgo : micro (.checkCount 1 .writeFailed) j s = .go j s := by
      simp only [micro, stepCheckCount, Nat.cast_one, hn, if_false]
    exact ⟨j, rfl, by simp only [selectorResult, hn, if_false, hr], (runCode_go hgo).trans (runCode_nil j s)⟩

theorem runCode_releaseSerial (h : s.lockSerial = some j.who) :
    runCode (.releaseSerial :: rest) j s = runCode rest j { s with lockSerial := none } :=
  runCode_go (by simp only [micro, stepReleaseSerial, unlock, h, if_true])

/-- The end of an operation that took the locks `x` and `y` from a state that had them free. -/
theorem finish_answered {x y : Option Nat} {res : Result} (hj : j.who = t.cur) (hr : j.result = res)
    (hx : unlock t.cur x = t.lockSerial) (hy : unlock t.cur y = t.lockTwowire) :
    finish j { t with lockSerial := x, lockTwowire := y } = answered res t := by
  simp only [finish, answered, hj, hr, hx, hy]

/-- A module write keeps the requester and the locks. -/
theorem moduleWrite_keeps {data : List Byte} (hw : moduleWrite a data s = (r, t)) :
    t.cur = s.cur ∧ t.lockSerial = s.lockSerial ∧ t.lockTwowire = s.lockTwowire := by
  obtain rfl : (moduleWrite a data s).2 = t := congrArg Prod.snd hw
  exact ⟨moduleWrite_cur .., moduleWrite_keeps_lockSerial .., moduleWrite_keeps_lockTwowire ..⟩

section
variable (hw : moduleWrite a [extSelEncode s.board e] s = (r, t)) (ha : s.extAddr = some a) (hs : AddressingReady s)
  (hwho : j.who = s.cur) (hres : j.result = .ok .unit) (hser : s.lockSerial = none)
include hw ha hs hwho hres hser

/-- The selector byte's write as `unselect_extension` makes it, `lock.serial` taken (42_addressing.md R167). -/
theorem runCode_selectorWrite (htwo : s.lockTwowire ≠ some s.cur) :
    runCode (writeSteps .ext (.selector e) ++ [.checkCount 1 .writeFailed]) j { s with lockSerial := some j.who } =
      .next (answered (selectorResult r) t) := by
  obtain ⟨hcur, htser, httwo⟩ := moduleWrite_keeps hw
  have hend : ∀ {k : Job}, k.who = j.who → k.result = selectorResult r →
      finish k { t with lockSerial := some j.who, lockTwowire := s.lockTwowire } = answered (selectorResult r) t :=
    fun hk hr => finish_answered (by rw [hk, hwho, hcur]) hr (by simp [unlock, hwho, hcur, htser, hser])
      (by simp [unlock, hcur, httwo, htwo])
  obtain ⟨err, k, rfl, hk, hr, hrun⟩ | ⟨k, rfl, hk, hr, hrun⟩ :=
    runCode_selector_cases (j := j) (rest := [.checkCount 1 .writeFailed]) hw ha hs (some j.who) s.lockTwowire
  · rw [hrun, hend hk hr]
  · obtain ⟨k', hk', hr', hlast⟩ := runCode_checkAccepted (hr.trans hres)
    rw [hrun, hlast, hend (hk'.trans hk) hr']

/-- The extension part of `select_channel`, `lock.twowire` taken: `lock.serial` is taken second and released before the
count is looked at (43_register_bus.md R182). -/
theorem runCode_extensionSteps (htwo : s.lockTwowire = none) :
    runCode (extensionSteps e) j { s with lockTwowire := some j.who } = .next (answered (selectorResult r) t) := by
  obtain ⟨hcur, htser, httwo⟩ := moduleWrite_keeps hw
  have hend : ∀ {k : Job} {x : Option Nat}, k.who = j.who → k.result = selectorResult r →
      x = none ∨ x = some j.who →
      finish k { t with lockSerial := x, lockTwowire := some j.who } = answered (selectorResult r) t := by
    intro k x hk hr hx
    refine finish_answered (by rw [hk, hwho, hcur]) hr ?_ (by simp [unlock, hwho, hcur, httwo, htwo])
    obtain rfl | rfl := hx <;> simp [unlock, hwho, hcur, htser, hser]
  have htake : runCode (extensionSteps e) j { s with lockTwowire := some j.who } = _ := runCode_takeSerial hser
  obtain ⟨err, k, rfl, hk, hr, hrun⟩ | ⟨k, rfl, hk, hr, hrun⟩ :=
    runCode_selector_cases (j := j) (rest := [.releaseSerial, .checkCount 1 .writeFailed]) hw ha hs (some j.who)
      (some j.who)
  · rw [htake, ← hend hk hr (.inr rfl)]
    exact hrun
  · obtain ⟨k', hk', hr', hlast⟩ := runCode_checkAccepted (hr.trans hres)
    rw [htake, ← hend (hk'.trans hk) hr' (.inl rfl), ← hlast]
    exact hrun.trans (runCode_releaseSerial (congrArg some hk.symm))

end

end

/-! ## `addressing.unselect_extension` -/

section
variable {s t : State} {a e : BitVec 4} {r : Except Error Int} {loc : BitVec 2}

/-- With no board nothing is sent (42_addressing.md R167). -/
theorem exec_addrUnselectExt_noBoard (hs : SerialReady s) (hu : AddressingUnit s) (ha : s.extAddr = none) :
    exec .addrUnselectExt s = .next (answered (.ok .unit) s) := by
  obtain ⟨hidle, hser, htwo⟩ := hs
  calc exec .addrUnselectExt s
    _ = runCode codeAddrUnselectExt (Job.fresh s.cur .addrUnselectExt codeAddrUnselectExt) s := execCode_ready hidle
    _ = _ := runCode_requireRoles (rolesResolved_addressing hu)
    _ = _ := runCode_takeSerial hser
    _ = _ := runCode_stopWithoutExt ha
    _ = _ := congrArg _ (finish_serial rfl rfl hser htwo)

/-- With a board the park code's byte is written to it (R167). -/
theorem exec_addrUnselectExt_board (hs : SerialReady s) (hu : AddressingReady s) (ha : s.extAddr = some a)
    (hw : moduleWrite a [extSelEncode s.board Config.extPark] s = (r, t)) :
    exec .addrUnselectExt s = .next (answered (selectorResult r) t) := by
  obtain ⟨hidle, hser, htwo⟩ := hs
  calc exec .addrUnselectExt s
    _ = runCode codeAddrUnselectExt (Job.fresh s.cur .addrUnselectExt codeAddrUnselectExt) s := execCode_ready hidle
    _ = _ := runCode_requireRoles (rolesResolved_addressing hu.2)
    _ = _ := runCode_takeSerial hser
    _ = _ := runCode_stopIfNoExt ha
    _ = _ := runCode_selectorWrite hw ha hu rfl rfl hser htwo

/-! ## `register_bus.select_channel` -/

/-- Without an extension code only the two local lines move (43_register_bus.md R182). -/
theorem exec_regSelect_local (hs : TwowireReady s) (hr : RegisterUnit s) :
    exec (.regSelect loc false e) s = .next (answered (.ok .unit) (muxDriven loc s)) := by
  obtain ⟨hidle, htwo, hser⟩ := hs
  calc exec (.regSelect loc false e) s
    _ = runCode (codeRegSelect loc false e) (Job.fresh s.cur (.regSelect loc false e) (codeRegSelect loc false e)) s :=
      execCode_ready hidle
    _ = _ := runCode_requireRoles (rolesResolved_register hr)
    _ = _ := runCode_takeTwowire htwo
    _ = _ := runCode_mux loc hr.1 hr.2
    _ = .next (finish _ _) := runCode_nil _ _
    _ = _ := congrArg _ (finish_twowire (t := muxDriven loc s) rfl rfl htwo hser)

/-- With a live code and a board the code's byte is written to it after the two lines have moved (R182). -/
theorem exec_regSelect_board (hs : BothReady s) (hr : RegisterUnit s) (ha : s.extAddr = some a)
    (hu : AddressingReady s) (hp : parked e = false)
    (hw : moduleWrite a [extSelEncode s.board e] (muxDriven loc s) = (r, t)) :
    exec (.regSelect loc true e) s = .next (answered (selectorResult r) t) := by
  obtain ⟨hidle, hser, htwo⟩ := hs
  calc exec (.regSelect loc true e) s
    _ = runCode (codeRegSelect loc true e) (Job.fresh s.cur (.regSelect loc true e) (codeRegSelect loc true e)) s :=
      execCode_ready hidle
    _ = _ := runCode_requireRoles (rolesResolved_select hr fun _ => hu.2)
    _ = _ := runCode_takeTwowire htwo
    _ = _ := runCode_checkExt ha hp
    _ = _ := runCode_mux loc hr.1 hr.2
    _ = _ := runCode_extensionSteps (s := muxDriven loc s) hw ha hu rfl rfl hser htwo

end

/-! ## The statements -/

/-- Settles O34: with no board the operation returns at once, with one it is the park code's selector write, and the listed
byte is the code zero-extended. -/
theorem unselectEffect : Obligations.UnselectEffect := by
  unfold Obligations.UnselectEffect
  intro s hs hu
  exact ⟨exec_addrUnselectExt_noBoard hs hu, fun a ha ho => exec_addrUnselectExt_board hs ⟨ho, hu⟩ ha rfl,
    fun hl => extSelEncode_listed hl Config.extPark⟩

/-- Settles O37: the two local lines, then for a live code the extension part as a selector write; the listed byte is the
code zero-extended. -/
theorem selectChannelEffect : Obligations.SelectChannelEffect := by
  unfold Obligations.SelectChannelEffect
  intro s loc e hr
  exact ⟨fun hs => exec_regSelect_local hs hr,
    fun a hs ha hu hhi hlo => exec_regSelect_board hs hr ha hu (parked_eq_false hhi hlo) rfl,
    fun hl => extSelEncode_listed hl e⟩

end Sys2Proof.Machine
end

section
/-! The GPIO unit (40_gpio.md): what a direction and a level operation leave in the registers, on the pads and in the byte
view, and what is refused on a line no `resolve` returned. -/

namespace Sys2Proof.Machine

/-! ## Bits of a direction word -/

section
variable {v : Word} {l : Line} {d : Dir}

/-- The direction bit written: 0 is an output, 1 an input (10_state.md R22). -/
theorem lineBit_withDir_same : lineBit (withDir v l d) l = decide (d = .inp) := by
  have hl := l.bit.isLt
  cases d <;> simp [withDir, lineBit, mask, hl]

/-- A line that already has the direction keeps its bank's word (40_gpio.md R122, R123). -/
theorem withDir_idem (h : lineBit v l = decide (d = .inp)) : withDir v l d = v := by
  have hline : ∀ m : Line, m.bank = l.bank → lineBit (withDir v l d) m = lineBit v m := by
    intro m hb
    by_cases hm : m = l
    · rw [hm, lineBit_withDir_same, h]
    · exact withDir_other hm hb d v
  exact BitVec.eq_of_getLsbD_eq fun k hk => hline ⟨l.bank, ⟨k, hk⟩⟩ rfl

end

/-! ## What a direction and a level operation leave -/

/-- The state after a direction operation (R122, R123). -/
def directionSet (l : Line) (d : Dir) (s : State) : State :=
  { s with oe := s.oe.set l.bank (withDir s.oe[l.bank] l d), trace := s.trace ++ [.gpioDir l d] }

/-- The state after a level operation (R124, R125). -/
def levelDriven (l : Line) (v : Bool) (s : State) : State :=
  { s with dataOut := setLatch l v s.dataOut, trace := s.trace ++ [.gpioLevel l v] }

section
variable {s : State} {l m : Line} {i : Instr} {v : Bool} {d : Dir}

theorem execCode_direction (hi : Idle s) (hl : LineReady s l) :
    execCode i [.oeRead (.line l), .oeWrite (.line l) d] s = .next (answered (.ok .unit) (directionSet l d s)) := by
  obtain ⟨hidle, hser, htwo⟩ := hi
  calc execCode i [.oeRead (.line l), .oeWrite (.line l) d] s
    _ = runCode [.oeRead (.line l), .oeWrite (.line l) d] (Job.fresh s.cur i _) s := execCode_ready hidle
    _ = runCode [] _ (directionSet l d s) := runCode_direction d hl
    _ = .next (finish _ (directionSet l d s)) := runCode_nil _ _
    _ = _ := congrArg _ (finish_idle rfl rfl hser htwo)

theorem execCode_level (hi : Idle s) (hl : LineReady s l) :
    execCode i [.level (.line l) v] s = .next (answered (.ok .unit) (levelDriven l v s)) := by
  obtain ⟨hidle, hser, htwo⟩ := hi
  calc execCode i [.level (.line l) v] s
    _ = runCode [.level (.line l) v] (Job.fresh s.cur i _) s := execCode_ready hidle
    _ = runCode [] _ (levelDriven l v s) := runCode_go (stepLevel_line hl.1 hl.2 v)
    _ = .next (finish _ (levelDriven l v s)) := runCode_nil _ _
    _ = _ := congrArg _ (finish_idle rfl rfl hser htwo)

/-- An output's pad carries its latch bit, an input's pad is not driven (10_state.md R22). -/
theorem drivenLevel_directionSet :
    drivenLevel (directionSet l d s) l = if d = .inp then none else some (latch s l) := by
  have hbit : lineBit (directionSet l d s).oe[l.bank] l = decide (d = .inp) := by
    simp [directionSet, lineBit_withDir_same]
  simp only [drivenLevel, hbit, decide_eq_true_eq]
  rfl

/-- A direction written again leaves `OE` as it was. -/
theorem directionSet_oe_idem (h : lineBit s.oe[l.bank] l = decide (d = .inp)) : (directionSet l d s).oe = s.oe := by
  simp only [directionSet, withDir_idem h]
  exact Vector.set_getElem_self _

/-- The pad of an input line does not show the latch (R124). -/
theorem drivenLevel_levelDriven_input (h : lineBit s.oe[l.bank] l = true) :
    drivenLevel (levelDriven l v s) l = drivenLevel s l := by
  simp only [drivenLevel, levelDriven, h, if_true]

/-- No other line's pad shows the latch bit written (R124, 20_memory.md R76). -/
theorem drivenLevel_levelDriven_other (h : m ≠ l) : drivenLevel (levelDriven l v s) m = drivenLevel s m := by
  simp only [drivenLevel, levelDriven, setLatch_other h]

/-- A level operation of either level: its outcome, and what of the latches and pads it leaves (R124, R125). -/
theorem level_effect (hi : Idle s) (hl : LineReady s l) :
    execCode i [.level (.line l) v] s = .next (answered (.ok .unit) (levelDriven l v s)) ∧
    (latch s l = v → (levelDriven l v s).dataOut = s.dataOut) ∧
    (lineBit s.oe[l.bank] l = true → drivenLevel (levelDriven l v s) l = drivenLevel s l) ∧
    (∀ m, m ≠ l → drivenLevel (levelDriven l v s) m = drivenLevel s m) :=
  ⟨execCode_level hi hl, setLatch_idem, drivenLevel_levelDriven_input, fun _ => drivenLevel_levelDriven_other⟩

end

/-- Settles O13: the read and the write of `OE` as `runCode_direction` says them; the bit written is 0, so the pad carries
the latch, and a bit that was 0 already leaves the word. -/
theorem setOutputEffect : Obligations.SetOutputEffect := by
  unfold Obligations.SetOutputEffect
  intro s l hi hl
  exact ⟨execCode_direction hi hl, drivenLevel_directionSet (d := .out), directionSet_oe_idem (d := .out)⟩

/-- Settles O15: a level operation that writes the set port. -/
theorem setHighEffect : Obligations.SetHighEffect := by
  unfold Obligations.SetHighEffect
  intro s l hi hl
  exact level_effect (v := true) hi hl

/-- Settles O16: a level operation that writes the clear port. -/
theorem setLowEffect : Obligations.SetLowEffect := by
  unfold Obligations.SetLowEffect
  intro s l hi hl
  exact level_effect (v := false) hi hl

/-! ## The byte view -/

section
variable {s t : State} {l : Line} {a : Nat}

/-- The register a byte belongs to starts at most three bytes below it (20_memory.md R65). -/
theorem registerAt_byte {bd : Board} {b : Fin 4} {r : Reg} (h : registerAt bd (a - a % 4) = some (b, r)) :
    bd.addr b r ≤ a ∧ a < bd.addr b r + 4 := by
  have hword := registerAt_some h
  omega

/-- A byte outside the four of a bank's register lies in another bank's word of that register, if in any. -/
theorem getElem_set_outside {bd : Board} {r : Reg} {b b' : Fin 4} {ws : Vector Word 4} {w : Word}
    (hout : ¬ (bd.addr b r ≤ a ∧ a < bd.addr b r + 4)) (h : registerAt bd (a - a % 4) = some (b', r)) :
    (ws.set b w)[b'] = ws[b'] := by
  have hne : b ≠ b' := by
    rintro rfl
    exact hout (registerAt_byte h)
  exact Vector.getElem_set_ne _ _ (Fin.val_ne_of_ne hne)

/-- A direction operation stores to the four bytes of `OE` (40_gpio.md R122, R123). -/
theorem storedByte_direction {i : Instr} {d : Dir}
    (h : execCode i [.oeRead (.line l), .oeWrite (.line l) d] s = .next t)
    (hout : ¬ (s.board.addr l.bank .oe ≤ a ∧ a < s.board.addr l.bank .oe + 4)) : storedByte t a = storedByte s a := by
  obtain ⟨hoe, hdata, hboard⟩ := direction_inv h
  exact storedByte_congr hboard (fun b hb => by rw [hoe, getElem_set_outside hout hb]) (fun b _ => by rw [hdata])

/-- A level operation changes at most the four bytes of the latch behind the port (10_state.md R23). -/
theorem storedByte_level {i : Instr} {v : Bool} (h : execCode i [.level (.line l) v] s = .next t)
    (hout : ¬ (s.board.addr l.bank .dataOut ≤ a ∧ a < s.board.addr l.bank .dataOut + 4)) :
    storedByte t a = storedByte s a := by
  obtain ⟨hdata, hoe, hboard⟩ := level_inv h
  exact storedByte_congr hboard (fun b _ => by rw [hoe])
    (fun b hb => by rw [hdata, setLatch, getElem_set_outside hout hb])

/-- An operation with no store to `OE` and no port write changes no byte (20_memory.md R62). -/
theorem storedByte_exec {i : Instr} (hoe : ∀ m ∈ codeOf i, ∀ l d, m ≠ .oeWrite l d)
    (hlevel : ∀ m ∈ codeOf i, ∀ l v, m ≠ .level l v) (h : exec i s = .next t) : storedByte t a = storedByte s a := by
  have hboard : t.board = s.board :=
    exec_keeps (fun _ _ _ _ _ _ f => f.rest.2.1) (fun _ _ => rfl) (fun _ _ _ => rfl) h
  have ho : t.oe = s.oe :=
    exec_keeps (fun m hm _ _ _ _ f => f.oe (hoe m hm)) (fun _ _ => rfl) (fun _ _ _ => rfl) h
  have hd : t.dataOut = s.dataOut :=
    exec_keeps (fun m hm _ _ _ _ f => f.dataOut (hlevel m hm)) (fun _ _ => rfl) (fun _ _ _ => rfl) h
  exact storedByte_congr hboard (fun _ _ => by rw [ho]) (fun _ _ => by rw [hd])

end

/-- Settles O18: the two direction operations store one word of `OE`, the two level operations one of the latches, and
`resolve` and `read` have no step that stores. -/
theorem registerBytesFrame : Obligations.RegisterBytesFrame := by
  unfold Obligations.RegisterBytesFrame
  intro s t l a
  refine ⟨fun h hout => ?direction, fun h hout => ?level, fun id h => ?none⟩
  case direction => exact h.elim (storedByte_direction · hout) (storedByte_direction · hout)
  case level => exact h.elim (storedByte_level · hout) (storedByte_level · hout)
  case none =>
    rcases h with h | h
    · exact storedByte_exec (by simp [codeOf, codeGpioResolve]) (by simp [codeOf, codeGpioResolve]) h
    · exact storedByte_exec (by simp [codeOf, codeGpioRead]) (by simp [codeOf, codeGpioRead]) h

/-! ## Lines no `resolve` returned -/

section
variable {s : State} {l : Line} {i : Instr} {m : Micro} {ms : List Micro} {r : Refusal}

/-- An operation whose first step is refused is refused. -/
theorem execCode_refuse (hidle : busy s.cur s = false)
    (h : ∀ j, micro m j s = .refuse r) : execCode i (m :: ms) s = .refused r := by
  rw [execCode_ready hidle, runCode_refuse (h _)]

theorem lineOf_unresolved (h : s.resolved.contains l = false) : lineOf s (.line l) = .error .lineNotResolved := by
  simp only [lineOf, h, Bool.false_eq_true, if_false]

/-- Every step on a line refuses an unresolved one before its access (40_gpio.md R127). -/
theorem micro_oeRead_unresolved (h : s.resolved.contains l = false) (j : Job) :
    micro (.oeRead (.line l)) j s = .refuse .lineNotResolved := by
  simp only [micro, stepOeRead, lineOf_unresolved h]

theorem micro_level_unresolved (h : s.resolved.contains l = false) (v : Bool) (j : Job) :
    micro (.level (.line l) v) j s = .refuse .lineNotResolved := by
  simp only [micro, stepLevel, lineOf_unresolved h]

theorem micro_sample_unresolved (h : s.resolved.contains l = false) (j : Job) :
    micro (.sample (.line l)) j s = .refuse .lineNotResolved := by
  simp only [micro, stepSample, sampleLine, lineOf_unresolved h]

/-- A single-wire read drives its line first of all (44_single_wire.md R202). -/
theorem exec_wireRead_unresolved {k : SensorKind} (hidle : busy s.cur s = false) (h : s.resolved.contains l = false)
    (hsole : lineBusy l s = false) : exec (.wireRead k l) s = .refused .lineNotResolved := by
  have hgo : ∀ j, micro (.requireSole l) j s = .go j s := fun j => by
    simp only [micro, demand, hsole, Bool.not_false, if_true]
  calc exec (.wireRead k l) s
    _ = runCode (codeWireRead k l) (Job.fresh s.cur (.wireRead k l) (codeWireRead k l)) s := execCode_ready hidle
    _ = _ := runCode_go (hgo _)
    _ = _ := runCode_go (m := .phase .idle) rfl
    _ = _ := runCode_refuse (micro_oeRead_unresolved h _)

/-- Two single-wire reads of one line are refused (U8). -/
theorem exec_wireRead_lineBusy {k : SensorKind} (hidle : busy s.cur s = false) (h : lineBusy l s = true) :
    exec (.wireRead k l) s = .refused .lineInUse :=
  execCode_refuse (m := .requireSole l) hidle fun j => by
    simp only [micro, demand, h, Bool.not_true, Bool.false_eq_true, if_false]

/-- No operation runs while a role line it needs is not resolved (40_gpio.md R128): its first step asks for all of them. -/
theorem exec_role_unresolved {role : Role} (hidle : busy s.cur s = false) (hr : role ∈ neededRoles i)
    (h : s.resolved.contains (s.board.roleLine role) = false) : exec i s = .refused .lineNotResolved := by
  have hroles : rolesResolved (neededRoles i) s = false := by
    rw [← Bool.not_eq_true, rolesResolved_iff]
    exact fun hall => Bool.false_ne_true (h.symm.trans (hall role hr))
  obtain hnil | ⟨ms, hcode⟩ := codeOf_roles i
  · simp [hnil] at hr
  · rw [exec_eq_execCode, hcode]
    exact execCode_refuse hidle fun j => by simp only [micro, demand, hroles, Bool.false_eq_true, if_false]

end

/-- Settles O43: each line operation is refused by its first access, a single-wire read by `requireSole` or by its first
access, and an operation of files 41 to 43 by `requireRoles`. -/
theorem unresolvedLinesRefused : Obligations.UnresolvedLinesRefused := by
  unfold Obligations.UnresolvedLinesRefused
  intro s l k hidle
  refine ⟨fun h => ?line, exec_wireRead_lineBusy hidle, fun i r hr h => exec_role_unresolved hidle hr h⟩
  case line =>
    exact ⟨execCode_refuse hidle (micro_oeRead_unresolved h), execCode_refuse hidle (micro_oeRead_unresolved h),
      execCode_refuse hidle (micro_level_unresolved h true), execCode_refuse hidle (micro_level_unresolved h false),
      execCode_refuse hidle (micro_sample_unresolved h), exec_wireRead_unresolved hidle h⟩

end Sys2Proof.Machine
end

section
/-! Boot (70_reset_and_hazards.md R274): the boot operations reach "boot done", and no operation but `close` and those on
a role line leaves it. -/

namespace Sys2Proof.Machine

/-! ## Which lines a step list drives -/

/-- A step that touches the direction or the latch of a line does so on the operand `op`, or writes the latch of a role
line. -/
def Micro.DrivesOnly (op : Option Line) : Micro → Prop
  | .oeRead (.line l) => op = some l
  | .oeWrite (.line l) _ => op = some l
  | .level (.line l) _ => op = some l
  | .oeRead (.role _) => False
  | .oeWrite (.role _) _ => False
  | _ => True

/-- Every operation touches directions and latches only so: files 41 to 43 have no line operand and write role latches,
files 40 and 44 work on their operand. -/
theorem codeOf_drivesOnly (i : Instr) : ∀ m ∈ codeOf i, m.DrivesOnly (lineOperand i) := by
  cases i
  case wireRead k l =>
    have hpairs : ∀ m ∈ pairSteps l Config.dhtPairs, m.DrivesOnly (some l) := fun m hm => by
      obtain ⟨v, d, rfl⟩ := pairSteps_poll l _ m hm
      trivial
    simpa [codeOf, codeWireRead, wakeSteps, requestSteps, listenSteps, sampleSteps, decodeSteps, setOutputSteps,
      setInputSteps, lineOperand, Micro.DrivesOnly, or_imp, forall_and] using hpairs
  case regSelect loc p e =>
    cases p <;>
      simp [codeOf, codeRegSelect, extensionSteps, writeSteps, frameSteps, secondarySteps, Micro.DrivesOnly]
  case regRead t n r len => cases n <;> simp [codeOf, codeRegRead, Micro.DrivesOnly]
  all_goals
    simp [codeOf, codeGpioResolve, codeGpioSetOutput, codeGpioSetInput, codeGpioSetHigh, codeGpioSetLow, codeGpioRead,
      codeSerialOpen, codeSerialTransfer, codeSerialTransferSecondary, codeSerialClose, codeAddrSelect, codeAddrWrite,
      codeAddrRead, codeAddrSetExt, codeAddrUnselectExt, codeFrame, codeRegOpenHandle, codeRegWrite, setOutputSteps,
      setInputSteps, writeSteps, frameSteps, secondarySteps, lineOperand, Micro.DrivesOnly]

/-! ## What an operation keeps of lines and bus -/

/-- A line is among those returned after `l` was, if it is `l` or was before (40_gpio.md R127). -/
theorem contains_noteLine {l x : Line} {ls : List Line} :
    (noteLine l ls).contains x = true ↔ x = l ∨ ls.contains x = true := by
  unfold noteLine
  split
  next hl =>
    refine ⟨.inr, fun h => h.elim ?_ id⟩
    rintro rfl
    exact hl
  next => simp

theorem lineOf_line_eq {s : State} {l l' : Line} (h : lineOf s (.line l) = .ok l') : l' = l := by
  simp only [lineOf] at h
  split at h <;> cases h
  rfl

section
variable {m : Micro} {j j' : Job} {s s' t : State} {i : Instr} {l x : Line}

/-- No step takes back a line returned or its window (10_state.md R26, R27). -/
theorem micro_keeps_lineReady (hx : LineReady s x) (h : (micro m j s).after = some (j', s')) : LineReady s' x := by
  have f := micro_frame h
  by_cases hm : ∃ id, m = .resolve id
  · obtain ⟨id, rfl⟩ := hm
    obtain rfl : (resolvePin id s).2 = s' := by
      simp only [micro, stepResolve, MicroOut.after, Option.some.injEq, Prod.mk.injEq] at h
      exact h.2
    obtain ⟨hwin, hres⟩ | ⟨l, -, hres, -, hwin⟩ := resolvePin_lines id s
    · rwa [LineReady, hwin, hres]
    · exact ⟨by rw [hres, contains_noteLine]; exact .inr hx.1, hwin _ hx.2⟩
  · obtain ⟨hwin, hres⟩ := f.resolved (by simpa using hm)
    rwa [LineReady, hwin, hres]

/-- Only `close` closes the bus; `open` is refused on an open one (93_implementation_defined.md U3). -/
theorem micro_keeps_open (hm : m ≠ .closeBus) (hs : s.spiOpen = true) (h : (micro m j s).after = some (j', s')) :
    s'.spiOpen = true := by
  by_cases hopen : ∃ p c, m = .openBus p c
  · obtain ⟨p, c, rfl⟩ := hopen
    simp only [micro, stepOpenBus, hs, if_true, MicroOut.after, reduceCtorEq] at h
  · have f := (micro_frame h).openClose (by simpa using hopen) hm
    rw [f.1, hs]

/-- The word of the last read of `OE` is kept until the next. -/
theorem micro_keeps_oeWord (hm : ∀ ref, m ≠ .oeRead ref) (h : (micro m j s).after = some (j', s')) :
    j'.oeWord = j.oeWord := by
  cases m
  case oeRead ref => exact absurd rfl (hm ref)
  all_goals
    simp only [micro, stepTakeSerial, stepTakeTwowire, stepReleaseSerial, demand, stepResolve, stepOeWrite, stepLevel,
      stepSample, stepPoll, stepOpenBus, stepCloseBus, stepEnterSecondary, stepLeaveSecondary, stepExchange, stepSendFrame,
      stepRawWrite, stepCheckRx, stepCheckCount, stepReturnRx, stepReturnByte, stepReturnCount, stepCheckFrameOp,
      stepSetExt, stepStopIfNoExt, stepOpenHandle, stepCheckExt, stepBusWrite, stepBusRead, stepPhase, stepThreshold,
      stepPackBits, stepValidate, stepInterpret, raise, stopOk] at h
    repeat' split at h
    all_goals cases h
    all_goals rfl

/-- The line `x` is an output, and so is it in the word read from `OE` for the operand `op`, which the next write of `OE`
stores back (40_gpio.md R122). -/
structure StaysOutput (op : Option Line) (x : Line) (j : Job) (s : State) : Prop where
  out : lineBit s.oe[x.bank] x = false
  read : ∀ l, op = some l → x.bank = l.bank → lineBit j.oeWord x = false

/-- The word of a line's bank, read for another line of that bank. -/
theorem lineBit_bank {oe : Vector Word 4} (h : x.bank = l.bank) : lineBit oe[l.bank] x = lineBit oe[x.bank] x := by
  simp only [h]

/-- A word stored to the bank of another line leaves an output as one, if the word has it as one. -/
theorem lineBit_set_withDir {oe : Vector Word 4} {w : Word} {d : Dir} (hne : x ≠ l)
    (hw : x.bank = l.bank → lineBit w x = false) (hx : lineBit oe[x.bank] x = false) :
    lineBit (oe.set l.bank (withDir w l d))[x.bank] x = false := by
  by_cases hb : x.bank = l.bank
  · have hsame : (oe.set l.bank (withDir w l d))[x.bank] = withDir w l d := by simp [hb]
    rw [hsame, withDir_other hne hb, hw hb]
  · have hother : (oe.set l.bank (withDir w l d))[x.bank] = oe[x.bank] :=
      Vector.getElem_set_ne _ _ (Fin.val_ne_of_ne (Ne.symm hb))
    rw [hother, hx]

/-- Every step keeps an output that is not its operation's operand. -/
theorem micro_keeps_output {op : Option Line} (hm : m.DrivesOnly op) (hx : op ≠ some x) (hp : StaysOutput op x j s)
    (h : (micro m j s).after = some (j', s')) : StaysOutput op x j' s' := by
  have f := micro_frame h
  cases m
  case oeRead ref =>
    obtain l | r := ref
    · obtain ⟨r, ho⟩ | ⟨l', hl, -, ho⟩ := stepOeRead_inv (ref := .line l) (j := j) (s := s) rfl <;>
        simp only [micro, ho, MicroOut.after] at h <;> cases h
      obtain rfl := lineOf_line_eq hl
      refine ⟨hp.out, fun k hk hbank => ?_⟩
      obtain rfl : l' = k := Option.some.inj (hm.symm.trans hk)
      exact (lineBit_bank hbank).trans hp.out
    · exact hm.elim
  case oeWrite ref d =>
    obtain l | r := ref
    · obtain ⟨r, ho⟩ | ⟨l', hl, -, ho⟩ := stepOeWrite_inv (ref := .line l) (d := d) (j := j) (s := s) rfl <;>
        simp only [micro, ho, MicroOut.after] at h <;> cases h
      obtain rfl := lineOf_line_eq hl
      refine ⟨?_, hp.read⟩
      have hne : x ≠ l' := by rintro rfl; exact hx hm
      exact lineBit_set_withDir hne (hp.read l' hm) hp.out
    · exact hm.elim
  all_goals exact ⟨by rw [f.oe (by simp)]; exact hp.out, by rw [micro_keeps_oeWord (by simp) h]; exact hp.read⟩

theorem exec_keeps_board (h : exec i s = .next t) : t.board = s.board :=
  exec_keeps (fun _ _ _ _ _ _ f => f.rest.2.1) (fun _ _ => rfl) (fun _ _ _ => rfl) h

/-- A line returned stays so (10_state.md R26, R27). -/
theorem exec_keeps_lineReady (hx : LineReady s x) (h : exec i s = .next t) : LineReady t x :=
  exec_ind (P := fun _ s => LineReady s x) (Q := fun s => LineReady s x)
    (fun _ _ _ _ _ _ => micro_keeps_lineReady) (fun _ _ h => h) (fun _ _ _ h => h) hx h

theorem serialClose_of_closeBus (hm : .closeBus ∈ codeOf i) : i = .serialClose := by
  obtain ⟨-, -, -, -, -, hclose, -⟩ := codeOf_mem hm
  exact hclose rfl

/-- An open bus is closed by `close` alone. -/
theorem exec_keeps_open (hi : i ≠ .serialClose) (hs : s.spiOpen = true) (h : exec i s = .next t) : t.spiOpen = true :=
  exec_ind (P := fun _ s => s.spiOpen = true) (Q := fun s => s.spiOpen = true)
    (fun _ hm _ _ _ _ => micro_keeps_open fun hclose => hi (serialClose_of_closeBus (hclose ▸ hm)))
    (fun _ _ h => h) (fun _ _ _ h => h) hs h

/-- An output that is not the operand stays an output (10_state.md R22). -/
theorem exec_keeps_output (hi : lineOperand i ≠ some x) (hx : lineBit s.oe[x.bank] x = false) (h : exec i s = .next t) :
    lineBit t.oe[x.bank] x = false :=
  exec_ind (P := StaysOutput (lineOperand i) x) (Q := fun s => lineBit s.oe[x.bank] x = false)
    (fun m hm _ _ _ _ => micro_keeps_output (codeOf_drivesOnly i m hm) hi)
    (fun _ _ h => h.out) (fun _ _ _ h => h.out) ⟨hx, fun _ _ _ => by simp [Job.fresh, lineBit]⟩ h

end

/-! ## Idle levels of `CS` and `DS` -/

/-- The latch of a role line after a step, from the one before. -/
def Micro.latchAfter (r : Role) : Micro → Bool → Bool
  | .level (.role r') v, high => if r' = r then v else high
  | _, high => high

/-- A step list leaves the line of a role high wherever it may end or wait (42_addressing.md R160); `high`: the line is high
at its start. -/
def restores (r : Role) : Bool → List Micro → Bool
  | high, [] => high
  | high, m :: ms => (!m.ends || high) && restores r (m.latchAfter r high) ms

/-- Polls write no latch. -/
theorem restores_pairs (r : Role) (l : Line) (n : Nat) (ms : List Micro) :
    restores r true (pairSteps l n ++ ms) = restores r true ms := by
  induction n with
  | zero => rfl
  | succ n ih => simpa [pairSteps, restores, Micro.latchAfter] using ih

/-- Every operation leaves `CS` and `DS` at their idle level high (42_addressing.md R160, 41_serial_bus.md R146). -/
theorem codeOf_restores {r : Role} (hr : r = .cs ∨ r = .ds) (i : Instr) : restores r true (codeOf i) = true := by
  cases i
  case wireRead k l =>
    simp [codeOf, codeWireRead, wakeSteps, requestSteps, listenSteps, sampleSteps, decodeSteps, setOutputSteps,
      setInputSteps, restores, Micro.latchAfter, restores_pairs]
  case regSelect loc p e =>
    obtain rfl | rfl := hr <;> cases p <;>
      simp [codeOf, codeRegSelect, extensionSteps, writeSteps, frameSteps, secondarySteps, restores, Micro.latchAfter,
        Micro.ends]
  case regRead t n r len => cases n <;> simp [codeOf, codeRegRead, restores, Micro.latchAfter]
  all_goals
    obtain rfl | rfl := hr <;>
    simp [codeOf, codeGpioResolve, codeGpioSetOutput, codeGpioSetInput, codeGpioSetHigh, codeGpioSetLow, codeGpioRead,
      codeSerialOpen, codeSerialTransfer, codeSerialTransferSecondary, codeSerialClose, codeAddrSelect, codeAddrWrite,
      codeAddrRead, codeAddrSetExt, codeAddrUnselectExt, codeFrame, codeRegOpenHandle, codeRegWrite, setOutputSteps,
      setInputSteps, writeSteps, frameSteps, secondarySteps, restores, Micro.latchAfter, Micro.ends]

section
variable {m : Micro} {ms : List Micro} {j j' : Job} {s s' t : State} {i : Instr} {r : Role} {op : Option Line} {n : Nat}

/-- A step that drives no role line as its operand puts the latch of a role line where `latchAfter` says. -/
theorem latch_step (hm : m.DrivesOnly op) (hop : op ≠ some (s.board.roleLine r)) (h : settle n m j s = .go j' s') :
    latch s' (s.board.roleLine r) = m.latchAfter r (latch s (s.board.roleLine r)) := by
  have f := settle_frame (congrArg MicroOut.after h)
  cases m
  case level ref v =>
    rw [settle_not_poll (by simp)] at h
    obtain l | r' := ref
    · obtain ⟨r, ho⟩ | ⟨l', hl, -, ho⟩ := stepLevel_inv h <;> cases ho
      obtain rfl := lineOf_line_eq hl
      exact setLatch_other (by rintro rfl; exact hop hm) v s.dataOut
    · exact latch_role s s' rfl h
  all_goals rw [latch, f.dataOut (by simp)]; rfl

/-- A step that ends the operation, or stays at itself, writes no latch. -/
theorem dataOut_of_settle_end (h : settle n m j s = .stop j' s' ∨ settle n m j s = .again j' s') :
    s'.dataOut = s.dataOut := by
  obtain ⟨-, -, -, -, -, -, -, -, -, -, -, hdata⟩ := settle_stop_locks h
  exact hdata

/-- A step list that restores the line of a role leaves it high. -/
theorem runCode_restores (hd : ∀ m ∈ ms, m.DrivesOnly op) (hop : op ≠ some (s.board.roleLine r))
    (hr : restores r (latch s (s.board.roleLine r)) ms = true) (h : runCode ms j s = .next t) :
    latch t (s.board.roleLine r) = true := by
  induction ms generalizing j s with
  | nil => cases h; exact hr
  | cons m ms ih =>
    simp only [restores, Bool.and_eq_true, Bool.or_eq_true, Bool.not_eq_true'] at hr
    obtain ⟨hends, hrest⟩ := hr
    obtain ⟨j1, s1, hgo, f, hrun⟩ | ⟨hend, hlast⟩ := runCode_step h
    · obtain ⟨-, hboard, -⟩ := f.rest
      rw [← latch_step (hd m (by simp)) hop hgo] at hrest
      rw [← hboard] at hop hrest ⊢
      exact ih (fun m hm => hd m (by simp [hm])) hop hrest hrun
    · have hhigh : latch s (s.board.roleLine r) = true := by simpa [hend] using hends
      have hdata : t.dataOut = s.dataOut := by
        obtain ⟨j1, s1, ho, -, rfl⟩ | ⟨j1, s1, ho, -, rfl⟩ | ⟨-, rfl⟩ := hlast
        · exact dataOut_of_settle_end (s' := s1) (.inr ho)
        · exact dataOut_of_settle_end (s' := s1) (.inl ho)
        · rfl
      rw [latch, hdata]
      exact hhigh

/-- `CS` and `DS` are high at the end of every operation that began with them high and is none on that line itself. -/
theorem exec_keeps_high (hr : r = .cs ∨ r = .ds) (hi : lineOperand i ≠ some (s.board.roleLine r))
    (hs : latch s (s.board.roleLine r) = true) (h : exec i s = .next t) : latch t (s.board.roleLine r) = true := by
  rw [exec_eq_execCode, execCode] at h
  split at h
  · cases h
  · exact runCode_restores (codeOf_drivesOnly i) hi (by rw [hs]; exact codeOf_restores hr i) h

end

/-! ## "Boot done" -/

section
variable {s t : State} {i : Instr} {l : Line}

/-- A line drives the level of its latch where it is an output (10_state.md R22). -/
theorem drivenLevel_eq_some {v : Bool} : drivenLevel s l = some v ↔ lineBit s.oe[l.bank] l = false ∧ latch s l = v := by
  simp only [drivenLevel]
  split <;> simp_all [latch]

theorem drivenLevel_isSome : (drivenLevel s l).isSome = true ↔ lineBit s.oe[l.bank] l = false := by
  simp only [drivenLevel]
  split <;> simp_all

/-- "Boot done" in terms of registers: the role lines are resolved outputs, the bus is open, `CS` and `DS` are latched
high. -/
theorem bootDone_iff :
    BootDone s ↔ (∀ r, RoleReady s r) ∧ (∀ r, lineBit s.oe[(s.board.roleLine r).bank] (s.board.roleLine r) = false) ∧
      s.spiOpen = true ∧ ∀ r, r = .cs ∨ r = .ds → latch s (s.board.roleLine r) = true := by
  constructor
  · rintro ⟨⟨hds, hcs⟩, ⟨hm0, hm1⟩, hcs', hds', hm0', hm1', hopen⟩
    rw [drivenLevel_eq_some] at hcs' hds'
    rw [drivenLevel_isSome] at hm0' hm1'
    refine ⟨?_, ?_, hopen, ?_⟩
    · rintro (_ | _ | _ | _) <;> assumption
    · rintro (_ | _ | _ | _)
      exacts [hcs'.1, hds'.1, hm0', hm1']
    · rintro _ (rfl | rfl)
      exacts [hcs'.2, hds'.2]
  · rintro ⟨hready, hout, hopen, hhigh⟩
    exact ⟨⟨hready _, hready _⟩, ⟨hready _, hready _⟩, drivenLevel_eq_some.2 ⟨hout _, hhigh _ (.inl rfl)⟩,
      drivenLevel_eq_some.2 ⟨hout _, hhigh _ (.inr rfl)⟩, drivenLevel_isSome.2 (hout _), drivenLevel_isSome.2 (hout _),
      hopen⟩

/-- No operation but `close` and those on a role line leaves "boot done" (decision D8). -/
theorem exec_keeps_bootDone (hs : BootDone s) (hi : i ≠ .serialClose) (hl : ∀ r, lineOperand i ≠ some (s.board.roleLine r))
    (h : exec i s = .next t) : BootDone t := by
  rw [bootDone_iff] at hs ⊢
  obtain ⟨hready, hout, hopen, hhigh⟩ := hs
  simp only [RoleReady, exec_keeps_board h]
  exact ⟨fun r => exec_keeps_lineReady (hready r) h, fun r => exec_keeps_output (hl r) (hout r) h,
    exec_keeps_open hi hopen h, fun r hr => exec_keeps_high hr (hl r) (hhigh r hr) h⟩

end

/-! ## Operations one after another, each returning a value -/

theorem execAll_append {is js : List Instr} {s t : State} (h : execAll is s = .next t) :
    execAll (is ++ js) s = execAll js t := by
  induction is generalizing s with
  | nil => cases h; rfl
  | cons i is ih =>
    simp only [List.cons_append, execAll] at h ⊢
    cases hi : exec i s with
    | next u => rw [hi] at h; exact ih h
    | fault f => rw [hi] at h; cases h
    | refused r => rw [hi] at h; cases h

/-- The operations run one after another from `s` to `t`, and each returns a value to the current requester. -/
structure RunsOk (is : List Instr) (s t : State) : Prop where
  runs : execAll is s = .next t
  cur : t.cur = s.cur
  results : ∃ rs, t.results = s.results ++ rs ∧ rs.length = is.length ∧ ∀ r ∈ rs, r.1 = s.cur ∧ ∃ v, r.2 = .ok v

section
variable {s t u : State} {is js : List Instr} {i : Instr}

theorem RunsOk.nil : RunsOk [] s s := ⟨rfl, rfl, [], by simp⟩

/-- One operation that answers a value. -/
theorem RunsOk.single {v : Value} (h : exec i s = .next (answered (.ok v) t)) (hcur : t.cur = s.cur)
    (hres : t.results = s.results) : RunsOk [i] s (answered (.ok v) t) :=
  ⟨by simp only [execAll, h], hcur, [(t.cur, .ok v)], by simp [answered, hres, hcur]⟩

/-- Two runs one after the other. -/
theorem RunsOk.append (h : RunsOk is s t) (g : RunsOk js t u) : RunsOk (is ++ js) s u := by
  obtain ⟨hrun, hcur, rs, hres, hlen, hok⟩ := h
  obtain ⟨grun, gcur, rs', gres, glen, gok⟩ := g
  refine ⟨(execAll_append hrun).trans grun, gcur.trans hcur, rs ++ rs', ?_, ?_, ?_⟩
  · rw [gres, hres, List.append_assoc]
  · rw [List.length_append, List.length_append, hlen, glen]
  · rw [hcur] at gok
    exact fun r hr => (List.mem_append.1 hr).elim (hok r) (gok r)

/-- One operation for each role of a list, each of which brings about `P` of its role and keeps it of the others. The
premise `Pre` may count the roles to come. -/
theorem RunsOk.map {op : Role → Instr} {Pre : Nat → State → Prop} {P : Role → State → Prop}
    (hop : ∀ r n s, Pre (n + 1) s → ∃ t, RunsOk [op r] s t ∧ Pre n t ∧ P r t ∧ ∀ r', P r' s → P r' t)
    (roles : List Role) (h : Pre roles.length s) :
    ∃ t, RunsOk (roles.map op) s t ∧ Pre 0 t ∧ (∀ r ∈ roles, P r t) ∧ ∀ r, P r s → P r t := by
  induction roles generalizing s with
  | nil => exact ⟨s, .nil, h, by simp, fun _ h => h⟩
  | cons r roles ih =>
    obtain ⟨t, hrun, hpre, hr, hkeep⟩ := hop r roles.length s h
    obtain ⟨u, hrun', hpre', hroles, hkeep'⟩ := ih hpre
    refine ⟨u, hrun.append hrun', hpre', ?_, fun r' h => hkeep' r' (hkeep r' h)⟩
    simp only [List.mem_cons, forall_eq_or_imp]
    exact ⟨hkeep' r hr, hroles⟩

end

/-! ## The stages of the boot sequence -/

/-- What the boot operations keep until the last one opens the bus: the board, a closed bus the environment will open, and a
requester that may go on. -/
structure Booting (bd : Board) (spis : List Bool) (s : State) : Prop where
  board : s.board = bd
  ready : SerialReady s
  closed : s.spiOpen = false
  grant : s.env.spiOpen = true :: spis

theorem Booting.idle {bd : Board} {spis : List Bool} {s : State} (h : Booting bd spis s) : Idle s := by
  obtain ⟨hidle, hser, htwo⟩ := h.ready
  exact ⟨hidle, by simp [hser], htwo⟩

/-- The environment grants the next `n` device openings and mappings. -/
def Grants (n : Nat) (s : State) : Prop :=
  (∃ os, s.env.openMem = List.replicate n true ++ os) ∧ ∃ ms, s.env.map = List.replicate n true ++ ms

section
variable {s : State} {l : Line} {id : BitVec 16} {n : Nat} {bd : Board} {spis : List Bool}

/-- More granted than needed. -/
theorem Grants.pred (h : Grants (n + 1) s) : Grants n s := by
  obtain ⟨⟨os, hos⟩, ms, hms⟩ := h
  rw [List.replicate_succ', List.append_assoc] at hos hms
  exact ⟨⟨_, hos⟩, _, hms⟩

/-- Mapping a window takes back no other. -/
theorem winMapped_set {w : Vector Bool 4} {b : Fin 4} (b' : Fin 4) (h : w[b'] = true ∨ b' = b) :
    (w.set b true)[b'] = true := by
  simp only [Fin.getElem_fin, Vector.getElem_set]
  split
  next => rfl
  next hne => exact h.resolve_right fun e => hne (congrArg Fin.val e.symm)

/-- `resolve` of a line in a mapped window (40_gpio.md R121). -/
theorem resolveLine_mapped (hw : s.winMapped[l.bank] = true) :
    resolveLine id l s = (.ok (.line id l), { s with resolved := noteLine l s.resolved }) := by
  simp only [resolveLine, hw, if_true, noteLine]

/-- `resolve` of a line whose window the environment lets map (R121). -/
theorem resolveLine_granted {os ms : List Bool} (hw : s.winMapped[l.bank] = false) (ho : s.env.openMem = true :: os)
    (hm : s.env.map = true :: ms) :
    resolveLine id l s = (.ok (.line id l), { s with
      env := { s.env with openMem := os, map := ms }, winMapped := s.winMapped.set l.bank true
      trace := s.trace ++ [.mapWindow l.bank], resolved := noteLine l s.resolved }) := by
  simp [resolveLine, hw, Env.askOpenMem, Env.askMap, nextAnswer, anyAnswer, ho, hm, noteLine, emit]

/-- `resolve` answers what its indivisible body answers (20_memory.md R77). -/
theorem exec_gpioResolve (hi : Idle s) :
    exec (.gpioResolve id) s = .next (answered (resolvePin id s).1 (resolvePin id s).2) := by
  obtain ⟨hidle, hser, htwo⟩ := hi
  have f : Frame (.resolve id) (Job.fresh s.cur (.gpioResolve id) [.resolve id]) s _ (resolvePin id s).2 := micro_frame rfl
  obtain ⟨-, -, hcur, -⟩ := f.rest
  calc exec (.gpioResolve id) s
    _ = runCode [.resolve id] (Job.fresh s.cur (.gpioResolve id) [.resolve id]) s := execCode_ready hidle
    _ = runCode [] _ (resolvePin id s).2 := runCode_go rfl
    _ = .next (finish _ (resolvePin id s).2) := runCode_nil _ _
    _ = _ := congrArg _ (finish_idle hcur.symm rfl (by rwa [f.lockSerial (by simp) (by simp), hcur])
      (by rwa [f.lockTwowire (by simp), hcur]))

/-- The state after the bus was opened with a profile, the environment's answers to come `spis` (41_serial_bus.md R141). -/
def busOpened (p : Profile) (spis : List Bool) (s : State) : State :=
  { s with
    env := { s.env with spiOpen := spis }, spiOpen := true, spiPrimary := p, spiActive := p
    trace := s.trace ++ [.spiOpen, .spiProfile p] }

theorem runCode_requireProfile {p : Profile} {j : Job} {rest : List Micro} (hword : p.word ≠ 0) (hspeed : p.speed ≠ 0) :
    runCode (.requireProfile p :: rest) j s = runCode rest j s := by
  have hp : profileOk p = true := by simpa [profileOk] using And.intro hword hspeed
  exact runCode_go (by simp only [micro, demand, hp, if_true])

theorem runCode_openBus {path : List Byte} {p : Profile} {j : Job} {rest : List Micro} (hclosed : s.spiOpen = false)
    (hgrant : s.env.spiOpen = true :: spis) :
    runCode (.openBus path p :: rest) j s = runCode rest { j with result := .ok .busHandle } (busOpened p spis s) :=
  runCode_go (by simp [micro, stepOpenBus, hclosed, openSerial, Env.askSpiOpen, hgrant, nextAnswer, anyAnswer, busOpened,
    emit])

/-- Step (5): the bus is opened under the profile asked for (R141). -/
theorem exec_serialOpen {path : List Byte} {p : Profile} (h : Booting bd spis s) (hu : SerialUnit s) (hword : p.word ≠ 0)
    (hspeed : p.speed ≠ 0) :
    exec (.serialOpen path p.mode p.word p.speed) s = .next (answered (.ok .busHandle) (busOpened p spis s)) := by
  obtain ⟨-, ⟨hidle, hser, htwo⟩, hclosed, hgrant⟩ := h
  calc exec (.serialOpen path p.mode p.word p.speed) s
    _ = runCode (codeSerialOpen path p)
          (Job.fresh s.cur (.serialOpen path p.mode p.word p.speed) (codeSerialOpen path p)) s := execCode_ready hidle
    _ = _ := runCode_requireRoles (rolesResolved_serial hu)
    _ = _ := runCode_requireProfile hword hspeed
    _ = _ := runCode_takeSerial hser
    _ = _ := runCode_openBus hclosed hgrant
    _ = .next (finish _ _) := runCode_nil _ _
    _ = _ := congrArg _ (finish_serial (t := busOpened p spis s) rfl rfl hser htwo)

/-- The level operations of the boot sequence (40_gpio.md R124, R125). -/
theorem exec_setLevel {v : Bool} (hi : Idle s) (hl : LineReady s l) :
    exec (setLevel l v) s = .next (answered (.ok .unit) (levelDriven l v s)) := by
  cases v <;> exact execCode_level hi hl

/-- Step (1) for one role: its line is resolved, and the lines resolved before stay so. -/
theorem boot_resolve (r : Role) (h : Booting bd spis s) (hg : Grants (n + 1) s) :
    ∃ t, RunsOk [.gpioResolve (bd.data.rolePin r)] s t ∧ (Booting bd spis t ∧ Grants n t) ∧
      LineReady t (bd.roleLine r) ∧ ∀ r', LineReady s (bd.roleLine r') → LineReady t (bd.roleLine r') := by
  have hrun := exec_gpioResolve (id := bd.data.rolePin r) h.idle
  have hpin : resolvePin (bd.data.rolePin r) s = resolveLine (bd.data.rolePin r) (bd.roleLine r) s := by
    simp only [resolvePin, h.board, bd.roleLine_some r]
  rw [hpin] at hrun
  have hnote : (noteLine (bd.roleLine r) s.resolved).contains (bd.roleLine r) = true :=
    contains_noteLine.2 (.inl rfl)
  cases hw : s.winMapped[(bd.roleLine r).bank] with
  | true =>
    rw [resolveLine_mapped hw] at hrun
    exact ⟨_, .single hrun rfl rfl, ⟨⟨h.board, h.ready, h.closed, h.grant⟩, hg.pred⟩, ⟨hnote, hw⟩,
      fun r' hr' => ⟨contains_noteLine.2 (.inr hr'.1), hr'.2⟩⟩
  | false =>
    obtain ⟨⟨os, hos⟩, ms, hms⟩ := hg
    rw [resolveLine_granted hw hos hms] at hrun
    exact ⟨_, .single hrun rfl rfl, ⟨⟨h.board, h.ready, h.closed, h.grant⟩, ⟨os, rfl⟩, ms, rfl⟩,
      ⟨hnote, winMapped_set _ (.inr rfl)⟩,
      fun r' hr' => ⟨contains_noteLine.2 (.inr hr'.1), winMapped_set _ (.inl hr'.2)⟩⟩

/-- Steps (2) and (3) for one role: its latch is written, and the others stay as they are. -/
theorem boot_level (level : Role → Bool) (r : Role) (h : Booting bd spis s) (hl : ∀ r, LineReady s (bd.roleLine r)) :
    ∃ t, RunsOk [setLevel (bd.roleLine r) (level r)] s t ∧
      (Booting bd spis t ∧ ∀ r, LineReady t (bd.roleLine r)) ∧ latch t (bd.roleLine r) = level r ∧
      ∀ r', latch s (bd.roleLine r') = level r' → latch t (bd.roleLine r') = level r' := by
  have hrun := exec_setLevel (v := level r) h.idle (hl r)
  have hsame : latch (levelDriven (bd.roleLine r) (level r) s) (bd.roleLine r) = level r := setLatch_same _ _ _
  refine ⟨_, .single hrun rfl rfl, ⟨⟨h.board, h.ready, h.closed, h.grant⟩, hl⟩, hsame, fun r' hr' => ?_⟩
  by_cases he : r' = r
  · rw [he]; exact hsame
  · exact (setLatch_other (fun e => he (bd.roleLine_inj e)) _ _).trans hr'

/-- Step (4) for one role: its line is an output, and the lines that were outputs stay so. -/
theorem boot_output (level : Role → Bool) (r : Role) (h : Booting bd spis s) (hl : ∀ r, LineReady s (bd.roleLine r))
    (hlev : ∀ r, latch s (bd.roleLine r) = level r) :
    ∃ t, RunsOk [.gpioSetOutput (bd.roleLine r)] s t ∧
      (Booting bd spis t ∧ (∀ r, LineReady t (bd.roleLine r)) ∧ ∀ r, latch t (bd.roleLine r) = level r) ∧
      lineBit t.oe[(bd.roleLine r).bank] (bd.roleLine r) = false ∧
      ∀ r', lineBit s.oe[(bd.roleLine r').bank] (bd.roleLine r') = false →
        lineBit t.oe[(bd.roleLine r').bank] (bd.roleLine r') = false := by
  have hrun : exec (.gpioSetOutput (bd.roleLine r)) s = _ := execCode_direction (d := .out) h.idle (hl r)
  have hsame : lineBit (directionSet (bd.roleLine r) .out s).oe[(bd.roleLine r).bank] (bd.roleLine r) = false := by
    simp [directionSet, lineBit_withDir_same]
  refine ⟨_, .single hrun rfl rfl, ⟨⟨h.board, h.ready, h.closed, h.grant⟩, hl, hlev⟩, hsame, fun r' hr' => ?_⟩
  by_cases he : r' = r
  · rw [he]; exact hsame
  · exact lineBit_set_withDir (fun e => he (bd.roleLine_inj e)) (fun hbank => (lineBit_bank hbank).trans hr') hr'

end

/-- The four roles in the order of the boot sequence. -/
def bootRoles : List Role := [.cs, .ds, .mux0, .mux1]

theorem mem_bootRoles (r : Role) : r ∈ bootRoles := by cases r <;> decide

/-- The levels the boot sequence gives the role lines: idle high for `CS` and `DS`, the channel for the selector lines. -/
def bootLevel (channel : BitVec 2) : Role → Bool
  | .cs => true
  | .ds => true
  | .mux0 => channel.getLsbD 0
  | .mux1 => channel.getLsbD 1

/-- The boot sequence as three passes over the roles and the opening of the bus. -/
theorem bootOperations_eq (bd : Board) (channel : BitVec 2) (path : List Byte) (p : Profile) :
    bootOperations bd channel path p =
      bootRoles.map (fun r => .gpioResolve (bd.data.rolePin r)) ++
        (bootRoles.map (fun r => setLevel (bd.roleLine r) (bootLevel channel r)) ++
          (bootRoles.map (fun r => .gpioSetOutput (bd.roleLine r)) ++ [.serialOpen path p.mode p.word p.speed])) := rfl

/-- The two latch bits of the selector lines are the channel (30_encoding.md R101). -/
theorem localSelector_of_latches {s : State} {channel : BitVec 2}
    (h : ∀ r, latch s (s.board.roleLine r) = bootLevel channel r) : localSelector s = channel := by
  have hbits : ∀ c : BitVec 2, BitVec.ofBool (c.getLsbD 1) ++ BitVec.ofBool (c.getLsbD 0) = c := by decide
  have h0 : latch s (s.board.roleLine .mux0) = channel.getLsbD 0 := h .mux0
  have h1 : latch s (s.board.roleLine .mux1) = channel.getLsbD 1 := h .mux1
  rw [← hbits channel, ← h0, ← h1]
  rfl

/-- The boot sequence where the environment grants what it asks (R274). -/
theorem boot_runs {s : State} {bd : Board} {channel : BitVec 2} {path : List Byte} {p : Profile} {spis : List Bool}
    (h : Booting bd spis s) (hg : Grants 4 s) (hword : p.word ≠ 0) (hspeed : p.speed ≠ 0) :
    ∃ t, RunsOk (bootOperations bd channel path p) s t ∧ BootDone t ∧ localSelector t = channel ∧ t.spiActive = p := by
  obtain ⟨s1, run1, ⟨h1, -⟩, hready, -⟩ := RunsOk.map (Pre := fun n t => Booting bd spis t ∧ Grants n t)
    (P := fun r t => LineReady t (bd.roleLine r)) (fun r _ _ ht => boot_resolve r ht.1 ht.2) bootRoles ⟨h, hg⟩
  obtain ⟨s2, run2, ⟨h2, hready⟩, hlevel, -⟩ := RunsOk.map
    (Pre := fun _ t => Booting bd spis t ∧ ∀ r, LineReady t (bd.roleLine r))
    (P := fun r t => latch t (bd.roleLine r) = bootLevel channel r)
    (fun r _ _ ht => boot_level (bootLevel channel) r ht.1 ht.2) bootRoles ⟨h1, fun r => hready r (mem_bootRoles r)⟩
  obtain ⟨s3, run3, ⟨h3, hready, hlevel⟩, hout, -⟩ := RunsOk.map
    (Pre := fun _ t => Booting bd spis t ∧ (∀ r, LineReady t (bd.roleLine r)) ∧
      ∀ r, latch t (bd.roleLine r) = bootLevel channel r)
    (P := fun r t => lineBit t.oe[(bd.roleLine r).bank] (bd.roleLine r) = false)
    (fun r _ _ ht => boot_output (bootLevel channel) r ht.1 ht.2.1 ht.2.2) bootRoles
    ⟨h2, hready, fun r => hlevel r (mem_bootRoles r)⟩
  obtain rfl := h3.board
  have hopen := exec_serialOpen (path := path) h3 (hready .ds) hword hspeed
  have hhigh : ∀ r, r = .cs ∨ r = .ds → bootLevel channel r = true := by rintro _ (rfl | rfl) <;> rfl
  rw [bootOperations_eq]
  refine ⟨_, run1.append (run2.append (run3.append (.single hopen rfl rfl))), ?_, localSelector_of_latches hlevel, rfl⟩
  exact bootDone_iff.2 ⟨hready, fun r => hout r (mem_bootRoles r), rfl, fun r hr => (hlevel r).trans (hhigh r hr)⟩

/-- Settles O60: the boot sequence in its four stages, each over the four roles; and "boot done" is kept field by field, the
idle levels of `CS` and `DS` because every step list restores them before it can end. -/
theorem bootReachedAndKept : Obligations.BootReachedAndKept := by
  unfold Obligations.BootReachedAndKept
  refine ⟨fun s channel path p opens maps spis hready hclosed hword hspeed hopens hmaps hspis => ?reached,
    fun i s t hs hi hl h => exec_keeps_bootDone hs hi (fun r hr => hl _ r hr rfl) h⟩
  case reached =>
    obtain ⟨t, ⟨hrun, -, rs, hres, hlen, hok⟩, hdone, hsel, hact⟩ := boot_runs (channel := channel) (path := path)
      ⟨rfl, hready, hclosed, hspis⟩ ⟨⟨opens, hopens⟩, maps, hmaps⟩ hword hspeed
    exact ⟨t, rs, hrun, hdone, hres, hlen, hok, hsel, hact⟩

end Sys2Proof.Machine
end


section
/-! Encodings (30_encoding.md sections 1 and 2): every instruction that can be written as bytes is read back, every message
that decodes is such an encoding, and what neither reads is refused by the fetch. -/

namespace Sys2Proof

open Machine

/-! ## Decoding what was encoded -/

/-- Each instruction is read back from its own bytes, whatever follows them. -/
theorem decodePrefix_encode (i : Instr) : Laws.RoundTrip.Statement i := by
  cases i with
  | gpioResolve id => exact Laws.RoundTrip.gpioResolve id
  | gpioSetOutput l => exact Laws.RoundTrip.gpioSetOutput l
  | gpioSetInput l => exact Laws.RoundTrip.gpioSetInput l
  | gpioSetHigh l => exact Laws.RoundTrip.gpioSetHigh l
  | gpioSetLow l => exact Laws.RoundTrip.gpioSetLow l
  | gpioRead l => exact Laws.RoundTrip.gpioRead l
  | serialOpen path mode word speed => exact Laws.RoundTrip.serialOpen path mode word speed
  | serialTransfer len tx => exact Laws.RoundTrip.serialTransfer len tx
  | serialTransferSecondary len tx => exact Laws.RoundTrip.serialTransferSecondary len tx
  | serialClose => exact Laws.RoundTrip.serialClose
  | addrSelect a op => exact Laws.RoundTrip.addrSelect a op
  | addrWrite a len data => exact Laws.RoundTrip.addrWrite a len data
  | addrRead a => exact Laws.RoundTrip.addrRead a
  | addrSetExt a => exact Laws.RoundTrip.addrSetExt a
  | addrUnselectExt => exact Laws.RoundTrip.addrUnselectExt
  | regOpenHandle t => exact Laws.RoundTrip.regOpenHandle t
  | regSelect loc p e => exact Laws.RoundTrip.regSelect loc p e
  | regRead t n reg len => exact Laws.RoundTrip.regRead t n reg len
  | regWrite t n reg len data => exact Laws.RoundTrip.regWrite t n reg len data
  | wireRead k l => exact Laws.RoundTrip.wireRead k l
  | frameWrite a => exact Laws.RoundTrip.frameWrite a
  | frameReadReady a => exact Laws.RoundTrip.frameReadReady a
  | frameReadExec a => exact Laws.RoundTrip.frameReadExec a

theorem decode_encode {i : Instr} (h : i.encodable = true) : decode (encode i).1 (encode i).2 = .ok i := by
  have hread := decodePrefix_encode i h []
  rw [List.append_nil] at hread
  simp only [decode, hread]

/-- Settles O2: the encoding, with nothing after it, is read back whole. -/
theorem decodeOfEncode : Obligations.DecodeOfEncode := by
  unfold Obligations.DecodeOfEncode
  exact fun i h => decode_encode h

/-! ## Encoding what was decoded -/

/-- A reader that succeeds went through its first field. -/
theorem ok_of_bind_ok {ε α β : Type} {x : Except ε α} {f : α → Except ε β} {b : β} (h : (x >>= f) = .ok b) :
    ∃ a, x = .ok a ∧ f a = .ok b := by
  cases x with
  | error e => cases h
  | ok a => exact ⟨a, rfl, h⟩

/-- An instruction whose encoding is the opcode of `o` and then these operand bytes. -/
def EncodesAs (o : Op) (operands : List Byte) (i : Instr) : Prop :=
  encode i = (.command, o.code :: operands) ∧ i.encodable = true

theorem lenMatches_of_length {len : BitVec 16} {data : List Byte} (h : data.length = len.toNat) :
    Instr.lenMatches len data = true := by
  simpa [Instr.lenMatches] using h

/-- The length bytes before a path are the path's length. -/
theorem ofNat_length {len : BitVec 16} {path : List Byte} (h : path.length = len.toNat) :
    BitVec.ofNat 16 path.length = len ∧ path.length < 65536 :=
  ⟨by rw [h, BitVec.ofNat_toNat, BitVec.setWidth_eq], by rw [h]; exact len.isLt⟩

/-- Operands that are read are the operand bytes of the instruction's encoding, followed by what is left. -/
theorem takeOperands_ok {o : Op} {bs rest : List Byte} {i : Instr} (h : takeOperands o bs = .ok (i, rest)) :
    ∃ operands, bs = operands ++ rest ∧ EncodesAs o operands i := by
  cases o with
  | gpioResolve =>
    obtain ⟨⟨id, bs1⟩, h1, ⟨⟩⟩ := ok_of_bind_ok h
    exact ⟨_, takeHalf_ok h1, rfl, rfl⟩
  | gpioSetOutput | gpioSetInput | gpioSetHigh | gpioSetLow | gpioRead =>
    obtain ⟨⟨l, bs1⟩, h1, ⟨⟩⟩ := ok_of_bind_ok h
    exact ⟨_, takeLine_ok h1, rfl, rfl⟩
  | serialOpen =>
    obtain ⟨⟨len, path, bs1⟩, h1, h⟩ := ok_of_bind_ok h
    obtain ⟨⟨mode, bs2⟩, h2, h⟩ := ok_of_bind_ok h
    obtain ⟨⟨word, bs3⟩, h3, h⟩ := ok_of_bind_ok h
    obtain ⟨⟨speed, bs4⟩, h4, ⟨⟩⟩ := ok_of_bind_ok h
    obtain ⟨hbytes, hlen⟩ := takeBuffer_ok h1
    obtain ⟨hput, hlt⟩ := ofNat_length hlen
    refine ⟨putBuffer len path ++ (putField mode ++ (putField word ++ putWord speed)), ?_, ?_, decide_eq_true hlt⟩
    · rw [hbytes, takeField_ok h2, takeField_ok h3, takeWord_ok h4]
      simp only [List.append_assoc]
    · simp only [encode, hput]
  | serialTransfer | serialTransferSecondary =>
    obtain ⟨⟨len, tx, bs1⟩, h1, ⟨⟩⟩ := ok_of_bind_ok h
    obtain ⟨hbytes, hlen⟩ := takeBuffer_ok h1
    exact ⟨_, hbytes, rfl, lenMatches_of_length hlen⟩
  | serialClose | addrUnselectExt =>
    cases h
    exact ⟨[], rfl, rfl, rfl⟩
  | addrSelect =>
    obtain ⟨⟨a, bs1⟩, h1, h⟩ := ok_of_bind_ok h
    obtain ⟨⟨f, bs2⟩, h2, ⟨⟩⟩ := ok_of_bind_ok h
    exact ⟨putField a ++ putField f, by rw [takeField_ok h1, takeField_ok h2, List.append_assoc], rfl, rfl⟩
  | addrWrite =>
    obtain ⟨⟨a, bs1⟩, h1, h⟩ := ok_of_bind_ok h
    obtain ⟨⟨len, data, bs2⟩, h2, ⟨⟩⟩ := ok_of_bind_ok h
    obtain ⟨hbytes, hlen⟩ := takeBuffer_ok h2
    exact ⟨putField a ++ putBuffer len data, by rw [takeField_ok h1, hbytes, List.append_assoc], rfl,
      lenMatches_of_length hlen⟩
  | addrRead | addrSetExt | regOpenHandle =>
    obtain ⟨⟨a, bs1⟩, h1, ⟨⟩⟩ := ok_of_bind_ok h
    exact ⟨_, takeField_ok h1, rfl, rfl⟩
  | regSelect =>
    obtain ⟨⟨loc, bs1⟩, h1, h⟩ := ok_of_bind_ok h
    obtain ⟨⟨p, bs2⟩, h2, h⟩ := ok_of_bind_ok h
    obtain ⟨⟨e, bs3⟩, h3, ⟨⟩⟩ := ok_of_bind_ok h
    refine ⟨putField loc ++ (putFlag p ++ putField e), ?_, rfl, rfl⟩
    rw [takeField_ok h1, takeFlag_ok h2, takeField_ok h3]
    simp only [List.append_assoc]
  | regRead =>
    obtain ⟨⟨t, bs1⟩, h1, h⟩ := ok_of_bind_ok h
    obtain ⟨⟨n, bs2⟩, h2, h⟩ := ok_of_bind_ok h
    obtain ⟨⟨r, bs3⟩, h3, h⟩ := ok_of_bind_ok h
    obtain ⟨⟨len, bs4⟩, h4, ⟨⟩⟩ := ok_of_bind_ok h
    refine ⟨putField t ++ (putFlag n ++ (putField r ++ putHalf len)), ?_, rfl, rfl⟩
    rw [takeField_ok h1, takeFlag_ok h2, takeField_ok h3, takeHalf_ok h4]
    simp only [List.append_assoc]
  | regWrite =>
    obtain ⟨⟨t, bs1⟩, h1, h⟩ := ok_of_bind_ok h
    obtain ⟨⟨n, bs2⟩, h2, h⟩ := ok_of_bind_ok h
    obtain ⟨⟨r, bs3⟩, h3, h⟩ := ok_of_bind_ok h
    obtain ⟨⟨len, data, bs4⟩, h4, ⟨⟩⟩ := ok_of_bind_ok h
    obtain ⟨hbytes, hlen⟩ := takeBuffer_ok h4
    refine ⟨putField t ++ (putFlag n ++ (putField r ++ putBuffer len data)), ?_, rfl, lenMatches_of_length hlen⟩
    rw [takeField_ok h1, takeFlag_ok h2, takeField_ok h3, hbytes]
    simp only [List.append_assoc]
  | wireRead =>
    obtain ⟨⟨k, bs1⟩, h1, h⟩ := ok_of_bind_ok h
    obtain ⟨⟨l, bs2⟩, h2, ⟨⟩⟩ := ok_of_bind_ok h
    refine ⟨putFlag k ++ putLine l, by rw [takeFlag_ok h1, takeLine_ok h2, List.append_assoc], ?_, rfl⟩
    cases k <;> rfl

/-- A frame operation that names an instruction (30_encoding.md R97). -/
theorem frameInstr_ok {a : BitVec 4} {op : BitVec 3} {i : Instr} (h : frameInstr a op = .ok i) :
    encode i = (.addressFrame, [addressFrame a op]) ∧ i.encodable = true := by
  unfold frameInstr at h
  repeat' split at h
  all_goals cases h
  all_goals subst op; exact ⟨rfl, rfl⟩

/-- What is read at the front of a message is an encoding, followed by what is left. -/
theorem decodePrefix_ok {f : Format} {bs rest : List Byte} {i : Instr} (h : decodePrefix f bs = .ok (i, rest)) :
    ∃ front, bs = front ++ rest ∧ encode i = (f, front) ∧ i.encodable = true := by
  cases bs with
  | nil => cases f <;> cases h
  | cons b bs =>
    cases f with
    | command =>
      simp only [decodePrefix, decodeCommand] at h
      cases ho : Op.ofByte b with
      | none => rw [ho] at h; cases h
      | some o =>
        rw [ho] at h
        obtain ⟨operands, rfl, henc, hlen⟩ := takeOperands_ok h
        rw [code_ofByte ho] at henc
        exact ⟨b :: operands, rfl, henc, hlen⟩
    | addressFrame =>
      simp only [decodePrefix, decodeFrame] at h
      split at h
      next hp =>
        split at h <;> cases h
        next hi =>
        obtain ⟨henc, hlen⟩ := frameInstr_ok hi
        rw [addressFrame_of_byte hp] at henc
        exact ⟨[b], rfl, henc, hlen⟩
      next => cases h

/-- Settles O3: a message that decodes has nothing after the encoding read at its front. -/
theorem encodeOfDecode : Obligations.EncodeOfDecode := by
  unfold Obligations.EncodeOfDecode
  intro f bs i h
  unfold decode at h
  split at h <;> cases h
  next hread =>
  obtain ⟨front, rfl, henc, hlen⟩ := decodePrefix_ok hread
  rw [List.append_nil]
  exact ⟨henc, hlen⟩

/-- Settles O1: the frames and the commands written out are read by evaluation. -/
theorem writtenOutWordsDecode : Obligations.WrittenOutWordsDecode := by
  unfold Obligations.WrittenOutWordsDecode
  decide

/-! ## Messages that name no instruction -/

/-- A message that does not decode is refused at the fetch (30_encoding.md R94). -/
theorem step_issue_illegal {s : State} {who : Nat} {f : Format} {bs : List Byte} {rest : List Input} {e : DecodeError}
    (hwho : requesterExists who s = true) (h : decode f bs = .error e) :
    step { s with inputs := .issue who f bs :: rest } = .refused (.illegalCommand e) := by
  have hwho' : requesterExists who { s with inputs := rest } = true := hwho
  simp only [step, takeInput, fetch, hwho', if_true, h]

/-- The opcodes of 30_encoding.md R90, unit by unit. -/
theorem opCode_mem (o : Op) :
    o.code ∈ [0x10, 0x11, 0x12, 0x13, 0x14, 0x15] ∨ o.code ∈ [0x20, 0x21, 0x22, 0x23] ∨
      o.code ∈ [0x30, 0x31, 0x32, 0x33, 0x34] ∨ o.code ∈ [0x40, 0x41, 0x42, 0x43, 0x50] := by
  cases o <;> decide

theorem decode_unknownOpcode {b : Byte} (h : Op.ofByte b = none) (bs : List Byte) :
    decode .command (b :: bs) = .error (.unknownOpcode b) := by
  simp only [decode, decodePrefix, decodeCommand, h]

/-- The parity of a frame's address field is that of its bits 6 to 3 (30_encoding.md R95, R96). -/
theorem parity_addressField (f : Byte) :
    parity (f.extractLsb' 3 4) = (f.getLsbD 6 ^^ f.getLsbD 5 ^^ f.getLsbD 4 ^^ f.getLsbD 3) := by
  simp [parity]

theorem decode_badParity {f : Byte} (h : f.getLsbD 7 ≠ parity (f.extractLsb' 3 4)) :
    decode .addressFrame [f] = .error .badParity := by
  simp only [decode, decodePrefix, decodeFrame, h, if_false]

/-- The operations that are reserved (R97). -/
theorem frameInstr_reserved (a : BitVec 4) {op : BitVec 3} (h : op.toNat = 0 ∨ 4 ≤ op.toNat) :
    frameInstr a op = .error .reservedFrameOperation := by
  have hw : op ≠ opWrite := by rintro rfl; revert h; decide
  have hr : op ≠ opReadReady := by rintro rfl; revert h; decide
  have he : op ≠ opReadExec := by rintro rfl; revert h; decide
  simp only [frameInstr, hw, hr, he, if_false]

theorem decode_reservedFrame {f : Byte} (hp : f.getLsbD 7 = parity (f.extractLsb' 3 4))
    (h : f.toNat % 8 = 0 ∨ 4 ≤ f.toNat % 8) : decode .addressFrame [f] = .error .reservedFrameOperation := by
  have hop : (f.extractLsb' 0 3).toNat = f.toNat % 8 := by simp
  rw [← hop] at h
  simp only [decode, decodePrefix, decodeFrame, hp, if_true, frameInstr_reserved _ h]

/-- Settles O5: each of the three messages is refused by the decoder, and so by the fetch. -/
theorem illegalMessagesRefused : Obligations.IllegalMessagesRefused := by
  unfold Obligations.IllegalMessagesRefused
  intro s who rest hwho
  refine ⟨fun b bs h1 h2 h3 h4 => ?opcode, fun f hp => ?parity, fun f hp hop => ?operation⟩
  case opcode =>
    have hnone : Op.ofByte b = none := by
      cases ho : Op.ofByte b with
      | none => rfl
      | some o =>
        obtain rfl := code_ofByte ho
        exact absurd (opCode_mem o) (by simp only [h1, h2, h3, h4, or_self, not_false_eq_true])
    exact step_issue_illegal hwho (decode_unknownOpcode hnone bs)
  case parity => exact step_issue_illegal hwho (decode_badParity (by rwa [parity_addressField]))
  case operation => exact step_issue_illegal hwho (decode_reservedFrame (by rwa [parity_addressField]) hop)

/-! ## The table's words -/

/-- A table word that names an instruction is the encoding of it with bytes left over that are no part of it. -/
theorem decode_of_readTableWord {nbits w : Nat} {i : Instr} {f : Format} {bs : List Byte}
    (h : readTableWord nbits w = some (i, f, bs)) : decode f bs = .ok i := by
  unfold readTableWord at h
  simp only at h
  split at h
  next i' rest hread =>
    split at h <;> cases h
    obtain ⟨front, hbytes, henc, hlen⟩ := decodePrefix_ok hread
    have htake : (front ++ rest).take ((front ++ rest).length - rest.length) = front := by simp
    rw [hbytes] at henc ⊢
    rw [htake]
    have hdec := decode_encode hlen
    rwa [henc] at hdec
  next => cases h

end Sys2Proof
end

section
/-! One step of the machine (20_memory.md sections 5 and 6): what each input does, and that an operation run whole is one of
its interleavings. -/

namespace Sys2Proof.Machine

/-! ## Inputs -/

section
variable {s t : State} {who : Nat} {f : Format} {bs : List Byte} {i : Instr} {rest : List Input}

theorem fetch_ok (hwho : requesterExists who s = true) (hdec : decode f bs = .ok i) : fetch who f bs s = .ok i := by
  simp only [fetch, hwho, if_true, hdec]

theorem takeInput_issue (h : fetch who f bs s = .ok i) : takeInput (.issue who f bs) s = exec i { s with cur := who } := by
  simp only [takeInput, h]

theorem takeInput_start (h : fetch who f bs s = .ok i) (hb : busy who s = false) :
    takeInput (.start who f bs) s =
      .next (park (Job.fresh who i (codeOf i)) (codeOf i) { s with cur := who }) := by
  have hb' : busy who { s with cur := who } = false := hb
  simp only [takeInput, h, startCode, hb', Bool.false_eq_true, if_false]

theorem step_cons {inp : Input} (h : s.inputs = inp :: rest) : step s = takeInput inp { s with inputs := rest } := by
  simp only [step, h]

end

/-- Settles O6: the first input is fetched, and run, put into flight or made one step of. -/
theorem stepRunsDecoded : Obligations.StepRunsDecoded := by
  unfold Obligations.StepRunsDecoded
  intro s who f bs i rest
  have hfetch : requesterExists who s = true → decode f bs = .ok i → fetch who f bs { s with inputs := rest } = .ok i :=
    fetch_ok (s := { s with inputs := rest })
  refine ⟨fun hwho hdec hin => ?issue, fun hwho hdec hin hb => ?start, fun hin => step_cons hin, fun hin => ?none⟩
  case issue => rw [step_cons hin, takeInput_issue (hfetch hwho hdec)]
  case start =>
    rw [step_cons hin, takeInput_start (hfetch hwho hdec) hb]
    rfl
  case none => simp only [step, hin]

/-- Settles O7: the input made of a table word carries bytes that decode to the word's instruction. -/
theorem tableWordRunsNext : Obligations.TableWordRunsNext := by
  unfold Obligations.TableWordRunsNext
  intro s nbits w i hwho hdec
  obtain ⟨⟨_, f, bytes⟩, hread, rfl⟩ := Option.map_eq_some_iff.1 hdec
  have hinput : (s.withFetchWord nbits w).inputs = .issue s.cur f bytes :: s.inputs := by
    simp only [State.withFetchWord, wordInput, hread]
  rw [step_cons hinput]
  exact takeInput_issue (fetch_ok (s := s) hwho (decode_of_readTableWord hread))

/-! ## Runs and their grains -/

/-- A command issued that answers a next state is a step list of an idle requester. -/
theorem exec_next_inv {i : Instr} {s t : State} (h : exec i s = .next t) :
    busy s.cur s = false ∧ runCode (codeOf i) (Job.fresh s.cur i (codeOf i)) s = .next t := by
  rw [exec_eq_execCode, execCode] at h
  split at h
  · cases h
  next hb => exact ⟨by simpa using hb, h⟩

/-- Settles O59: the command is put into flight, and the grains of its step list come to where the whole run comes. -/
theorem grainsRefineWhole : Obligations.GrainsRefineWhole := by
  unfold Obligations.GrainsRefineWhole
  intro s t who f bytes h
  rw [runInputs_one] at h
  cases hf : fetch who f bytes s with
  | error r => simp only [takeInput, hf, reduceCtorEq] at h
  | ok i =>
    rw [takeInput_issue hf] at h
    obtain ⟨hb, hrun⟩ := exec_next_inv h
    obtain ⟨m, ms, hcode⟩ := codeOf_ne_nil i
    have hstart := takeInput_start hf hb
    rw [hcode] at hrun hstart
    obtain ⟨k, hk⟩ := runCode_grains (j := Job.fresh who i (m :: ms)) hb hrun
    exact ⟨k, by simp only [runInputs, hstart]; exact hk⟩

/-! ## The environment's answers and the byte view -/

section
variable {α : Type} {queue : List α} {law : α → Bool} {free : Nat → α} {draws : Nat}

/-- An answer keeps the primitive's law, scripted or free (00_scope.md R10). -/
theorem nextAnswer_lawful (h : ∀ d, law (free d) = true) : law (nextAnswer queue law free draws).1 = true := by
  cases queue with
  | nil => exact h draws
  | cons a rest =>
    simp only [nextAnswer]
    split
    · assumption
    · exact h draws

end

theorem freeBytes_length (d n : Nat) : (freeBytes d n).length = n := by simp [freeBytes]

theorem exchangeLaw_freeExchange (n d : Nat) : exchangeLaw n (freeExchange n d) = true := by
  unfold freeExchange
  split
  · simp [exchangeLaw, freeBytes_length]
  · rfl

theorem countLaw_freeCount (n d : Nat) : countLaw n (freeCount n d) = true := by
  simp [countLaw, freeCount]

theorem readLaw_freeRead (n d : Nat) : readLaw n (freeRead n d) = true := by
  simp [readLaw, freeRead, countLaw_freeCount, freeBytes_length]

/-- An exchange that succeeds answers as many bytes as were sent. -/
theorem askExchange_length {e : Env} {n : Nat} {rx : List Byte} (h : (e.askExchange n).1 = some rx) : rx.length = n := by
  have hlaw : exchangeLaw n (e.askExchange n).1 = true := nextAnswer_lawful (exchangeLaw_freeExchange n)
  simpa [h, exchangeLaw] using hlaw

theorem askI2cRead_law (e : Env) (n : Nat) : readLaw n (e.askI2cRead n).1 = true :=
  nextAnswer_lawful (readLaw_freeRead n)

/-- Settles O9: every answer keeps its law because the free answers do. -/
theorem environmentLaws : Obligations.EnvironmentLaws := by
  unfold Obligations.EnvironmentLaws
  intro e n
  have hspi : countLaw n (e.askSpiWrite n).1 = true := nextAnswer_lawful (countLaw_freeCount n)
  have hi2c : countLaw n (e.askI2cWrite n).1 = true := nextAnswer_lawful (countLaw_freeCount n)
  have hread := askI2cRead_law e n
  simp only [readLaw, Bool.and_eq_true, beq_iff_eq] at hread
  exact ⟨fun _ => askExchange_length, of_decide_eq_true hspi, of_decide_eq_true hi2c, of_decide_eq_true hread.1, hread.2⟩

/-- Settles O19: the byte view reads the register its address lies in. -/
theorem registerBytes : Obligations.RegisterBytes := by
  unfold Obligations.RegisterBytes
  exact fun s b k => ⟨storedByte_at s b .oe k k.isLt, storedByte_at s b .dataOut k k.isLt⟩

end Sys2Proof.Machine
end

section
/-! What every step of the machine keeps: the invariant, what was created, and what was recorded. -/

namespace Sys2Proof.Machine

/-! ## The invariant -/

/-- Settles O55: nothing is in flight, no lock is held, the bus is closed and no line was returned. -/
theorem invariantAtReset : Obligations.InvariantAtReset := by
  unfold Obligations.InvariantAtReset
  exact {
    one_each := List.nodup_nil
    serial_held := fun _ h => nomatch h
    twowire_held := fun _ h => nomatch h
    jobs := fun _ h => nomatch h
    profile := fun h => nomatch h
    mapped := fun _ h => nomatch h }

section
variable {s t : State} {inp : Input}

/-- The invariant reads neither the inputs nor the current requester. -/
theorem Inv.withInputs (h : Inv s) (inps : List Input) (who : Nat) : Inv { s with inputs := inps, cur := who } :=
  InvWith.congr h ⟨rfl, rfl, rfl, rfl, rfl, rfl, rfl, rfl⟩

theorem exec_keeps_inv {i : Instr} (h : Inv s) (hr : exec i s = .next t) : Inv t := by
  obtain ⟨hb, hrun⟩ := exec_next_inv hr
  exact runCode_inv (fresh_inv h hb) rfl hrun

theorem startCode_keeps_inv {i : Instr} (h : Inv s) (hr : startCode i (codeOf i) s = .next t) : Inv t := by
  unfold startCode at hr
  split at hr <;> cases hr
  next hb => exact (fresh_inv h (by simpa using hb)).park rfl

theorem grain_keeps_inv {who : Nat} (h : Inv s) (hr : grain who s = .next t) : Inv t := by
  unfold grain at hr
  split at hr
  · cases hr
  next j rest hj =>
    have htaken : InvWith (j :: rest) { s with inflight := rest } :=
      (h.perm (takeJob_perm hj).1).congr ⟨rfl, rfl, rfl, rfl, rfl, rfl, rfl, rfl⟩
    exact grainJob_inv htaken rfl hr

theorem takeInput_keeps_inv (h : Inv s) (hr : takeInput inp s = .next t) : Inv t := by
  cases inp with
  | issue who f bytes =>
    simp only [takeInput] at hr
    split at hr
    · cases hr
    · exact exec_keeps_inv (h.withInputs s.inputs who) hr
  | start who f bytes =>
    simp only [takeInput] at hr
    split at hr
    · cases hr
    · exact startCode_keeps_inv (h.withInputs s.inputs who) hr
  | grain who => exact grain_keeps_inv h hr

end

/-- Settles O56: a command issued or started begins with the invariant and its own step list whole, and every step of a list,
its end and its parking keep that. -/
theorem invariantKept : Obligations.InvariantKept := by
  unfold Obligations.InvariantKept
  intro s t h hs
  cases hin : s.inputs with
  | nil =>
    simp only [step, hin] at hs
    cases hs
    exact h
  | cons inp rest =>
    rw [step_cons hin] at hs
    exact takeInput_keeps_inv (h.withInputs rest s.cur) hs

/-! ## Windows and handles created once -/

/-- What a step adds to the trace: no creation, the mapping of a window not mapped before, or the opening of a target not
open before (20_memory.md R77). -/
inductive Creates (s s' : State) : Prop where
  | nothing (es : List Event) (trace : s'.trace = s.trace ++ es) (no_map : ∀ b, .mapWindow b ∉ es)
      (no_open : ∀ t, .i2cOpen t ∉ es) (winMapped : s'.winMapped = s.winMapped) (i2cHandle : s'.i2cHandle = s.i2cHandle)
  | window (b : Fin 4) (unmapped : s.winMapped[b] = false) (trace : s'.trace = s.trace ++ [.mapWindow b])
      (winMapped : s'.winMapped = s.winMapped.set b true) (i2cHandle : s'.i2cHandle = s.i2cHandle)
  | handle (t : BitVec 7) (closed : s.i2cHandle[t.toFin] = false) (trace : s'.trace = s.trace ++ [.i2cOpen t])
      (i2cHandle : s'.i2cHandle = s.i2cHandle.set t.toFin true) (winMapped : s'.winMapped = s.winMapped)

theorem resolvePin_creates (id : BitVec 16) (s : State) : Creates s (resolvePin id s).2 := by
  obtain ⟨hhandle, ⟨hwin, htrace⟩ | ⟨b, hb, hwin, htrace⟩⟩ := resolve_once id s
  · exact .nothing [] (by rw [htrace, List.append_nil]) (by simp) (by simp) hwin hhandle
  · exact .window b hb htrace hwin hhandle

theorem openTarget_creates (t : BitVec 7) (s : State) : Creates s (openTarget t s).2 := by
  obtain ⟨hwin, ⟨hhandle, htrace⟩ | ⟨ht, hhandle, htrace⟩⟩ := openTarget_once t s
  · exact .nothing [] (by rw [htrace, List.append_nil]) (by simp) (by simp) hwin hhandle
  · exact .handle t ht htrace hhandle hwin

section
variable {m : Micro} {j j' : Job} {s s' : State}

theorem micro_creates (h : (micro m j s).after = some (j', s')) : Creates s s' := by
  have f := micro_frame h
  by_cases hres : ∃ id, m = .resolve id
  · obtain ⟨id, rfl⟩ := hres
    cases h
    exact resolvePin_creates id s
  by_cases hopen : ∃ t, m = .openHandle t
  · obtain ⟨t, rfl⟩ := hopen
    cases h
    exact openTarget_creates t s
  have hwin := (f.resolved (by simpa using hres)).1
  have hhandle := f.i2cHandle (by simpa using hopen)
  obtain htrace | ⟨e, htrace, hmap, ht⟩ | hres' | hopen' | ⟨p, c, rfl⟩ := micro_trace h
  · exact .nothing [] (by rw [htrace, List.append_nil]) (by simp) (by simp) hwin hhandle
  · exact .nothing [e] htrace (by simpa using fun b => (hmap b).symm) (by simpa using fun t => (ht t).symm) hwin hhandle
  · exact absurd hres' hres
  · exact absurd hopen' hopen
  · simp only [micro, stepOpenBus] at h
    split at h <;> cases h
    obtain htrace | htrace := openSerial_trace p c s
    · exact .nothing [] (by rw [htrace, List.append_nil]) (by simp) (by simp) hwin hhandle
    · exact .nothing _ htrace (by simp) (by simp) hwin hhandle

/-- Creating what was not there leaves everything created at most once. -/
theorem Creates.once (h : Creates s s') (hs : Once s) : Once s' := by
  obtain ⟨hw, hh⟩ := hs
  obtain ⟨es, htrace, hmap, hopen, hwin, hhandle⟩ | ⟨b, hb, htrace, hwin, hhandle⟩ | ⟨t, ht, htrace, hhandle, hwin⟩ := h
  all_goals constructor
  · intro b
    rw [htrace, hwin, List.count_append, List.count_eq_zero_of_not_mem (hmap b)]
    exact hw b
  · intro t
    rw [htrace, hhandle, List.count_append, List.count_eq_zero_of_not_mem (hopen t)]
    exact hh t
  · intro b'
    have hb' := hw b'
    rw [htrace, hwin, List.count_append]
    by_cases he : b' = b
    · subst he
      simp_all
    · have hother : (s.winMapped.set b true)[b'] = s.winMapped[b'] :=
        Vector.getElem_set_ne _ _ (Fin.val_ne_of_ne (Ne.symm he))
      simpa [hother, Ne.symm he] using hb'
  · intro t
    rw [htrace, hhandle, List.count_append]
    simpa using hh t
  · intro b
    rw [htrace, hwin, List.count_append]
    simpa using hw b
  · intro t'
    have ht' := hh t'
    rw [htrace, hhandle, List.count_append]
    by_cases he : t' = t
    · subst he
      simp_all
    · have hne : t.toFin ≠ t'.toFin := fun e => he (BitVec.eq_of_toFin_eq e.symm)
      have hother : (s.i2cHandle.set t.toFin true)[t'.toFin] = s.i2cHandle[t'.toFin] :=
        Vector.getElem_set_ne _ _ (Fin.val_ne_of_ne hne)
      rw [hother]
      simpa [Ne.symm he] using ht'

end

/-- Settles O58: at reset nothing is recorded, and each step creates only what was not there. -/
theorem createdOnce : Obligations.CreatedOnce := by
  unfold Obligations.CreatedOnce
  refine ⟨⟨fun _ => Nat.zero_le _, fun _ => Nat.zero_le _⟩, fun s t h hs => ?_⟩
  exact step_ind h (fun _ _ _ _ _ hP hm => (micro_creates hm).once hP) (fun _ _ hP => { hP with })
    (fun _ _ _ hP => { hP with }) (fun _ _ _ _ hP => { hP with }) hs

/-! ## Nothing is undone -/

/-- What a later state has kept of an earlier one (10_state.md R26, R32, 70_reset_and_hazards.md R270). -/
structure Grown (s t : State) : Prop where
  winMapped : ∀ b : Fin 4, s.winMapped[b] = true → t.winMapped[b] = true
  i2cHandle : ∀ a : BitVec 7, s.i2cHandle[a.toFin] = true → t.i2cHandle[a.toFin] = true
  extAddr : s.extAddr.isSome = true → t.extAddr.isSome = true
  resolved : ∀ l, s.resolved.contains l = true → t.resolved.contains l = true
  board : t.board = s.board
  trace : ∃ es, t.trace = s.trace ++ es
  results : ∃ rs, t.results = s.results ++ rs

theorem Grown.refl (s : State) : Grown s s :=
  ⟨fun _ => id, fun _ => id, id, fun _ => id, rfl, ⟨[], (List.append_nil _).symm⟩, ⟨[], (List.append_nil _).symm⟩⟩

theorem Grown.trans {s t u : State} (h : Grown s t) (g : Grown t u) : Grown s u := by
  obtain ⟨es, hes⟩ := h.trace
  obtain ⟨es', hes'⟩ := g.trace
  obtain ⟨rs, hrs⟩ := h.results
  obtain ⟨rs', hrs'⟩ := g.results
  exact ⟨fun b hb => g.winMapped b (h.winMapped b hb), fun a ha => g.i2cHandle a (h.i2cHandle a ha),
    fun hx => g.extAddr (h.extAddr hx), fun l hl => g.resolved l (h.resolved l hl), g.board.trans h.board,
    ⟨es ++ es', by rw [hes', hes, List.append_assoc]⟩, ⟨rs ++ rs', by rw [hrs', hrs, List.append_assoc]⟩⟩

section
variable {m : Micro} {j j' : Job} {s s' : State}

/-- A flag set stays set when another, or the same one, is set. -/
theorem flag_set {n : Nat} {v : Vector Bool n} {i k : Fin n} (h : v[k] = true) : (v.set i true)[k] = true := by
  simp only [Fin.getElem_fin, Vector.getElem_set]
  split
  · rfl
  · exact h

theorem Creates.keeps_created (h : Creates s s') :
    (∀ b : Fin 4, s.winMapped[b] = true → s'.winMapped[b] = true) ∧
      (∀ a : BitVec 7, s.i2cHandle[a.toFin] = true → s'.i2cHandle[a.toFin] = true) ∧ ∃ es, s'.trace = s.trace ++ es := by
  obtain ⟨es, htrace, -, -, hwin, hhandle⟩ | ⟨b, -, htrace, hwin, hhandle⟩ | ⟨t, -, htrace, hhandle, hwin⟩ := h <;>
    rw [hwin, hhandle]
  · exact ⟨fun _ => id, fun _ => id, _, htrace⟩
  · exact ⟨fun _ => flag_set, fun _ => id, _, htrace⟩
  · exact ⟨fun _ => id, fun _ => flag_set, _, htrace⟩

/-- The extension address never returns to none (42_addressing.md R166). -/
theorem micro_keeps_extAddr (h : (micro m j s).after = some (j', s')) (hs : s.extAddr.isSome = true) :
    s'.extAddr.isSome = true := by
  by_cases hm : ∃ a, m = .setExt a
  · obtain ⟨a, rfl⟩ := hm
    cases h
    rfl
  · rwa [(micro_frame h).extAddr (by simpa using hm)]

/-- A line returned stays so (40_gpio.md R127). -/
theorem micro_keeps_resolved {l : Line} (h : (micro m j s).after = some (j', s')) (hl : s.resolved.contains l = true) :
    s'.resolved.contains l = true := by
  by_cases hm : ∃ id, m = .resolve id
  · obtain ⟨id, rfl⟩ := hm
    cases h
    obtain ⟨-, hres⟩ | ⟨l', -, hres, -⟩ := resolvePin_lines id s
    · rwa [hres]
    · rw [hres, contains_noteLine]
      exact .inr hl
  · rwa [((micro_frame h).resolved (by simpa using hm)).2]

theorem micro_grown (h : (micro m j s).after = some (j', s')) : Grown s s' := by
  obtain ⟨hwin, hhandle, htrace⟩ := (micro_creates h).keeps_created
  obtain ⟨-, hboard, -, -, hres⟩ := (micro_frame h).rest
  exact ⟨hwin, hhandle, micro_keeps_extAddr h, fun _ => micro_keeps_resolved h, hboard, htrace,
    ⟨[], by rw [hres, List.append_nil]⟩⟩

theorem finish_grown (j : Job) (s : State) : Grown s (finish j s) :=
  ⟨fun _ => id, fun _ => id, id, fun _ => id, rfl, ⟨[], (List.append_nil _).symm⟩, ⟨_, rfl⟩⟩

end

/-- Settles O57: each step of an operation only adds, and so does its end. -/
theorem nothingIsUndone : Obligations.NothingIsUndone := by
  unfold Obligations.NothingIsUndone
  intro s t hs
  have hgrown : Grown s t :=
    step_ind (P := Grown s) (.refl s) (fun _ _ _ _ _ hP hm => hP.trans (micro_grown hm))
      (fun j s' hP => hP.trans (finish_grown j s'))
      (fun _ _ _ hP => { hP with }) (fun _ _ _ _ hP => { hP with }) hs
  exact ⟨hgrown.winMapped, hgrown.i2cHandle, hgrown.extAddr, hgrown.resolved, hgrown.board, hgrown.trace, hgrown.results⟩

end Sys2Proof.Machine
end

section
/-! What every operation keeps, whatever becomes of it: the bus profile, the idle levels, the locks, the kinds of its error,
and the state that is not its to write. -/

namespace Sys2Proof.Machine

/-! ## The bus profile (41_serial_bus.md R147) -/

/-- The profile an operation leaves active if it restores the one it has saved. -/
def profileToLeave (j : Job) (s : State) : Profile := j.saved.getD s.spiActive

/-- An operation on its way has kept the profile registers of `s0`, the active one in its saved profile if need be. -/
structure ProfileHeld (s0 : State) (j : Job) (s : State) : Prop where
  toLeave : profileToLeave j s = s0.spiActive
  primary : s.spiPrimary = s0.spiPrimary
  opened : s.spiOpen = s0.spiOpen

section
variable {s0 s s' t : State} {j j' : Job} {m : Micro} {ms : List Micro} {ser win : Bool} {n : Nat} {i : Instr}

/-- No step but the opening and the closing of the bus changes the profile an operation is to leave. -/
theorem settle_profileToLeave (hopen : ∀ p c, m ≠ .openBus p c) (hclose : m ≠ .closeBus)
    (henter : m = .enterSecondary → j.saved = none) (h : settle n m j s = .go j' s') :
    profileToLeave j' s' = profileToLeave j s := by
  have f := settle_frame (congrArg MicroOut.after h)
  by_cases he : m = .enterSecondary
  · subst he
    have hs := henter rfl
    rw [settle_not_poll (by simp)] at h
    simp only [micro, stepEnterSecondary] at h
    split at h <;> cases h <;> simp [profileToLeave, hs]
  by_cases hl : m = .leaveSecondary
  · subst hl
    rw [settle_not_poll (by simp)] at h
    simp only [micro, stepLeaveSecondary] at h
    split at h
    next p hp => cases h; simp [profileToLeave, hp]
    next => cases h; rfl
  · obtain ⟨hact, hsaved⟩ := f.active hopen hclose he hl
    simp only [profileToLeave, hact, hsaved]

/-- Only the two ends of a section change whether one is open. -/
theorem next_section (he : m ≠ .enterSecondary) (hl : m ≠ .leaveSecondary) : (m.next ser win).2 = win := by
  cases m
  case enterSecondary => exact absurd rfl he
  case leaveSecondary => exact absurd rfl hl
  all_goals rfl

/-- A profile is saved only inside a critical section. -/
theorem settle_saved_inSection (hopen : ∀ p c, m ≠ .openBus p c) (hclose : m ≠ .closeBus)
    (hwin : j.saved.isSome = true → win = true) (h : settle n m j s = .go j' s') :
    j'.saved.isSome = true → (m.next ser win).2 = true := by
  have f := settle_frame (congrArg MicroOut.after h)
  by_cases hl : m = .leaveSecondary
  · subst hl
    rw [settle_not_poll (by simp)] at h
    simp only [micro, stepLeaveSecondary] at h
    split at h <;> cases h <;> simp_all
  by_cases he : m = .enterSecondary
  · exact fun _ => by rw [he]; rfl
  · rw [(f.active hopen hclose he hl).2, next_section he hl]
    exact hwin

/-- Outside a section there is no saved profile, so the profile to leave is the active one. -/
theorem ProfileHeld.unsaved (h : ProfileHeld s0 j s) (hs : j.saved = none) :
    s.spiActive = s0.spiActive ∧ s.spiPrimary = s0.spiPrimary ∧ s.spiOpen = s0.spiOpen := by
  have hact := h.toLeave
  simp only [profileToLeave, hs, Option.getD_none] at hact
  exact ⟨hact, h.primary, h.opened⟩

/-- A list that keeps its sections whole and neither opens nor closes the bus leaves its profile registers as they were,
wherever it ends or waits. -/
theorem runCode_keeps_profile (hd : disciplined ser win ms = true)
    (hbus : ∀ m ∈ ms, (∀ p c, m ≠ .openBus p c) ∧ m ≠ .closeBus) (hwin : j.saved.isSome = true → win = true)
    (hp : ProfileHeld s0 j s) (h : runCode ms j s = .next t) :
    t.spiActive = s0.spiActive ∧ t.spiPrimary = s0.spiPrimary ∧ t.spiOpen = s0.spiOpen := by
  induction ms generalizing ser win j s with
  | nil =>
    cases h
    exact hp.unsaved (saved_none hwin (by simpa [disciplined] using hd))
  | cons m ms ih =>
    obtain ⟨hopen, hclose⟩ := hbus m (by simp)
    obtain ⟨j1, s1, hgo, f, hrun⟩ | ⟨hends, hlast⟩ := runCode_step h
    · obtain ⟨hopened, hprimary⟩ := f.openClose hopen hclose
      have henter : m = .enterSecondary → j.saved = none := fun he =>
        saved_none hwin ((disciplined_locked hd (.inr (.inr (.inl he)))).2.resolve_left (by simp [he]))
      exact ih (disciplined_tail hd) (fun m hm => hbus m (by simp [hm])) (settle_saved_inSection hopen hclose hwin hgo)
        ⟨(settle_profileToLeave hopen hclose henter hgo).trans hp.toLeave, hprimary.trans hp.primary,
          hopened.trans hp.opened⟩ hrun
    · obtain ⟨hact, hprimary, hopened⟩ := hp.unsaved (saved_none hwin (disciplined_ends hd hends))
      obtain ⟨j1, s1, ho, -, rfl⟩ | ⟨j1, s1, ho, -, rfl⟩ | ⟨-, rfl⟩ := hlast
      · obtain ⟨-, -, ho', hp', ha', -⟩ := settle_stop_locks (.inr ho)
        exact ⟨ha'.trans hact, hp'.trans hprimary, ho'.trans hopened⟩
      · obtain ⟨-, -, ho', hp', ha', -⟩ := settle_stop_locks (.inl ho)
        exact ⟨ha'.trans hact, hp'.trans hprimary, ho'.trans hopened⟩
      · exact ⟨hact, hprimary, hopened⟩

end

/-- Settles O27: every operation but the two has whole sections and no step that opens or closes the bus. -/
theorem profileKept : Obligations.ProfileKept := by
  unfold Obligations.ProfileKept
  intro i s t hopen hclose h
  have hbus : ∀ m ∈ codeOf i, (∀ p c, m ≠ .openBus p c) ∧ m ≠ .closeBus := by
    intro m hm
    obtain ⟨-, -, -, -, hop, hcl, -⟩ := codeOf_mem hm
    refine ⟨fun p c hm => ?_, fun hm => hclose (hcl hm)⟩
    obtain ⟨path, mode, word, speed, hi⟩ := hop ⟨p, c, hm⟩
    exact hopen path mode word speed hi
  exact runCode_keeps_profile (codeOf_disciplined i) hbus (by simp [Job.fresh]) ⟨rfl, rfl, rfl⟩ (exec_next_inv h).2

/-! ## Idle levels (42_addressing.md R160) -/

/-- The operations of files 41 to 43 take no line operand. -/
theorem lineOperand_none {i : Instr} (h : firstLock i = .serial ∨ ∃ loc p e, i = .regSelect loc p e) :
    lineOperand i = none := by
  obtain h | ⟨loc, p, e, rfl⟩ := h
  · cases i <;> cases h <;> rfl
  · rfl

/-- Settles O35: an operation with no line operand leaves `CS` and `DS` high. -/
theorem chipSelectIdleHigh : Obligations.ChipSelectIdleHigh := by
  unfold Obligations.ChipSelectIdleHigh
  intro i s t hi h
  have hline : ∀ l, lineOperand i ≠ some l := fun l => by simp [lineOperand_none hi]
  exact ⟨fun hs => exec_keeps_high (.inl rfl) (hline _) hs h, fun hs => exec_keeps_high (.inr rfl) (hline _) hs h⟩

/-! ## Error kinds (60_exceptions.md R235) -/

/-- The codes of the errors a step may put into the result of its operation. -/
def Micro.errorCodes : Micro → List Nat
  | .resolve _ => [1, 2, 3]
  | .openBus _ _ => [2]
  | .openHandle _ => [2]
  | .checkRx e => [e.code]
  | .checkCount _ e => [e.code]
  | .checkFrameOp _ => [9]
  | .checkExt _ => [9]
  | .poll _ _ _ => [7]
  | .validate => [8]
  | _ => []

@[simp] theorem errorCodes_checkRx (e : Error) : (Micro.checkRx e).errorCodes = [e.code] := rfl
@[simp] theorem errorCodes_checkCount (n : Nat) (e : Error) : (Micro.checkCount n e).errorCodes = [e.code] := rfl
@[simp] theorem errorCodes_checkFrameOp (op : BitVec 3) : (Micro.checkFrameOp op).errorCodes = [9] := rfl
@[simp] theorem errorCodes_checkExt (ext : BitVec 4) : (Micro.checkExt ext).errorCodes = [9] := rfl
@[simp] theorem errorCodes_poll (l : LineRef) (v : Bool) (d : CountDest) : (Micro.poll l v d).errorCodes = [7] := rfl
@[simp] theorem errorCodes_validate : Micro.validate.errorCodes = [8] := rfl

/-- Whether a step may put the error into the result of its operation. -/
def Micro.mayRaise (m : Micro) (e : Error) : Bool := m.errorCodes.contains e.code

theorem resolvePin_error {id : BitVec 16} {s : State} {e : Error} (h : (resolvePin id s).1 = .error e) :
    (Micro.resolve id).mayRaise e = true := by
  unfold resolvePin at h
  split at h
  · cases h; rfl
  · simp only [resolveLine] at h
    repeat' split at h
    all_goals cases h
    all_goals rfl

theorem openTarget_error {a : BitVec 7} {s : State} {e : Error} (h : (openTarget a s).1 = .error e) :
    (Micro.openHandle a).mayRaise e = true := by
  simp only [openTarget] at h
  repeat' split at h
  all_goals cases h
  rfl

theorem openSerial_error {path : List Byte} {p : Profile} {s : State} {e : Error} (h : (openSerial path p s).1 = .error e) :
    (Micro.openBus path p).mayRaise e = true := by
  simp only [openSerial] at h
  split at h <;> cases h
  rfl

section
variable {m : Micro} {j j' : Job} {s s' : State} {e : Error}

/-- An error in the result after a step was there before it, or is one the step may raise. -/
theorem micro_error (h : (micro m j s).after = some (j', s')) (he : j'.result = .error e) :
    j.result = .error e ∨ m.mayRaise e = true := by
  cases m
  case resolve id => cases h; exact .inr (resolvePin_error he)
  case openHandle a => cases h; exact .inr (openTarget_error he)
  case openBus path p =>
    simp only [micro, stepOpenBus] at h
    split at h <;> cases h
    exact .inr (openSerial_error he)
  all_goals
    simp only [micro, stepTakeSerial, stepTakeTwowire, stepReleaseSerial, demand, stepOeRead, stepOeWrite, stepLevel,
      stepSample, stepPoll, stepCloseBus, stepEnterSecondary, stepLeaveSecondary, stepExchange, stepSendFrame,
      stepRawWrite, stepCheckRx, stepCheckCount, stepReturnRx, stepReturnByte, stepReturnCount, stepCheckFrameOp,
      stepSetExt, stepStopIfNoExt, stepCheckExt, stepBusWrite, stepBusRead, stepPhase, stepThreshold, stepPackBits,
      stepValidate, stepInterpret, raise, stopOk] at h
    repeat' split at h
    all_goals cases h
    all_goals simp_all [Micro.mayRaise]
  all_goals
    subst he
    exact .inr rfl

end

/-- The table of errors allows an operation what its steps may raise: compared list by list and kind by kind. -/
theorem codeOf_mayRaise_all (i : Instr) (e : Error) :
    (codeOf i).all (fun m => !m.mayRaise e || mayReturn i e) = true := by
  cases i with
  | regSelect loc p x => cases p <;> cases e <;> rfl
  | regRead t n reg len => cases n <;> cases e <;> rfl
  | _ => cases e <;> rfl

theorem codeOf_mayRaise {i : Instr} {m : Micro} {e : Error} (hm : m ∈ codeOf i) (h : m.mayRaise e = true) :
    mayReturn i e = true := by
  simpa [h] using List.all_eq_true.1 (codeOf_mayRaise_all i e) m hm

/-- An operation on its way has added no result, and holds only an error it may return. -/
structure Unanswered (i : Instr) (s0 : State) (j : Job) (s : State) : Prop where
  results : s.results = s0.results
  who : j.who = s0.cur
  allowed : ∀ e, j.result = .error e → mayReturn i e = true

/-- Settles O51: each step leaves the results alone and raises only what the table allows; the end adds one result. -/
theorem onlyAllowedErrors : Obligations.OnlyAllowedErrors := by
  unfold Obligations.OnlyAllowedErrors
  intro i s t h
  refine exec_ind (P := Unanswered i s)
    (Q := fun t => t.results = s.results ∨
      ∃ r, t.results = s.results ++ [(s.cur, r)] ∧ ∀ e, r = .error e → mayReturn i e = true)
    (fun m hm j s1 j' s1' hP ha => ?step) (fun j s1 hP => .inr ⟨j.result, ?ended, hP.allowed⟩)
    (fun j s1 ms hP => .inl hP.results) ⟨rfl, rfl, fun e he => by cases he⟩ h
  case step =>
    have f := micro_frame ha
    obtain ⟨-, -, -, -, hres⟩ := f.rest
    exact ⟨hres.trans hP.results, f.job.1.trans hP.who,
      fun e he => (micro_error ha he).elim (hP.allowed e) (codeOf_mayRaise hm)⟩
  case ended => rw [finish_results, hP.results, hP.who]

/-! ## Locks (20_memory.md R73, 60_exceptions.md R243) -/

/-- Each lock is free or held by the operation's requester. -/
def OwnLocks (j : Job) (s : State) : Prop :=
  (s.lockSerial = none ∨ s.lockSerial = some j.who) ∧ (s.lockTwowire = none ∨ s.lockTwowire = some j.who)

section
variable {m : Micro} {ms : List Micro} {j j' : Job} {s s' t : State} {n : Nat}

theorem unlock_own {who : Nat} {lock : Option Nat} (h : lock = none ∨ lock = some who) : unlock who lock = none := by
  obtain rfl | rfl := h <;> simp [unlock]

/-- Only the two lock steps wait. -/
theorem micro_wait (h : micro m j s = .wait) : m = .takeSerial ∨ m = .takeTwowire := by
  cases m
  case takeSerial => exact .inl rfl
  case takeTwowire => exact .inr rfl
  all_goals
    simp only [micro, stepReleaseSerial, demand, stepResolve, stepOeRead, stepOeWrite, stepLevel, stepSample, stepPoll,
      stepOpenBus, stepCloseBus, stepEnterSecondary, stepLeaveSecondary, stepExchange, stepSendFrame, stepRawWrite,
      stepCheckRx, stepCheckCount, stepReturnRx, stepReturnByte, stepReturnCount, stepCheckFrameOp, stepSetExt,
      stepStopIfNoExt, stepOpenHandle, stepCheckExt, stepBusWrite, stepBusRead, stepPhase, stepThreshold, stepPackBits,
      stepValidate, stepInterpret, raise, stopOk] at h
    repeat' split at h
    all_goals cases h

theorem settle_wait (h : settle n m j s = .wait) : m = .takeSerial ∨ m = .takeTwowire := by
  induction n generalizing j s with
  | zero => exact micro_wait h
  | succ n ih =>
    simp only [settle] at h
    split at h
    · exact ih h
    · exact micro_wait h

/-- An operation never waits for a lock of its own, or for a free one (20_memory.md R74). -/
theorem OwnLocks.not_wait (h : OwnLocks j s) : settle n m j s ≠ .wait := by
  intro hw
  obtain ⟨hser, htwo⟩ := h
  obtain rfl | rfl := settle_wait hw <;> rw [settle_not_poll (by simp)] at hw
  · obtain h | h := hser <;> simp [micro, stepTakeSerial, h] at hw
  · obtain h | h := htwo <;> simp [micro, stepTakeTwowire, h] at hw

/-- A measurement does not outlast its bound (44_single_wire.md R205): where `n` more polls reach it, the last one ends it. -/
theorem settle_ne_again (hn : Config.dhtSpinBound ≤ j.dht.count + n) : settle n m j s ≠ .again j' s' := by
  by_cases hm : ∀ l v d, m ≠ .poll l v d
  · rw [settle_not_poll hm]
    exact micro_ne_again hm j j' s s'
  · simp only [ne_eq, not_forall, not_not] at hm
    obtain ⟨l, v, d, rfl⟩ := hm
    have hcount : ∀ {j j1 : Job} {s s1 : State}, micro (.poll l v d) j s = .again j1 s1 →
        j1.dht.count = j.dht.count + 1 ∧ j.dht.count + 1 ≤ Config.dhtSpinBound := by
      intro j j1 s s1 h
      simp only [micro, stepPoll, raise] at h
      repeat' split at h
      all_goals cases h
      exact ⟨rfl, Nat.le_of_not_lt ‹_›⟩
    induction n generalizing j s with
    | zero =>
      intro h
      have := (hcount h).2
      omega
    | succ n ih =>
      simp only [settle]
      split
      next j1 s1 ho =>
        obtain ⟨hc, -⟩ := hcount ho
        exact ih (by omega)
      next hno => exact hno _ _

theorem settle_keeps_ownLocks (h : OwnLocks j s) (hgo : settle n m j s = .go j' s') : OwnLocks j' s' := by
  have f := settle_frame (congrArg MicroOut.after hgo)
  obtain ⟨hser, htwo⟩ := h
  rw [OwnLocks, f.job.1]
  by_cases hs : m = .takeSerial
  · subst hs
    rw [settle_not_poll (by simp)] at hgo
    obtain h | h := hser <;> simp only [micro, stepTakeSerial, h, if_true] at hgo <;> cases hgo <;> simp [htwo, h]
  by_cases ht : m = .takeTwowire
  · subst ht
    rw [settle_not_poll (by simp)] at hgo
    obtain h | h := htwo <;> simp only [micro, stepTakeTwowire, h, if_true] at hgo <;> cases hgo <;> simp [hser, h]
  rw [f.lockTwowire ht]
  by_cases hr : m = .releaseSerial
  · subst hr
    rw [settle_not_poll (by simp)] at hgo
    cases hgo
    exact ⟨.inl (unlock_own hser), htwo⟩
  · rw [f.lockSerial hs hr]
    exact ⟨hser, htwo⟩

/-- An operation that meets no lock of another comes to its end and frees its own. -/
theorem runCode_returns (hlocks : OwnLocks j s) (h : runCode ms j s = .next t) :
    t.lockSerial = none ∧ t.lockTwowire = none ∧ t.inflight = s.inflight ∧
      ∃ r, t.results = s.results ++ [(j.who, r)] := by
  have hfinish : ∀ {k : Job} {u : State}, OwnLocks k u → (finish k u).lockSerial = none ∧
      (finish k u).lockTwowire = none := fun hk => ⟨unlock_own hk.1, unlock_own hk.2⟩
  induction ms generalizing j s with
  | nil =>
    cases h
    exact ⟨(hfinish hlocks).1, (hfinish hlocks).2, rfl, _, rfl⟩
  | cons m ms ih =>
    obtain ⟨j1, s1, hgo, f, hrun⟩ | ⟨-, ⟨j1, s1, ho, -, -⟩ | ⟨j1, s1, ho, f, rfl⟩ | ⟨ho, -⟩⟩ := runCode_step h
    · obtain ⟨hfly, -, -, -, hres⟩ := f.rest
      have hend := ih (settle_keeps_ownLocks hlocks hgo) hrun
      rwa [hfly, hres, f.job.1] at hend
    · exact absurd ho (settle_ne_again (Nat.le_add_left _ _))
    · obtain ⟨hfly, -, -, -, hres⟩ := f.rest
      obtain ⟨hser, htwo, -⟩ := settle_stop_locks (.inl ho)
      have hown : OwnLocks j1 s1 := by rw [OwnLocks, hser, htwo, f.job.1]; exact hlocks
      exact ⟨(hfinish hown).1, (hfinish hown).2, hfly, j1.result, by rw [finish_results, hres, f.job.1]⟩
    · exact absurd ho hlocks.not_wait

end

/-- Settles O52: with both locks free the operation meets no lock of another. -/
theorem locksFreeAtReturn : Obligations.LocksFreeAtReturn := by
  unfold Obligations.LocksFreeAtReturn
  intro i s t hser htwo h
  exact runCode_returns ⟨.inl hser, .inl htwo⟩ (exec_next_inv h).2

/-! ## Who writes what (10_state.md section 4) -/

/-- A field is left alone by an operation none of whose steps writes it. -/
theorem exec_writes {α : Type} {f : State → α} {i : Instr} {s t : State} {writes : Micro → Prop} (hr : exec i s = .next t)
    (hm : ∀ m j s j' s', ¬ writes m → Frame m j s j' s' → f s' = f s) (hf : ∀ j s, f (finish j s) = f s)
    (hp : ∀ j ms s, f (park j ms s) = f s) (hne : f t ≠ f s) : ∃ m ∈ codeOf i, writes m := by
  by_contra hno
  exact hne (exec_keeps (fun m hmem j s j' s' => hm m j s j' s' fun hw => hno ⟨m, hmem, hw⟩) hf hp hr)

/-- Settles O54: an operation that changes a field has a step that writes it, and those steps stand only in the lists of the
operations named. -/
theorem writtenOnlyBy : Obligations.WrittenOnlyBy := by
  unfold Obligations.WrittenOnlyBy
  intro i s t h
  refine ⟨fun hne => ?oe, fun hne => ?lines, fun hne => ?ext, fun hne => ?handle, fun hi => ?latches,
    exec_keeps_board h, ?cur, ?inputs⟩
  case oe =>
    obtain ⟨m, hm, hw⟩ := exec_writes (f := State.oe) (writes := fun m => ∃ l d, m = .oeWrite l d) h
      (fun _ _ _ _ _ hw f => f.oe (by simpa using hw)) (fun _ _ => rfl) (fun _ _ _ => rfl) hne
    exact (codeOf_mem hm).1 hw
  case lines =>
    have hne' : (t.winMapped, t.resolved) ≠ (s.winMapped, s.resolved) := by
      simpa [Prod.ext_iff, imp_iff_not_or] using hne
    obtain ⟨m, hm, hw⟩ := exec_writes (f := fun s => (s.winMapped, s.resolved))
      (writes := fun m => ∃ id, m = .resolve id) h
      (fun _ _ _ _ _ hw f => Prod.ext (f.resolved (by simpa using hw)).1 (f.resolved (by simpa using hw)).2)
      (fun _ _ => rfl) (fun _ _ _ => rfl) hne'
    obtain ⟨-, hresolve, -⟩ := codeOf_mem hm
    exact hresolve hw
  case ext =>
    obtain ⟨m, hm, hw⟩ := exec_writes (f := State.extAddr) (writes := fun m => ∃ a, m = .setExt a) h
      (fun _ _ _ _ _ hw f => f.extAddr (by simpa using hw)) (fun _ _ => rfl) (fun _ _ _ => rfl) hne
    obtain ⟨-, -, hext, -⟩ := codeOf_mem hm
    exact hext hw
  case handle =>
    obtain ⟨m, hm, hw⟩ := exec_writes (f := State.i2cHandle) (writes := fun m => ∃ a, m = .openHandle a) h
      (fun _ _ _ _ _ hw f => f.i2cHandle (by simpa using hw)) (fun _ _ => rfl) (fun _ _ _ => rfl) hne
    obtain ⟨-, -, -, hhandle, -⟩ := codeOf_mem hm
    exact hhandle hw
  case latches =>
    by_contra hne
    obtain ⟨m, hm, hw⟩ := exec_writes (f := State.dataOut) (writes := fun m => ∃ l v, m = .level l v) h
      (fun _ _ _ _ _ hw f => f.dataOut (by simpa using hw)) (fun _ _ => rfl) (fun _ _ _ => rfl) hne
    obtain ⟨-, -, -, -, -, -, hlevel⟩ := codeOf_mem hm
    exact hlevel hw hi
  case cur => exact exec_keeps (f := State.cur) (fun _ _ _ _ _ _ f => f.rest.2.2.1) (fun _ _ => rfl) (fun _ _ _ => rfl) h
  case inputs =>
    exact exec_keeps (f := State.inputs) (fun _ _ _ _ _ _ f => f.rest.2.2.2.1) (fun _ _ => rfl) (fun _ _ _ => rfl) h

end Sys2Proof.Machine
end

section
/-! The GPIO unit (40_gpio.md): `resolve`, `set_input` and `read`, that no operation disturbs another line, and two operations
of two requesters on one bank (20_memory.md R76). -/

namespace Sys2Proof.Machine

/-! ## Effects -/

section
variable {s : State} {l : Line} {id : BitVec 16}

theorem resolvePin_table (h : s.board.data.pin id = some l) : resolvePin id s = resolveLine id l s := by
  simp only [resolvePin, h]

/-- `resolve` where the device does not open (40_gpio.md R121). -/
theorem resolveLine_notOpened (hw : s.winMapped[l.bank] = false) (ho : s.env.askOpenMem.1 = false) :
    resolveLine id l s = (.error (.deviceOpenFailed (.bank l.bank)), { s with env := s.env.askOpenMem.2 }) := by
  simp only [resolveLine, hw, ho, Bool.false_eq_true, if_false]

/-- `resolve` where the window does not map (R121). -/
theorem resolveLine_notMapped (hw : s.winMapped[l.bank] = false) (ho : s.env.askOpenMem.1 = true)
    (hm : s.env.askOpenMem.2.askMap.1 = false) :
    resolveLine id l s = (.error (.mapFailed l.bank), { s with env := s.env.askOpenMem.2.askMap.2 }) := by
  simp only [resolveLine, hw, ho, hm, Bool.false_eq_true, if_true, if_false]

/-- `resolve` where the window maps (R121). -/
theorem resolveLine_maps (hw : s.winMapped[l.bank] = false) (ho : s.env.askOpenMem.1 = true)
    (hm : s.env.askOpenMem.2.askMap.1 = true) :
    resolveLine id l s = (.ok (.line id l), { s with
      env := s.env.askOpenMem.2.askMap.2, winMapped := s.winMapped.set l.bank true
      trace := s.trace ++ [.mapWindow l.bank], resolved := noteLine l s.resolved }) := by
  simp only [resolveLine, hw, ho, hm, Bool.false_eq_true, if_true, if_false, emit, noteLine]
  rfl

end

/-- Settles O12: `resolve` answers what its body answers, in each of the five cases of R121. -/
theorem resolveEffect : Obligations.ResolveEffect := by
  unfold Obligations.ResolveEffect
  intro s id hi
  have hrun := exec_gpioResolve (id := id) hi
  refine ⟨fun hpin => ?unknown, fun l hpin => ?known⟩
  case unknown => simpa only [resolvePin, hpin] using hrun
  case known =>
    rw [resolvePin_table hpin] at hrun
    refine ⟨fun hw => ?mapped, fun hw ho => ?notOpened, fun hw ho hm => ?notMapped, fun hw ho hm => ?maps⟩
    case mapped => rwa [resolveLine_mapped hw] at hrun
    case notOpened => rwa [resolveLine_notOpened hw ho] at hrun
    case notMapped => rwa [resolveLine_notMapped hw ho hm] at hrun
    case maps => rwa [resolveLine_maps hw ho hm] at hrun

/-- Settles O14: the read and the write of `OE` as `runCode_direction` says them; the bit written is 1. -/
theorem setInputEffect : Obligations.SetInputEffect := by
  unfold Obligations.SetInputEffect
  intro s l hi hl
  exact ⟨execCode_direction hi hl, drivenLevel_directionSet (d := .inp)⟩

/-- Settles O17: one read of `DATAIN`, whose bit of the line `lineBit_dataInWord` gives. -/
theorem readEffect : Obligations.ReadEffect := by
  unfold Obligations.ReadEffect
  rintro s l ⟨hidle, hser, htwo⟩ hl v
  have hgo : ∀ j, micro (.sample (.line l)) j s = .go { j with result := .ok (.bit v) } (emit (.gpioSample l v)
      { s with env := s.env.askPads.2.askDriven.2 }) := fun j => by
    simp only [micro, stepSample, sampleLine_ready (lineOf_line hl.1) hl.2]
    rfl
  calc exec (.gpioRead l) s
    _ = runCode [.sample (.line l)] (Job.fresh s.cur (.gpioRead l) _) s := execCode_ready hidle
    _ = runCode [] _ _ := runCode_go (hgo _)
    _ = .next (finish _ _) := runCode_nil _ _
    _ = _ := congrArg _ (finish_idle rfl rfl hser htwo)

/-! ## Other lines -/

/-- The direction bit of another line, of this bank or another, after a write of `OE`. -/
theorem lineBit_set_withDir_other {oe : Vector Word 4} {l m : Line} {d : Dir} (hne : m ≠ l) :
    lineBit (oe.set l.bank (withDir oe[l.bank] l d))[m.bank] m = lineBit oe[m.bank] m := by
  by_cases hb : m.bank = l.bank
  · have hsame : (oe.set l.bank (withDir oe[l.bank] l d))[m.bank] = withDir oe[l.bank] l d := by simp [hb]
    rw [hsame, withDir_other hne hb, lineBit_bank hb]
  · have hother : (oe.set l.bank (withDir oe[l.bank] l d))[m.bank] = oe[m.bank] :=
      Vector.getElem_set_ne _ _ (Fin.val_ne_of_ne (Ne.symm hb))
    rw [hother]

section
variable {s t : State} {l m : Line} {i : Instr}

theorem level_keeps_others {v : Bool} (hne : m ≠ l) (h : execCode i [.level (.line l) v] s = .next t) :
    latch t m = latch s m ∧ t.oe = s.oe := by
  obtain ⟨hdata, hoe, -⟩ := level_inv h
  exact ⟨by rw [latch, hdata, setLatch_other hne, latch], hoe⟩

theorem direction_keeps_others {d : Dir} (hne : m ≠ l)
    (h : execCode i [.oeRead (.line l), .oeWrite (.line l) d] s = .next t) :
    lineBit t.oe[m.bank] m = lineBit s.oe[m.bank] m ∧ t.dataOut = s.dataOut := by
  obtain ⟨hoe, hdata, -⟩ := direction_inv h
  exact ⟨by rw [hoe, lineBit_set_withDir_other hne], hdata⟩

end

/-- Settles O20: each pair of operations writes one bit of one register. -/
theorem otherLinesUntouched : Obligations.OtherLinesUntouched := by
  unfold Obligations.OtherLinesUntouched
  intro s t l m hne
  exact ⟨fun h => h.elim (level_keeps_others hne) (level_keeps_others hne),
    fun h => h.elim (direction_keeps_others hne) (direction_keeps_others hne)⟩

/-! ## Two requesters on one bank -/

/-- The state with these operations in flight. -/
def withInflight (js : List Job) (s : State) : State := { s with inflight := js }

section
variable {s s' t : State} {j j' : Job} {js ks : List Job} {m : Micro} {ms : List Micro} {who : Nat} {inp : Input}
  {rest : List Input}

theorem runInputs_cons (h : takeInput inp s = .next t) : runInputs (inp :: rest) s = runInputs rest t := by
  simp only [runInputs, h]

/-- The first operation of a requester in the list is the one taken out of it. -/
theorem takeJob_append (hjs : js.any (fun j => j.who == who) = false) (hj : j.who = who) :
    takeJob who (js ++ j :: ks) = some (j, js ++ ks) := by
  induction js with
  | nil => simp [takeJob, hj]
  | cons k js ih =>
    simp only [List.any_cons, Bool.or_eq_false_iff, beq_eq_false_iff_ne] at hjs
    simp [takeJob, hjs.1, ih hjs.2]

section
variable (hjs : js.any (fun j => j.who == who) = false) (hwho : j.who = who)
include hjs hwho

/-- A grain whose step goes on, with steps left: the operation goes to the end of the list. -/
theorem runInputs_grain_park {m' : Micro} (htodo : j.todo = m :: m' :: ms)
    (hm : micro m j (withInflight (js ++ ks) s) = .go j' (withInflight (js ++ ks) s')) :
    runInputs (.grain who :: rest) (withInflight (js ++ j :: ks) s) =
      runInputs rest (withInflight (js ++ (ks ++ [{ j' with todo := m' :: ms }])) s') := by
  have htake := takeJob_append (ks := ks) hjs hwho
  rw [← List.append_assoc]
  exact runInputs_cons (by
    simp only [takeInput, grain, withInflight, htake, grainJob, htodo] at hm ⊢
    simp only [hm, reduceCtorEq, if_false, park])

/-- A grain whose step is the last one: the operation returns. -/
theorem runInputs_grain_finish (htodo : j.todo = [m])
    (hm : micro m j (withInflight (js ++ ks) s) = .go j' (withInflight (js ++ ks) s')) :
    runInputs (.grain who :: rest) (withInflight (js ++ j :: ks) s) =
      runInputs rest (withInflight (js ++ ks) (finish j' s')) := by
  have htake := takeJob_append (ks := ks) hjs hwho
  exact runInputs_cons (by
    simp only [takeInput, grain, withInflight, htake, grainJob, htodo] at hm ⊢
    simp only [hm, if_true, finish])

end

/-- Two commands started one after the other. -/
theorem runInputs_start_start {a b : Nat} {i k : Instr} (hi : i.encodable = true) (hk : k.encodable = true) (hne : a ≠ b)
    (ha : requesterExists a s = true) (hb : requesterExists b s = true) (hba : busy a s = false)
    (hbb : busy b s = false) :
    runInputs (.start a (encode i).1 (encode i).2 :: .start b (encode k).1 (encode k).2 :: rest) s =
      runInputs rest (withInflight (s.inflight ++ [Job.fresh a i (codeOf i), Job.fresh b k (codeOf k)])
        { s with cur := b }) := by
  have hstart := takeInput_start (fetch_ok ha (decode_encode hi)) hba
  rw [runInputs_cons hstart]
  have hbusy : busy b (park (Job.fresh a i (codeOf i)) (codeOf i) { s with cur := a }) = false := by
    rw [busy] at hbb
    simp [busy, hbb, Job.fresh, hne]
  have hexists : requesterExists b (park (Job.fresh a i (codeOf i)) (codeOf i) { s with cur := a }) = true := hb
  rw [runInputs_cons (takeInput_start (fetch_ok hexists (decode_encode hk)) hbusy)]
  simp only [park, List.append_assoc]
  rfl

/-- A command issued by an idle requester. -/
theorem runInputs_issue {a : Nat} {i : Instr} (hi : i.encodable = true) (ha : requesterExists a s = true)
    (hrun : exec i { s with cur := a } = .next t) :
    runInputs (.issue a (encode i).1 (encode i).2 :: rest) s = runInputs rest t :=
  runInputs_cons ((takeInput_issue (fetch_ok ha (decode_encode hi))).trans hrun)

end

/-- A direction operation whoever holds the locks. -/
theorem execCode_direction_finish {s : State} {l : Line} {d : Dir} {i : Instr} (hidle : busy s.cur s = false)
    (hl : LineReady s l) :
    ∃ j, execCode i [.oeRead (.line l), .oeWrite (.line l) d] s = .next (finish j (directionSet l d s)) :=
  ⟨_, calc execCode i [.oeRead (.line l), .oeWrite (.line l) d] s
    _ = runCode [.oeRead (.line l), .oeWrite (.line l) d] (Job.fresh s.cur i _) s := execCode_ready hidle
    _ = runCode [] _ (directionSet l d s) := runCode_direction d hl
    _ = .next (finish _ (directionSet l d s)) := runCode_nil _ _⟩

/-- A direction operation after its read of `OE` and before its write (40_gpio.md R122). -/
def oeWordRead (l : Line) (d : Dir) (s : State) (j : Job) : Job :=
  { j with todo := [.oeWrite (.line l) d], oeWord := s.oe[l.bank] }

/-- The state after a direction operation has stored the word it read, its line's bit changed (R122). -/
def oeWordWritten (l : Line) (d : Dir) (j : Job) (s : State) : State :=
  finish j (emit (.gpioDir l d) { s with oe := s.oe.set l.bank (withDir j.oeWord l d) })

section
variable {s : State} {j : Job} {js ks : List Job} {who : Nat} {rest : List Input} {l : Line} {d : Dir} {v : Bool}
  (hjs : js.any (fun j => j.who == who) = false) (hwho : j.who = who) (hl : LineReady s l)
include hjs hwho hl

theorem runInputs_grain_oeRead (htodo : j.todo = [.oeRead (.line l), .oeWrite (.line l) d]) :
    runInputs (.grain who :: rest) (withInflight (js ++ j :: ks) s) =
      runInputs rest (withInflight (js ++ (ks ++ [oeWordRead l d s j])) s) :=
  runInputs_grain_park hjs hwho htodo (stepOeRead_ready (lineOf_line hl.1) hl.2)

theorem runInputs_grain_oeWrite (htodo : j.todo = [.oeWrite (.line l) d]) :
    runInputs (.grain who :: rest) (withInflight (js ++ j :: ks) s) =
      runInputs rest (withInflight (js ++ ks) (oeWordWritten l d j s)) :=
  runInputs_grain_finish (s' := emit _ _) hjs hwho htodo
    (stepOeWrite_ready (s := withInflight (js ++ ks) s) (lineOf_line hl.1) hl.2 d)

theorem runInputs_grain_level (htodo : j.todo = [.level (.line l) v]) :
    runInputs (.grain who :: rest) (withInflight (js ++ j :: ks) s) =
      runInputs rest (withInflight (js ++ ks) (finish j (levelDriven l v s))) :=
  runInputs_grain_finish hjs hwho htodo
    (stepLevel_line (s := withInflight (js ++ ks) s) hl.1 hl.2 v)

end

section
variable {s : State} {a b : Nat} {l m : Line} {j k : Job} {js : List Job} {d : Dir}

/-- The second operation of the list is the first of its requester. -/
theorem any_append_other {w : Nat} (hjs : js.any (fun j => j.who == w) = false) (hj : j.who ≠ w) :
    (js ++ [j]).any (fun j => j.who == w) = false := by
  simp [List.any_append, hjs, hj]

/-- Both reads of `OE` before both writes: the second write stores the bank's word as it was before the first (vector
GP21). -/
theorem runInputs_direction_race (ha : js.any (fun j => j.who == a) = false) (hb : js.any (fun j => j.who == b) = false)
    (hj : j.who = a) (hk : k.who = b) (hl : LineReady s l) (hm : LineReady s m)
    (hjt : j.todo = [.oeRead (.line l), .oeWrite (.line l) d]) (hkt : k.todo = [.oeRead (.line m), .oeWrite (.line m) d]) :
    runInputs [.grain a, .grain b, .grain a, .grain b] (withInflight (js ++ [j, k]) s) =
      .next (withInflight js (oeWordWritten m d (oeWordRead m d s k) (oeWordWritten l d (oeWordRead l d s j) s))) :=
  calc runInputs [.grain a, .grain b, .grain a, .grain b] (withInflight (js ++ [j, k]) s)
    _ = runInputs [.grain b, .grain a, .grain b] (withInflight (js ++ [k, oeWordRead l d s j]) s) :=
      runInputs_grain_oeRead ha hj hl hjt
    _ = runInputs [.grain a, .grain b] (withInflight (js ++ [oeWordRead l d s j, oeWordRead m d s k]) s) :=
      runInputs_grain_oeRead hb hk hm hkt
    _ = runInputs [.grain b]
          (withInflight (js ++ [oeWordRead m d s k]) (oeWordWritten l d (oeWordRead l d s j) s)) :=
      runInputs_grain_oeWrite ha hj hl rfl
    _ = runInputs [] (withInflight (js ++ []) _) := runInputs_grain_oeWrite (ks := []) hb hk hm rfl
    _ = _ := by rw [List.append_nil]; rfl

/-- Two level operations, the first of the list first. -/
theorem runInputs_level_level {v : Bool} (ha : js.any (fun j => j.who == a) = false)
    (hb : js.any (fun j => j.who == b) = false) (hj : j.who = a) (hk : k.who = b) (hl : LineReady s l)
    (hm : LineReady s m) (hjt : j.todo = [.level (.line l) v]) (hkt : k.todo = [.level (.line m) v]) :
    runInputs [.grain a, .grain b] (withInflight (js ++ [j, k]) s) =
      .next (withInflight js (finish k (levelDriven m v (finish j (levelDriven l v s))))) :=
  calc runInputs [.grain a, .grain b] (withInflight (js ++ [j, k]) s)
    _ = runInputs [.grain b] (withInflight (js ++ [k]) (finish j (levelDriven l v s))) :=
      runInputs_grain_level ha hj hl hjt
    _ = runInputs [] (withInflight (js ++ []) _) := runInputs_grain_level (ks := []) hb hk hm hkt
    _ = _ := by rw [List.append_nil]; rfl

/-- Two level operations, the second of the list first. -/
theorem runInputs_level_level_reversed {v : Bool} (hne : a ≠ b) (ha : js.any (fun j => j.who == a) = false)
    (hb : js.any (fun j => j.who == b) = false) (hj : j.who = a) (hk : k.who = b) (hl : LineReady s l)
    (hm : LineReady s m) (hjt : j.todo = [.level (.line l) v]) (hkt : k.todo = [.level (.line m) v]) :
    runInputs [.grain b, .grain a] (withInflight (js ++ [j, k]) s) =
      .next (withInflight js (finish j (levelDriven l v (finish k (levelDriven m v s))))) :=
  calc runInputs [.grain b, .grain a] (withInflight (js ++ [j, k]) s)
    _ = runInputs [.grain b, .grain a] (withInflight ((js ++ [j]) ++ k :: []) s) := by simp
    _ = runInputs [.grain a] (withInflight ((js ++ [j]) ++ []) (finish k (levelDriven m v s))) :=
      runInputs_grain_level (any_append_other hb (by rwa [hj])) hk hm hkt
    _ = runInputs [.grain a] (withInflight (js ++ j :: []) (finish k (levelDriven m v s))) := by rw [List.append_nil]
    _ = runInputs [] (withInflight (js ++ []) _) := runInputs_grain_level (ks := []) ha hj hl hjt
    _ = _ := by rw [List.append_nil]; rfl

end

/-- Settles O21: the interleaving of vector GP21, and the same two operations one after the other. -/
theorem outputEnableRace : Obligations.OutputEnableRace := by
  unfold Obligations.OutputEnableRace
  intro s a b l m hbank hne hea heb hba hbb hl hm
  refine ⟨?race, ?serialized⟩
  case race =>
    rw [runInputs_start_start rfl rfl hne hea heb hba hbb]
    refine ⟨_, runInputs_direction_race (d := .out) hba hbb rfl rfl hl hm rfl rfl, ?_⟩
    simp [withInflight, oeWordWritten, oeWordRead, withDir]
  case serialized =>
    obtain ⟨j, hj⟩ := execCode_direction_finish (s := { s with cur := a }) (d := .out) (i := .gpioSetOutput l) hba hl
    obtain ⟨k, hk⟩ := execCode_direction_finish (s := { finish j (directionSet l .out { s with cur := a }) with cur := b })
      (d := .out) (i := .gpioSetOutput m) hbb hm
    rw [runInputs_issue (i := .gpioSetOutput l) rfl hea hj,
      runInputs_issue (i := .gpioSetOutput m) (s := finish j (directionSet l .out { s with cur := a })) rfl heb hk]
    refine ⟨_, rfl, ?_⟩
    simp [directionSet, withDir, hbank]

/-- Settles O22: each of the two level operations is one access, in either order. -/
theorem levelWritesNeverRace : Obligations.LevelWritesNeverRace := by
  unfold Obligations.LevelWritesNeverRace
  intro s a b l m hbank hne hea heb hba hbb hl hm
  refine ⟨?inOrder, ?reversed⟩
  all_goals rw [runInputs_start_start rfl rfl hne hea heb hba hbb]
  case inOrder =>
    refine ⟨_, runInputs_level_level hba hbb rfl rfl hl hm rfl rfl, ?_⟩
    simp [withInflight, levelDriven, setLatch, hbank]
  case reversed =>
    have hswap : s.dataOut[m.bank] ||| mask l ||| mask m = s.dataOut[m.bank] ||| mask m ||| mask l := by ac_rfl
    rw [hswap]
    refine ⟨_, runInputs_level_level_reversed hne hba hbb rfl rfl hl hm rfl rfl, ?_⟩
    simp [withInflight, levelDriven, setLatch, hbank]

end Sys2Proof.Machine
end

section
/-! The start of an operation that takes a lock (20_memory.md R73): the role lines and operands are looked at, then the lock is
taken, and what is left is the body of the operation. -/

namespace Sys2Proof.Machine

/-! ## Step lists up to the lock -/

/-- The steps that look at an operation's operands before it takes its lock (assumption 17). -/
def operandChecks : Instr → List Micro
  | .serialOpen _ mode word speed => [.requireProfile ⟨mode, word, speed⟩]
  | .serialTransfer len tx => [.requireLen len tx.length]
  | .serialTransferSecondary len tx => [.requireLen len tx.length]
  | .addrWrite _ len data => [.requireLen len data.length]
  | .regRead _ _ _ len => [.requireLen len len.toNat]
  | .regWrite _ _ _ len data => [.requireLen len data.length]
  | _ => []

/-- The steps of an operation after it has taken its first lock. -/
def bodyOf (i : Instr) : List Micro := (codeOf i).drop ((operandChecks i).length + 2)

theorem codeOf_serial {i : Instr} (h : firstLock i = .serial) :
    codeOf i = .requireRoles (neededRoles i) :: (operandChecks i ++ .takeSerial :: bodyOf i) := by
  cases i <;> cases h <;> rfl

theorem codeOf_twowire {i : Instr} (h : firstLock i = .twowire) :
    codeOf i = .requireRoles (neededRoles i) :: (operandChecks i ++ .takeTwowire :: bodyOf i) := by
  cases i
  case regSelect loc p e => cases p <;> rfl
  all_goals cases h <;> rfl

/-- The operands of an operation pass its checks. -/
def ChecksPass (i : Instr) (s : State) : Prop := ∀ m ∈ operandChecks i, ∀ j, micro m j s = .go j s

section
variable {s : State} {i : Instr} {j : Job} {ms rest : List Micro}

theorem ChecksPass.of_nil (h : operandChecks i = []) : ChecksPass i s := by
  simp [ChecksPass, h]

/-- The length contract (U6). -/
theorem ChecksPass.of_len {len : BitVec 16} {n : Nat} (h : operandChecks i = [.requireLen len n]) (hlen : len ≠ 0)
    (hn : n = len.toNat) (hmax : len.toNat ≤ s.board.data.maxLen) : ChecksPass i s := by
  have hok : lengthOk s.board.data.maxLen len n = true := lengthOk_iff.2 ⟨hlen, hn, hmax⟩
  simp [ChecksPass, h, micro, demand, hok]

/-- The ranges of a profile (U4). -/
theorem ChecksPass.of_profile {p : Profile} (h : operandChecks i = [.requireProfile p]) (hword : p.word ≠ 0)
    (hspeed : p.speed ≠ 0) : ChecksPass i s := by
  have hok : profileOk p = true := by simpa [profileOk] using And.intro hword hspeed
  simp [ChecksPass, h, micro, demand, hok]

theorem ChecksPass.of_wellFormed (hwf : i.wellFormed = true) (hfit : fitsBoard s.board i = true) : ChecksPass i s := by
  obtain ⟨he, hc⟩ : i.encodable = true ∧ i.inContract = true := by simpa [Instr.wellFormed] using hwf
  cases i with
  | serialOpen path mode word speed =>
    simp only [Instr.inContract, Bool.and_eq_true, bne_iff_ne] at hc
    exact .of_profile rfl hc.1 hc.2
  | serialTransfer len tx =>
    exact .of_len rfl (bne_iff_ne.1 hc) (Laws.RoundTrip.length_of_lenMatches he) (Nat.le_of_ble_eq_true hfit)
  | serialTransferSecondary len tx =>
    exact .of_len rfl (bne_iff_ne.1 hc) (Laws.RoundTrip.length_of_lenMatches he) (Nat.le_of_ble_eq_true hfit)
  | addrWrite a len data =>
    exact .of_len rfl (bne_iff_ne.1 hc) (Laws.RoundTrip.length_of_lenMatches he) (Nat.le_of_ble_eq_true hfit)
  | regRead t n reg len => exact .of_len rfl (bne_iff_ne.1 hc) rfl (Nat.le_of_ble_eq_true hfit)
  | regWrite t n reg len data =>
    exact .of_len rfl (bne_iff_ne.1 hc) (Laws.RoundTrip.length_of_lenMatches he) (Nat.le_of_ble_eq_true hfit)
  | _ => exact .of_nil rfl

/-- Steps that go on and change nothing are passed. -/
theorem runCode_pass (h : ∀ m ∈ ms, ∀ j, micro m j s = .go j s) : runCode (ms ++ rest) j s = runCode rest j s := by
  induction ms with
  | nil => rfl
  | cons m ms ih => exact (runCode_go (h m (by simp) j)).trans (ih fun m hm => h m (by simp [hm]))

/-- A requester with nothing in flight comes as far as the operand checks. -/
theorem exec_checks {ms : List Micro} (hidle : busy s.cur s = false) (hr : RolesResolved s i)
    (hcode : codeOf i = .requireRoles (neededRoles i) :: ms) :
    exec i s = runCode ms (Job.fresh s.cur i (codeOf i)) s := by
  calc exec i s
    _ = runCode (codeOf i) (Job.fresh s.cur i (codeOf i)) s := by rw [exec_eq_execCode, execCode_ready hidle]
    _ = runCode (.requireRoles (neededRoles i) :: ms) (Job.fresh s.cur i (codeOf i)) s :=
      congrArg (fun code => runCode code (Job.fresh s.cur i (codeOf i)) s) hcode
    _ = _ := runCode_requireRoles (rolesResolved_iff.2 hr)

/-- With its operands in order it comes as far as its lock. -/
theorem exec_serial_lock (hidle : busy s.cur s = false) (hr : RolesResolved s i) (hc : ChecksPass i s)
    (hl : firstLock i = .serial) :
    exec i s = runCode (.takeSerial :: bodyOf i) (Job.fresh s.cur i (codeOf i)) s := by
  rw [exec_checks hidle hr (codeOf_serial hl), runCode_pass hc]

theorem exec_twowire_lock (hidle : busy s.cur s = false) (hr : RolesResolved s i) (hc : ChecksPass i s)
    (hl : firstLock i = .twowire) :
    exec i s = runCode (.takeTwowire :: bodyOf i) (Job.fresh s.cur i (codeOf i)) s := by
  rw [exec_checks hidle hr (codeOf_twowire hl), runCode_pass hc]

/-- With the lock free it comes to its body. -/
theorem exec_serial_body (hs : SerialReady s) (hr : RolesResolved s i) (hc : ChecksPass i s)
    (hl : firstLock i = .serial) :
    exec i s = runCode (bodyOf i) (Job.fresh s.cur i (codeOf i)) { s with lockSerial := some s.cur } := by
  obtain ⟨hidle, hser, -⟩ := hs
  rw [exec_serial_lock hidle hr hc hl, runCode_takeSerial hser]
  rfl

theorem exec_twowire_body (hs : TwowireReady s) (hr : RolesResolved s i) (hc : ChecksPass i s)
    (hl : firstLock i = .twowire) :
    exec i s = runCode (bodyOf i) (Job.fresh s.cur i (codeOf i)) { s with lockTwowire := some s.cur } := by
  obtain ⟨hidle, htwo, -⟩ := hs
  rw [exec_twowire_lock hidle hr hc hl, runCode_takeTwowire htwo]
  rfl

end

/-! ## From the body to the return -/

/-- A step list run from `s` comes to its end in `t` with the result `r`. -/
def Returns (code : List Micro) (j : Job) (s : State) (r : Result) (t : State) : Prop :=
  ∃ k : Job, runCode code j s = .next (finish k t) ∧ k.who = j.who ∧ k.result = r

section
variable {m : Micro} {ms : List Micro} {j j' : Job} {s s' t : State} {r : Result} {i : Instr}

theorem Returns.nil (h : j.result = r) : Returns [] j s r s := ⟨j, rfl, rfl, h⟩

theorem Returns.go (hm : micro m j s = .go j' s') (hwho : j'.who = j.who) (h : Returns ms j' s' r t) :
    Returns (m :: ms) j s r t := by
  obtain ⟨k, hrun, hk, hr⟩ := h
  exact ⟨k, (runCode_go hm).trans hrun, hk.trans hwho, hr⟩

theorem Returns.stop (hm : micro m j s = .stop j' t) (hwho : j'.who = j.who) (hr : j'.result = r) :
    Returns (m :: ms) j s r t :=
  ⟨j', runCode_stop hm, hwho, hr⟩

/-- The requester and the locks are as they were. -/
def SameRequester (s t : State) : Prop :=
  t.cur = s.cur ∧ t.lockSerial = s.lockSerial ∧ t.lockTwowire = s.lockTwowire

/-- An operation under `lock.serial`, the lock taken where it was free and freed at the return. -/
theorem exec_serial_returns (hs : SerialReady s) (hr : RolesResolved s i) (hc : ChecksPass i s)
    (hl : firstLock i = .serial) (hkeep : SameRequester s t)
    (h : Returns (bodyOf i) (Job.fresh s.cur i (codeOf i)) { s with lockSerial := some s.cur } r
      { t with lockSerial := some s.cur }) : exec i s = .next (answered r t) := by
  obtain ⟨k, hrun, hk, hres⟩ := h
  obtain ⟨hcur, hser, htwo⟩ := hkeep
  have hwho : k.who = s.cur := hk
  rw [exec_serial_body hs hr hc hl, hrun, ← hwho]
  exact congrArg _ (finish_serial (by rw [hwho, hcur]) hres (hser.trans hs.2.1) (by rw [htwo, hcur]; exact hs.2.2))

/-- An operation under `lock.twowire`. -/
theorem exec_twowire_returns (hs : TwowireReady s) (hr : RolesResolved s i) (hc : ChecksPass i s)
    (hl : firstLock i = .twowire) (hkeep : SameRequester s t)
    (h : Returns (bodyOf i) (Job.fresh s.cur i (codeOf i)) { s with lockTwowire := some s.cur } r
      { t with lockTwowire := some s.cur }) : exec i s = .next (answered r t) := by
  obtain ⟨k, hrun, hk, hres⟩ := h
  obtain ⟨hcur, hser, htwo⟩ := hkeep
  have hwho : k.who = s.cur := hk
  rw [exec_twowire_body hs hr hc hl, hrun, ← hwho]
  exact congrArg _ (finish_twowire (by rw [hwho, hcur]) hres (htwo.trans hs.2.1) (by rw [hser, hcur]; exact hs.2.2))

end

/-! ## Waiting -/

/-- Settles O53: the operation comes as far as its lock, which another holds. -/
theorem waitsForHeldLock : Obligations.WaitsForHeldLock := by
  unfold Obligations.WaitsForHeldLock
  intro i s holder hidle hne hwf hfit hroles hheld
  have hc : ChecksPass i s := .of_wellFormed hwf hfit
  obtain ⟨hl, hlock⟩ | ⟨hl, hlock⟩ := hheld
  · have hwait : micro .takeSerial (Job.fresh s.cur i (codeOf i)) s = .wait := by
      simp [micro, stepTakeSerial, hlock, Job.fresh, hne]
    rw [exec_serial_lock hidle hroles hc hl, runCode_wait hwait]
    exact ⟨_, rfl, rfl, rfl, List.cons_ne_nil _ _, rfl⟩
  · have hwait : micro .takeTwowire (Job.fresh s.cur i (codeOf i)) s = .wait := by
      simp [micro, stepTakeTwowire, hlock, Job.fresh, hne]
    rw [exec_twowire_lock hidle hroles hc hl, runCode_wait hwait]
    exact ⟨_, rfl, rfl, rfl, List.cons_ne_nil _ _, rfl⟩

end Sys2Proof.Machine
end

section
/-! The SPI unit (41_serial_bus.md) and the ADDR unit (42_addressing.md): what each operation answers and leaves where its lock
is free. -/

namespace Sys2Proof.Machine

theorem rolesNeeded_serial {s : State} {i : Instr} (hu : SerialUnit s) (hi : neededRoles i = [.ds]) :
    RolesResolved s i := by
  rw [RolesResolved, hi]
  exact rolesResolved_iff.1 (rolesResolved_serial hu)

theorem rolesNeeded_addressing {s : State} {i : Instr} (hu : AddressingUnit s) (hi : neededRoles i = [.ds, .cs]) :
    RolesResolved s i := by
  rw [RolesResolved, hi]
  exact rolesResolved_iff.1 (rolesResolved_addressing hu)

/-! ## The SPI unit -/

/-- The state after one exchange under the active profile (41_serial_bus.md R143). -/
def exchanged (tx : List Byte) (s : State) : State :=
  { s with
    env := (s.env.askExchange tx.length).2
    trace := s.trace ++ [.spiExchange s.spiActive tx (s.env.askExchange tx.length).1] }

/-- What a transfer answers (41_serial_bus.md R143, R146). -/
def exchangeResult : Option (List Byte) → Result
  | none => .error .transferFailed
  | some rx => .ok (.bytes rx)

section
variable {s : State} {j : Job} {path : List Byte} {p : Profile} {tx : List Byte} {ms : List Micro} {r : Result} {t : State}

theorem micro_openBus_granted (hclosed : s.spiOpen = false) (hgrant : s.env.askSpiOpen.1 = true) :
    micro (.openBus path p) j s = .go { j with result := .ok .busHandle } { s with
      env := s.env.askSpiOpen.2, spiOpen := true, spiPrimary := p, spiActive := p
      trace := s.trace ++ [.spiOpen, .spiProfile p] } := by
  simp [micro, stepOpenBus, openSerial, hclosed, hgrant, emit]

theorem micro_openBus_failed (hclosed : s.spiOpen = false) (hfail : s.env.askSpiOpen.1 = false) :
    micro (.openBus path p) j s =
      .go { j with result := .error (.deviceOpenFailed (.path path)) } { s with env := s.env.askSpiOpen.2 } := by
  simp [micro, stepOpenBus, openSerial, hclosed, hfail]

theorem micro_requireOpen (ho : s.spiOpen = true) : micro .requireOpen j s = .go j s := by
  simp only [micro, demand, ho, if_true]

theorem micro_checkRx_none {e : Error} (h : j.rx = none) :
    micro (.checkRx e) j s = .stop { j with result := .error e } s := by
  simp only [micro, stepCheckRx, h, raise]

theorem micro_checkRx_some {e : Error} {rx : List Byte} (h : j.rx = some rx) : micro (.checkRx e) j s = .go j s := by
  simp only [micro, stepCheckRx, h]

theorem micro_returnRx {rx : List Byte} (h : j.rx = some rx) :
    micro .returnRx j s = .go { j with result := .ok (.bytes rx) } s := by
  simp only [micro, stepReturnRx, h, Option.getD_some]

/-- One exchange, its failure or its bytes returned (R143). -/
theorem returns_transfer (ho : s.spiOpen = true) :
    Returns [.requireOpen, .exchange (.bytes tx), .checkRx .transferFailed, .returnRx] j s
      (exchangeResult (s.env.askExchange tx.length).1) (exchanged tx s) := by
  refine .go (micro_requireOpen ho) rfl (.go (j' := { j with rx := (s.env.askExchange tx.length).1 })
    (s' := exchanged tx s) rfl rfl ?_)
  cases hx : (s.env.askExchange tx.length).1 with
  | none => exact .stop (micro_checkRx_none rfl) rfl rfl
  | some rx => exact .go (micro_checkRx_some rfl) rfl (.go (micro_returnRx rfl) rfl (.nil rfl))

/-- A transfer under the secondary profile, its failure or its bytes returned (R146). -/
theorem returns_transferSecondary (ho : s.spiOpen = true) (hr : RoleReady s .ds) :
    Returns (secondarySteps (.exchange (.bytes tx)) ++ [.returnRx]) j s
      (exchangeResult (s.env.askExchange tx.length).1) (strobed tx s) := by
  have hrun := runCode_secondary (j := j) (rest := [.returnRx]) tx ho hr
  cases hx : (s.env.askExchange tx.length).1 with
  | none =>
    simp only [hx] at hrun
    exact ⟨_, hrun, rfl, rfl⟩
  | some rx =>
    simp only [hx] at hrun
    exact ⟨_, hrun.trans ((runCode_go (micro_returnRx rfl)).trans (runCode_nil _ _)), rfl, rfl⟩

end

/-- Settles O23: the one step of its body, granted or not. -/
theorem openEffect : Obligations.OpenEffect := by
  unfold Obligations.OpenEffect
  intro s path mode word speed hs hu hclosed hword hspeed
  have hchecks : ChecksPass (.serialOpen path mode word speed) s := .of_profile rfl hword hspeed
  have hexec {r : Result} {t : State} := exec_serial_returns (r := r) (t := t) hs (rolesNeeded_serial hu rfl) hchecks rfl
  exact ⟨fun hgrant => hexec ⟨rfl, rfl, rfl⟩ (.go (micro_openBus_granted hclosed hgrant) rfl (.nil rfl)),
    fun hfail => hexec ⟨rfl, rfl, rfl⟩ (.go (micro_openBus_failed hclosed hfail) rfl (.nil rfl))⟩

/-- Settles O24: one exchange, and its answer returned. -/
theorem transferEffect : Obligations.TransferEffect := by
  unfold Obligations.TransferEffect
  intro s len tx hs hu ho hlen htx hmax r t
  have hexec : exec (.serialTransfer len tx) s = .next (answered (exchangeResult r.1) t) :=
    exec_serial_returns hs (rolesNeeded_serial hu rfl) (.of_len rfl hlen htx hmax) rfl ⟨rfl, rfl, rfl⟩
      (returns_transfer ho)
  exact ⟨fun hx => by rw [hexec, hx]; rfl, fun rx hx => ⟨by rw [hexec, hx]; rfl, htx ▸ askExchange_length hx⟩⟩

/-- A transfer under the secondary profile, whatever the exchange answers. -/
theorem exec_serialTransferSecondary {s : State} {len : BitVec 16} {tx : List Byte} (hs : SerialReady s)
    (ho : s.spiOpen = true) (hr : RoleReady s .ds) (hlen : len ≠ 0) (htx : tx.length = len.toNat)
    (hmax : len.toNat ≤ s.board.data.maxLen) :
    exec (.serialTransferSecondary len tx) s =
      .next (answered (exchangeResult (s.env.askExchange tx.length).1) (strobed tx s)) :=
  exec_serial_returns hs (rolesNeeded_serial hr rfl) (.of_len rfl hlen htx hmax) rfl ⟨rfl, rfl, rfl⟩
    (returns_transferSecondary ho hr)

/-- Settles O25: the two answers of the exchange. -/
theorem transferSecondaryEffect : Obligations.TransferSecondaryEffect := by
  unfold Obligations.TransferSecondaryEffect
  intro s len tx hs ho hr hlen htx hmax r t
  have hexec := exec_serialTransferSecondary hs ho hr hlen htx hmax
  exact ⟨fun hx => by rw [hexec, hx]; rfl, fun rx hx => by rw [hexec, hx]; rfl⟩

/-- Inside a secondary-profile section the mode is 3 and words have 8 bits (R147). -/
theorem sectionProfile_mode_word (s : State) : (sectionProfile s).mode = 3 ∧ (sectionProfile s).word = 8 := by
  unfold sectionProfile
  split
  next => exact ⟨rfl, rfl⟩
  next h => simpa [differsFromSecondary, Config.secMode, Config.secWord] using h

/-- A section's events are those of its body with profile switches around them (R146). -/
theorem sectionEvents_profiles (s : State) (body : List Event) :
    ∃ pre post : List Profile, sectionEvents s body = pre.map Event.spiProfile ++ (body ++ post.map Event.spiProfile) := by
  unfold sectionEvents
  split
  · exact ⟨[s.board.secondary], [s.spiActive], by simp⟩
  · exact ⟨[], [], by simp⟩

/-- Settles O28: the events of the strobed exchange, and its latches. -/
theorem strobeBracketing : Obligations.StrobeBracketing := by
  unfold Obligations.StrobeBracketing
  intro s len tx hs ho hr hlen htx hmax
  obtain ⟨pre, post, hevents⟩ := sectionEvents_profiles s
    [.gpioLevel (s.board.roleLine .ds) false, .spiExchange (sectionProfile s) tx (s.env.askExchange tx.length).1,
      .gpioLevel (s.board.roleLine .ds) true]
  obtain ⟨hmode, hword⟩ := sectionProfile_mode_word s
  exact ⟨_, pre, post, sectionProfile s, (s.env.askExchange tx.length).1,
    exec_serialTransferSecondary hs ho hr hlen htx hmax, congrArg (s.trace ++ ·) hevents, hmode, hword,
    setLatch_same _ _ _⟩

/-- Settles O26: the one step of its body on an open bus. -/
theorem closeEffect : Obligations.CloseEffect := by
  unfold Obligations.CloseEffect
  intro s hs hu ho
  exact ⟨_, _, _, exec_serial_returns hs (rolesNeeded_serial hu rfl) (.of_nil rfl) rfl ⟨rfl, rfl, rfl⟩
    (.go (micro_requireOpen ho) rfl (.go (m := .closeBus) rfl rfl (.nil rfl)))⟩

/-! ## The ADDR unit: frames -/

/-- What an operation answers that sends one frame (42_addressing.md R161). -/
def frameResult (s : State) : Result := if (s.env.askExchange 1).1.isSome then .ok .unit else .error .transferFailed

/-- One frame sent as the last part of an operation that returns no value. -/
theorem returns_frame {s : State} {j : Job} {a : BitVec 4} (op : BitVec 3) (ho : s.spiOpen = true) (hr : RoleReady s .ds)
    (hj : j.result = .ok .unit) : Returns (frameSteps (.imm a) op) j s (frameResult s) (frameSent a op s) := by
  have hrun := runCode_frame (j := j) (rest := []) (ref := .imm a) op rfl ho hr
  rw [List.append_nil] at hrun
  cases hx : (s.env.askExchange 1).1 with
  | none =>
    simp only [hx] at hrun
    exact ⟨_, hrun, rfl, by simp [frameResult, hx]⟩
  | some rx =>
    simp only [hx] at hrun
    exact ⟨_, hrun.trans (runCode_nil _ _), rfl, by simpa [frameResult, hx] using hj⟩

/-- The frame operations are 1, 2 and 3 (30_encoding.md R97). -/
theorem frameOperation_iff (op : BitVec 3) : frameOperation op = true ↔ 1 ≤ op.toNat ∧ op.toNat ≤ 3 := by
  revert op
  decide

theorem micro_checkFrameOp {op : BitVec 3} {j : Job} {s : State} (h : frameOperation op = true) :
    micro (.checkFrameOp op) j s = .go j s := by
  simp only [micro, stepCheckFrameOp, h, if_true]

theorem micro_checkFrameOp_reserved {op : BitVec 3} {j : Job} {s : State} (h : op = 0 ∨ 4 ≤ op.toNat) :
    micro (.checkFrameOp op) j s = .stop { j with result := .error (.contractViolation (.frameOperation op)) } s := by
  have hno : frameOperation op = false := by
    rw [← Bool.not_eq_true, frameOperation_iff]
    obtain rfl | h4 := h
    · decide
    · omega
  simp only [micro, stepCheckFrameOp, hno, Bool.false_eq_true, if_false, raise]

/-- Settles O29: the operation is checked first, and then sent as a frame. -/
theorem selectEffect : Obligations.SelectEffect := by
  unfold Obligations.SelectEffect
  intro s a op hs hu
  have hchecks : ChecksPass (.addrSelect a op) s := .of_nil rfl
  have hexec {r : Result} {t : State} :=
    exec_serial_returns (r := r) (t := t) hs (rolesNeeded_addressing hu rfl) hchecks rfl
  exact ⟨fun hop => hexec ⟨rfl, rfl, rfl⟩ (.stop (micro_checkFrameOp_reserved hop) rfl rfl),
    fun h1 h3 ho => hexec ⟨rfl, rfl, rfl⟩
      (.go (micro_checkFrameOp ((frameOperation_iff op).2 ⟨h1, h3⟩)) rfl (returns_frame op ho hu.1 rfl))⟩

/-- Settles O30: the body of each frame row is its frame. -/
theorem frameEffect : Obligations.FrameEffect := by
  unfold Obligations.FrameEffect
  rintro s a hs ⟨ho, hu⟩ r
  have hexec : ∀ (i : Instr) (op : BitVec 3), neededRoles i = [.ds, .cs] → operandChecks i = [] → firstLock i = .serial →
      bodyOf i = frameSteps (.imm a) op → exec i s = .next (answered (frameResult s) (frameSent a op s)) :=
    fun i op hn hc hl hbody => exec_serial_returns hs (rolesNeeded_addressing hu hn) (.of_nil hc) hl ⟨rfl, rfl, rfl⟩
      (hbody ▸ returns_frame op ho hu.1 rfl)
  exact ⟨hexec _ _ rfl rfl rfl rfl, hexec _ _ rfl rfl rfl rfl, hexec _ _ rfl rfl rfl rfl⟩

/-- Settles O33: the one step of its body stores the address. -/
theorem setExtensionEffect : Obligations.SetExtensionEffect := by
  unfold Obligations.SetExtensionEffect
  intro s a hs hu
  exact exec_serial_returns hs (rolesNeeded_addressing hu rfl) (.of_nil rfl) rfl ⟨rfl, rfl, rfl⟩
    (.go (m := .setExt a) rfl rfl (.nil rfl))

/-! ## The ADDR unit: module write and module read -/

section
variable {s : State} {j : Job} {a : BitVec 4} {data : List Byte}

/-- A module write and its count returned (42_addressing.md R163). -/
theorem returns_moduleWrite (hu : AddressingReady s) :
    Returns (writeSteps (.imm a) (.bytes data) ++ [.returnCount]) j s (countResult (moduleWrite a data s).1)
      (moduleWrite a data s).2 := by
  have hrun := runCode_write (s := s) (j := j) (rest := [.returnCount]) (ref := .imm a) (a := a) (p := .bytes data)
    (data := data) rfl rfl hu
  cases hr : (moduleWrite a data s).1 with
  | error e =>
    simp only [hr] at hrun
    obtain rfl | rfl := moduleWrite_error a data s hr
    all_goals exact ⟨_, hrun, rfl, rfl⟩
  | ok n =>
    simp only [hr] at hrun
    exact ⟨_, hrun.trans ((runCode_go (m := .returnCount) rfl).trans (runCode_nil _ _)), rfl, rfl⟩

/-- The steps of a module read after it has taken its lock (42_addressing.md R164). -/
theorem bodyOf_addrRead (a : BitVec 4) : bodyOf (.addrRead a) =
    frameSteps (.imm a) opReadReady ++ ([.level (.role .cs) false, .level (.role .cs) true] ++
      (frameSteps (.imm a) opReadExec ++ ([.enterSecondary, .level (.role .cs) false, .exchange .fill,
        .level (.role .cs) true, .leaveSecondary, .checkRx .readFailed] ++ [.returnByte]))) := rfl

/-- A module read ends at the first exchange that fails, or with the byte of the last (R164). -/
theorem returns_moduleRead (hu : AddressingReady s) :
    Returns (bodyOf (.addrRead a)) j s (moduleRead a s).1 (moduleRead a s).2 := by
  obtain ⟨ho, hds, hcs⟩ := hu
  rw [Returns, bodyOf_addrRead, runCode_frame opReadReady rfl ho hds]
  simp only [moduleRead]
  cases h1 : (s.env.askExchange 1).1 with
  | none => exact ⟨_, rfl, rfl, rfl⟩
  | some rx1 =>
    simp only
    rw [runCode_toggle (s := frameSent a opReadReady s) hcs,
      runCode_frame (s := toggled (frameSent a opReadReady s)) opReadExec rfl ho hds]
    have htoggled : (toggled (frameSent a opReadReady s)).env = (frameSent a opReadReady s).env := rfl
    rw [htoggled]
    cases h2 : ((frameSent a opReadReady s).env.askExchange 1).1 with
    | none => exact ⟨_, rfl, rfl, rfl⟩
    | some rx2 =>
      simp only
      rw [runCode_rawRead (s := frameSent a opReadExec (toggled (frameSent a opReadReady s))) hcs]
      cases h3 : ((frameSent a opReadExec (toggled (frameSent a opReadReady s))).env.askExchange 1).1 with
      | none => exact ⟨_, rfl, rfl, rfl⟩
      | some rx3 => exact ⟨_, (runCode_go (m := .returnByte) rfl).trans (runCode_nil _ _), rfl, rfl⟩

theorem moduleRead_lockSerial (x : Option Nat) :
    moduleRead a { s with lockSerial := x } =
      ((moduleRead a s).1, { (moduleRead a s).2 with lockSerial := x }) := by
  simp only [moduleRead]
  cases (s.env.askExchange 1).1 with
  | none => rfl
  | some rx1 =>
    simp only [frameSent, toggled]
    cases ((s.env.askExchange 1).2.askExchange 1).1 with
    | none => rfl
    | some rx2 => cases (((s.env.askExchange 1).2.askExchange 1).2.askExchange 1).1 <;> rfl

theorem moduleRead_sameRequester : SameRequester s (moduleRead a s).2 := by
  simp only [moduleRead]
  repeat' split
  all_goals exact ⟨rfl, rfl, rfl⟩

end

/-- Settles O31: the module write under its lock. -/
theorem writeToModuleEffect : Obligations.WriteToModuleEffect := by
  unfold Obligations.WriteToModuleEffect
  intro s a len data hs hu hlen hdata hmax
  have hbody := returns_moduleWrite (s := { s with lockSerial := some s.cur })
    (j := Job.fresh s.cur (.addrWrite a len data) (codeAddrWrite a len data)) (a := a) (data := data) hu
  rw [moduleWrite_lockSerial] at hbody
  exact exec_serial_returns hs (rolesNeeded_addressing hu.2 rfl) (.of_len rfl hlen hdata hmax) rfl (moduleWrite_keeps rfl)
    hbody

/-- Settles O32: the module read under its lock. -/
theorem readFromModuleEffect : Obligations.ReadFromModuleEffect := by
  unfold Obligations.ReadFromModuleEffect
  intro s a hs hu
  have hbody := returns_moduleRead (s := { s with lockSerial := some s.cur })
    (j := Job.fresh s.cur (.addrRead a) (codeAddrRead a)) (a := a) hu
  rw [moduleRead_lockSerial] at hbody
  exact exec_serial_returns hs (rolesNeeded_addressing hu.2 rfl) (.of_nil rfl) rfl moduleRead_sameRequester hbody

end Sys2Proof.Machine
end

section
/-! The I2C unit (43_register_bus.md): what each operation answers and leaves where its lock is free, and what is refused
outside the contract of files 41 to 43. -/

namespace Sys2Proof.Machine

theorem rolesNeeded_register {s : State} {i : Instr} (hr : RegisterUnit s) (hi : neededRoles i = [.mux0, .mux1]) :
    RolesResolved s i := by
  rw [RolesResolved, hi]
  exact rolesResolved_iff.1 (rolesResolved_register hr)

theorem rolesNeeded_select {s : State} {loc : BitVec 2} {e : BitVec 4} (hr : RegisterUnit s) (hu : AddressingUnit s) :
    RolesResolved s (.regSelect loc true e) :=
  rolesResolved_iff.1 (rolesResolved_select (p := true) hr fun _ => hu)

/-! ## Register access -/

section
variable {s : State} {j : Job} {a : BitVec 7} {n : Nat} {e : Error}

theorem micro_requireHandle (h : s.i2cHandle[a.toFin] = true) : micro (.requireHandle a) j s = .go j s := by
  simp only [micro, demand, h, if_true]

theorem micro_checkCount_low (h : j.count < (n : Int)) :
    micro (.checkCount n e) j s = .stop { j with result := .error e } s := by
  simp only [micro, stepCheckCount, h, if_true, raise]

theorem micro_checkCount_enough (h : ¬ j.count < (n : Int)) : micro (.checkCount n e) j s = .go j s := by
  simp only [micro, stepCheckCount, h, if_false]

/-- The state after one read on a handle (43_register_bus.md R184). -/
def busReceived (a : BitVec 7) (n : Nat) (s : State) : State :=
  let r := s.env.askI2cRead n
  { s with env := r.2, trace := s.trace ++ [.i2cRead a n r.1.1 r.1.2] }

/-- The state after one write on a handle (R184, R186). -/
def busSent (a : BitVec 7) (buf : List Byte) (s : State) : State :=
  let w := s.env.askI2cWrite buf.length
  { s with env := w.2, trace := s.trace ++ [.i2cWrite a buf w.1] }

/-- What a read of `n` bytes answers (R184). -/
def receivedResult (n : Nat) (r : Int × List Byte) : Result := if r.1 < (n : Int) then .error .readFailed else .ok (.bytes r.2)

/-- Fewer than `n` bytes are no result. -/
theorem returns_busRead : Returns [.busRead a n, .checkCount n .readFailed, .returnRx] j s
    (receivedResult n (s.env.askI2cRead n).1) (busReceived a n s) := by
  refine .go (j' := { j with count := (s.env.askI2cRead n).1.1, rx := some (s.env.askI2cRead n).1.2 })
    (s' := busReceived a n s) rfl rfl ?_
  by_cases h : (s.env.askI2cRead n).1.1 < (n : Int)
  · exact .stop (micro_checkCount_low h) rfl (by simp only [receivedResult, h, if_true])
  · exact .go (micro_checkCount_enough h) rfl
      (.go (micro_returnRx rfl) rfl (.nil (by simp only [receivedResult, h, if_false])))

/-- A write is complete when every byte issued was accepted (R186). -/
theorem returns_busWrite {buf : List Byte} (hj : j.result = .ok .unit) :
    Returns [.busWrite a buf, .checkCount buf.length .writeFailed] j s
      (if (s.env.askI2cWrite buf.length).1 < (buf.length : Int) then .error .writeFailed else .ok .unit)
      (busSent a buf s) := by
  refine .go (j' := { j with count := (s.env.askI2cWrite buf.length).1 }) (s' := busSent a buf s) rfl rfl ?_
  by_cases h : (s.env.askI2cWrite buf.length).1 < (buf.length : Int)
  · exact .stop (micro_checkCount_low h) rfl (by simp only [h, if_true])
  · exact .go (micro_checkCount_enough h) rfl (.nil (by simp only [h, if_false, hj]))

end

/-- Settles O40: the read alone, or the write of the register byte and then the read. -/
theorem regReadEffect : Obligations.RegReadEffect := by
  unfold Obligations.RegReadEffect
  intro s a reg len hs hr hhandle hlen hmax done
  have hchecks : ∀ noAddr, ChecksPass (.regRead a noAddr reg len) s := fun _ => .of_len rfl hlen rfl hmax
  have hexec (noAddr : Bool) {r : Result} {t : State} :=
    exec_twowire_returns (r := r) (t := t) hs (rolesNeeded_register hr rfl) (hchecks noAddr) rfl
  refine ⟨hexec true ⟨rfl, rfl, rfl⟩ (.go (micro_requireHandle hhandle) rfl returns_busRead), fun hw => ?_, fun hw => ?_⟩
  · exact hexec false (t := busSent a [reg] s) ⟨rfl, rfl, rfl⟩ (.go (micro_requireHandle hhandle) rfl
      (.go (m := .busWrite a [reg]) rfl rfl (.stop (micro_checkCount_low hw) rfl rfl)))
  · exact hexec false (t := busReceived a len.toNat (busSent a [reg] s)) ⟨rfl, rfl, rfl⟩
      (.go (micro_requireHandle hhandle) rfl (.go (m := .busWrite a [reg]) rfl rfl
        (.go (micro_checkCount_enough (not_lt.2 hw)) rfl returns_busRead)))

/-- Settles O41: one write and the check of its count. -/
theorem regWriteEffect : Obligations.RegWriteEffect := by
  unfold Obligations.RegWriteEffect
  intro s a noAddr reg len data hs hr hhandle hlen hdata hmax buf w
  have hchecks : ChecksPass (.regWrite a noAddr reg len data) s := .of_len rfl hlen hdata hmax
  exact exec_twowire_returns (t := busSent a buf s) hs (rolesNeeded_register hr rfl) hchecks rfl ⟨rfl, rfl, rfl⟩
    (.go (micro_requireHandle hhandle) rfl (returns_busWrite rfl))

section
variable {s t : State} {j : Job} {a : BitVec 7} {r : Result}

theorem micro_openHandle (h : openTarget a s = (r, t)) : micro (.openHandle a) j s = .go { j with result := r } t := by
  simp only [micro, stepOpenHandle, h]

theorem openTarget_open (h : s.i2cHandle[a.toFin] = true) : openTarget a s = (.ok (.targetHandle a), s) := by
  simp only [openTarget, h, if_true]

theorem openTarget_granted (h : s.i2cHandle[a.toFin] = false) (hgrant : s.env.askI2cOpen.1 = true) :
    openTarget a s = (.ok (.targetHandle a), { s with
      env := s.env.askI2cOpen.2, i2cHandle := s.i2cHandle.set a.toFin true, trace := s.trace ++ [.i2cOpen a] }) := by
  simp only [openTarget, h, hgrant, Bool.false_eq_true, if_false, if_true, emit]

theorem openTarget_failed (h : s.i2cHandle[a.toFin] = false) (hfail : s.env.askI2cOpen.1 = false) :
    openTarget a s = (.error (.deviceOpenFailed (.target a)), { s with env := s.env.askI2cOpen.2 }) := by
  simp only [openTarget, h, hfail, Bool.false_eq_true, if_false]

end

/-- Settles O36: the three answers of the one step of its body. -/
theorem openHandleEffect : Obligations.OpenHandleEffect := by
  unfold Obligations.OpenHandleEffect
  intro s a hs hr
  have hchecks : ChecksPass (.regOpenHandle a) s := .of_nil rfl
  have hexec {r : Result} {t : State} :=
    exec_twowire_returns (r := r) (t := t) hs (rolesNeeded_register hr rfl) hchecks rfl
  exact ⟨fun h => hexec ⟨rfl, rfl, rfl⟩ (.go (micro_openHandle (openTarget_open h)) rfl (.nil rfl)),
    fun h hgrant => hexec ⟨rfl, rfl, rfl⟩ (.go (micro_openHandle (openTarget_granted h hgrant)) rfl (.nil rfl)),
    fun h hfail => hexec ⟨rfl, rfl, rfl⟩ (.go (micro_openHandle (openTarget_failed h hfail)) rfl (.nil rfl))⟩

/-! ## The local selector -/

section
variable {s t : State} {j : Job} {ms : List Micro} {r : Role} {v : Bool} {loc : BitVec 2} {e : BitVec 4} {p : Bool}

theorem micro_checkExt_bad (h : parked e = true ∨ s.extAddr = none) :
    micro (.checkExt e) j s = .stop { j with result := .error (.contractViolation (.extensionCode e)) } s := by
  have hbad : (parked e || s.extAddr == none) = true := by simpa using h
  simp only [micro, stepCheckExt, hbad, if_true, raise]

theorem micro_checkExt_good (h : ¬ (parked e = true ∨ s.extAddr = none)) : micro (.checkExt e) j s = .go j s := by
  have hgood : (parked e || s.extAddr == none) = false := by
    rw [← Bool.not_eq_true]
    simpa using h
  simp only [micro, stepCheckExt, hgood, Bool.false_eq_true, if_false]

/-- The latch of a role line after a step list that may end anywhere but writes no other level to it. -/
theorem runCode_keeps_latch (hd : ∀ m ∈ ms, m.DrivesOnly none) (hv : ∀ m ∈ ms, m.latchAfter r v = v)
    (hs : latch s (s.board.roleLine r) = v) (h : runCode ms j s = .next t) : latch t (s.board.roleLine r) = v := by
  induction ms generalizing j s with
  | nil => cases h; exact hs
  | cons m ms ih =>
    obtain ⟨j1, s1, hgo, f, hrun⟩ | ⟨-, hlast⟩ := runCode_step h
    · obtain ⟨-, hboard, -⟩ := f.rest
      have hstep : latch s1 (s.board.roleLine r) = v := by
        rw [latch_step (hd m (by simp)) (by simp) hgo, hs, hv m (by simp)]
      rw [← hboard] at hstep ⊢
      exact ih (fun m hm => hd m (by simp [hm])) (fun m hm => hv m (by simp [hm])) hstep hrun
    · have hdata : t.dataOut = s.dataOut := by
        obtain ⟨j1, s1, ho, -, rfl⟩ | ⟨j1, s1, ho, -, rfl⟩ | ⟨-, rfl⟩ := hlast
        · exact dataOut_of_settle_end (s' := s1) (.inr ho)
        · exact dataOut_of_settle_end (s' := s1) (.inl ho)
        · rfl
      rwa [latch, hdata]

/-- The write of a role line's level, and then the rest of the list. -/
theorem runCode_level_role (h : runCode (.level (.role r) v :: ms) j s = .next t) :
    ∃ s' j', runCode ms j' s' = .next t ∧ s'.board = s.board ∧ latch s' (s.board.roleLine r) = v := by
  obtain ⟨j1, s1, hgo, f, hrun⟩ | ⟨hends, -⟩ := runCode_step h
  · obtain ⟨-, hboard, -⟩ := f.rest
    have hlatch := latch_step (r := r) (op := none) (m := .level (.role r) v) trivial (by simp) hgo
    exact ⟨s1, j1, hrun, hboard, by simpa [Micro.latchAfter] using hlatch⟩
  · cases hends

/-- The two selector lines driven, and nothing after it that drives them (43_register_bus.md R182). -/
theorem localSelector_of_runCode (hboard : t.board = s.board) (hd : ∀ m ∈ ms, m.DrivesOnly none)
    (hquiet : ∀ m ∈ ms, ∀ v, m.latchAfter .mux0 v = v ∧ m.latchAfter .mux1 v = v)
    (h : runCode (.level (.role .mux0) (muxLevel loc 0) :: .level (.role .mux1) (muxLevel loc 1) :: ms) j s = .next t) :
    localSelector t = loc := by
  obtain ⟨s0, j0, hrun0, hb0, h0⟩ := runCode_level_role h
  obtain ⟨s1, j1, hrun1, hb1, h1⟩ := runCode_level_role hrun0
  have hd' : ∀ m ∈ .level (.role .mux1) (muxLevel loc 1) :: ms, m.DrivesOnly none := by
    simpa using ⟨trivial, hd⟩
  have hl0 := runCode_keeps_latch (r := .mux0) (v := muxLevel loc 0) hd'
    (by simpa [Micro.latchAfter] using fun m hm => (hquiet m hm _).1) (by rw [hb0]; exact h0) hrun0
  have hl1 := runCode_keeps_latch (r := .mux1) (v := muxLevel loc 1) hd (fun m hm => (hquiet m hm _).2)
    (by rw [hb1]; exact h1) hrun1
  rw [hb0, ← hboard] at hl0
  rw [hb1, hb0, ← hboard] at hl1
  have hbits : ∀ c : BitVec 2, BitVec.ofBool (c.getLsbD 1) ++ BitVec.ofBool (c.getLsbD 0) = c := by decide
  calc localSelector t
    _ = BitVec.ofBool (latch t (t.board.roleLine .mux1)) ++ BitVec.ofBool (latch t (t.board.roleLine .mux0)) := rfl
    _ = BitVec.ofBool (muxLevel loc 1) ++ BitVec.ofBool (muxLevel loc 0) := by rw [hl0, hl1]
    _ = loc := hbits loc

/-- The extension part drives neither selector line. -/
theorem extensionSteps_quiet : ∀ m ∈ extensionSteps e, ∀ v, m.latchAfter .mux0 v = v ∧ m.latchAfter .mux1 v = v := by
  simp [extensionSteps, writeSteps, frameSteps, secondarySteps, Micro.latchAfter]

theorem extensionSteps_drivesOnly : ∀ m ∈ extensionSteps e, m.DrivesOnly none := by
  simp [extensionSteps, writeSteps, frameSteps, secondarySteps, Micro.DrivesOnly]

theorem runCode_of_requireRoles {rs : List Role} (h : runCode (.requireRoles rs :: ms) j s = .next t) :
    runCode ms j s = .next t := by
  cases hr : rolesResolved rs s with
  | true => rwa [runCode_requireRoles hr] at h
  | false =>
    have hrefuse : micro (.requireRoles rs) j s = .refuse .lineNotResolved := by
      simp only [micro, demand, hr, Bool.false_eq_true, if_false]
    rw [runCode_refuse hrefuse] at h
    cases h

end

/-- Settles O39: past its checks the operation drives the two lines, and its extension part drives neither. -/
theorem localSelectorFollows : Obligations.LocalSelectorFollows := by
  unfold Obligations.LocalSelectorFollows
  intro s t loc p e hfree h hno
  have hboard := exec_keeps_board h
  have hrun := (exec_next_inv h).2
  cases p with
  | false =>
    have hlocal := (runCode_takeTwowire hfree).symm.trans (runCode_of_requireRoles hrun)
    exact localSelector_of_runCode (s := { s with lockTwowire := some s.cur }) (ms := []) hboard (by simp) (by simp) hlocal
  | true =>
    have hext := (runCode_takeTwowire hfree).symm.trans (runCode_of_requireRoles hrun)
    by_cases hbad : parked e = true ∨ s.extAddr = none
    · refine absurd ?_ hno
      have hlast := hext.symm.trans (runCode_stop (micro_checkExt_bad hbad))
      cases hlast
      rfl
    · have hlevels := (runCode_go (s := { s with lockTwowire := some s.cur }) (micro_checkExt_good hbad)).symm.trans hext
      exact localSelector_of_runCode (ms := extensionSteps e) (s := { s with lockTwowire := some s.cur }) hboard
        extensionSteps_drivesOnly extensionSteps_quiet hlevels

/-- Settles O38: the check of the code stands before any effect. -/
theorem parkedCodesRejected : Obligations.ParkedCodesRejected := by
  unfold Obligations.ParkedCodesRejected
  intro s loc e hs hr hu hcode
  have hparked : ∀ e : BitVec 4, e ∈ [0b0000, 0b0001, 0b0010, 0b0011, 0b0100, 0b1000, 0b1100] → parked e = true := by
    decide
  have hchecks : ChecksPass (.regSelect loc true e) s := .of_nil rfl
  exact exec_twowire_returns hs (rolesNeeded_select hr hu) hchecks rfl ⟨rfl, rfl, rfl⟩
    (.stop (micro_checkExt_bad (hcode.imp_left (hparked e))) rfl rfl)

end Sys2Proof.Machine
end

section
/-! What lies outside the contract of files 41 to 43 is refused by name (93_implementation_defined.md U3 to U6,
00_scope.md R9). -/

namespace Sys2Proof.Machine

section
variable {s : State} {i : Instr} {j : Job} {ms : List Micro} {m : Micro} {r : Refusal}

/-- A list whose next step is refused is refused. -/
theorem refused_of_pass {pre rest : List Micro} (hpre : ∀ m ∈ pre, ∀ j, micro m j s = .go j s)
    (hm : ∀ j, micro m j s = .refuse r) : runCode (pre ++ m :: rest) j s = .refused r := by
  rw [runCode_pass hpre, runCode_refuse (hm j)]

theorem micro_requireOpen_closed (h : s.spiOpen = false) : micro .requireOpen j s = .refuse .busClosed := by
  simp only [micro, demand, h, Bool.false_eq_true, if_false]

theorem micro_openBus_open {path : List Byte} {p : Profile} (h : s.spiOpen = true) :
    micro (.openBus path p) j s = .refuse .busAlreadyOpen := by
  simp only [micro, stepOpenBus, h, if_true]

theorem micro_requireProfile_bad {p : Profile} (h : p.word = 0 ∨ p.speed = 0) :
    micro (.requireProfile p) j s = .refuse .profileOutOfRange := by
  have hbad : profileOk p = false := by
    rw [← Bool.not_eq_true]
    simpa [profileOk, or_iff_not_imp_left] using h
  simp only [micro, demand, hbad, Bool.false_eq_true, if_false]

theorem micro_requireHandle_closed {a : BitVec 7} (h : s.i2cHandle[a.toFin] = false) :
    micro (.requireHandle a) j s = .refuse .handleNotOpen := by
  simp only [micro, demand, h, Bool.false_eq_true, if_false]

theorem micro_requireLen_bad {len : BitVec 16} {n : Nat} (h : len = 0 ∨ s.board.data.maxLen < len.toNat ∨ n ≠ len.toNat) :
    micro (.requireLen len n) j s = .refuse .badLength := by
  have hbad : lengthOk s.board.data.maxLen len n = false := by
    rw [← Bool.not_eq_true, lengthOk_iff]
    rintro ⟨hlen, hn, hmax⟩
    obtain h | h | h := h
    · exact hlen h
    · exact absurd h (Nat.not_lt.2 hmax)
    · exact h hn
  simp only [micro, demand, hbad, Bool.false_eq_true, if_false]

theorem micro_stopIfNoExt (h : s.extAddr.isSome = true) : micro .stopIfNoExt j s = .go j s := by
  obtain ⟨a, ha⟩ := Option.isSome_iff_exists.1 h
  simp only [micro, stepStopIfNoExt, ha]

/-- The operations that need the bus are under `lock.serial`, and come to its check first, or after a check of their own
that they pass (41_serial_bus.md R143, R146, R148; 42_addressing.md R161, R167). -/
theorem needsBus_body (h : needsBus s i = true) : firstLock i = .serial ∧
    ∃ pre rest, bodyOf i = pre ++ .requireOpen :: rest ∧
      ∀ m ∈ pre, ∀ j (x : Option Nat), micro m j { s with lockSerial := x } = .go j { s with lockSerial := x } := by
  cases i
  case addrSelect a op =>
    exact ⟨rfl, [.checkFrameOp op], _, rfl, by simpa using fun j x => micro_checkFrameOp h⟩
  case addrUnselectExt =>
    exact ⟨rfl, [.stopIfNoExt], _, rfl, by simpa using fun j x => micro_stopIfNoExt (s := { s with lockSerial := x }) h⟩
  all_goals cases h
  all_goals exact ⟨rfl, [], _, rfl, by simp⟩

/-- Every operation with a length operand checks it right after its role lines (U6). -/
theorem codeOf_requireLen {len : BitVec 16} {n : Nat} (h : lengthOperand i = some (len, n)) :
    ∃ rest, codeOf i = .requireRoles (neededRoles i) :: .requireLen len n :: rest := by
  cases i <;> cases h <;> exact ⟨_, rfl⟩

/-- A bus operation on a closed bus (U3). -/
theorem exec_busClosed (hs : SerialReady s) (hr : RolesResolved s i) (hc : ChecksPass i s) (ho : s.spiOpen = false)
    (hn : needsBus s i = true) : exec i s = .refused .busClosed := by
  obtain ⟨hl, pre, rest, hbody, hpre⟩ := needsBus_body hn
  rw [exec_serial_body hs hr hc hl, hbody]
  exact refused_of_pass (fun m hm j => hpre m hm j _) fun j => micro_requireOpen_closed ho

/-- `select_channel` with a live code comes to the bus check of its extension part (U3). -/
theorem exec_regSelect_busClosed {loc : BitVec 2} {e : BitVec 4} (hs : BothReady s) (hr : RegisterUnit s)
    (hu : AddressingUnit s) (ho : s.spiOpen = false) (hext : s.extAddr.isSome = true) (hp : parked e = false) :
    exec (.regSelect loc true e) s = .refused .busClosed := by
  obtain ⟨hidle, hser, htwo⟩ := hs
  obtain ⟨a, ha⟩ := Option.isSome_iff_exists.1 hext
  calc exec (.regSelect loc true e) s
    _ = runCode (codeRegSelect loc true e) (Job.fresh s.cur (.regSelect loc true e) (codeRegSelect loc true e)) s :=
      execCode_ready hidle
    _ = _ := runCode_requireRoles (rolesResolved_select hr fun _ => hu)
    _ = _ := runCode_takeTwowire htwo
    _ = _ := runCode_checkExt ha hp
    _ = _ := runCode_mux loc hr.1 hr.2
    _ = _ := runCode_takeSerial hser
    _ = _ := runCode_refuse (micro_requireOpen_closed ho)

/-- A register access on a handle never opened (U5). -/
theorem exec_handleNotOpen {a : BitVec 7} {rest : List Micro} (hs : TwowireReady s) (hr : RolesResolved s i)
    (hc : ChecksPass i s) (hl : firstLock i = .twowire) (hbody : bodyOf i = .requireHandle a :: rest)
    (hhandle : s.i2cHandle[a.toFin] = false) : exec i s = .refused .handleNotOpen := by
  rw [exec_twowire_body hs hr hc hl, hbody]
  exact runCode_refuse (micro_requireHandle_closed hhandle)

/-- A length outside the contract (U6). -/
theorem exec_badLength {len : BitVec 16} {n : Nat} (hidle : busy s.cur s = false) (hr : RolesResolved s i)
    (hi : lengthOperand i = some (len, n)) (h : len = 0 ∨ s.board.data.maxLen < len.toNat ∨ n ≠ len.toNat) :
    exec i s = .refused .badLength := by
  obtain ⟨rest, hcode⟩ := codeOf_requireLen hi
  rw [exec_checks hidle hr hcode]
  exact runCode_refuse (micro_requireLen_bad h)

end

/-- Settles O42: each refusal by the check that stands first. -/
theorem contractRefusals : Obligations.ContractRefusals := by
  unfold Obligations.ContractRefusals
  intro s
  refine ⟨fun i hbusy => ?busy, fun i hs hr ho hwf hfit hn => ?closed, fun loc e hs hr hu ho hext hhi hlo => ?select,
    fun path mode word speed hs hu ho hword hspeed => ?opened, fun path mode word speed hidle hu hp => ?profile,
    fun a noAddr reg len data hs hr hhandle hlen hmax hdata => ⟨?read, ?write⟩,
    fun i len n hidle hr hi h => exec_badLength hidle hr hi h⟩
  case busy => rw [exec_eq_execCode, execCode, if_pos hbusy]
  case closed => exact exec_busClosed hs hr (.of_wellFormed hwf hfit) ho hn
  case select => exact exec_regSelect_busClosed hs hr hu ho hext (parked_eq_false hhi hlo)
  case opened =>
    have hchecks : ChecksPass (.serialOpen path mode word speed) s := .of_profile rfl hword hspeed
    rw [exec_serial_body hs (rolesNeeded_serial hu rfl) hchecks rfl]
    exact runCode_refuse (micro_openBus_open ho)
  case profile =>
    rw [exec_checks hidle (rolesNeeded_serial hu rfl) rfl]
    exact runCode_refuse (micro_requireProfile_bad hp)
  case read =>
    have hchecks : ChecksPass (.regRead a noAddr reg len) s := .of_len rfl hlen rfl hmax
    exact exec_handleNotOpen hs (rolesNeeded_register hr rfl) hchecks rfl rfl hhandle
  case write =>
    have hchecks : ChecksPass (.regWrite a noAddr reg len data) s := .of_len rfl hlen hdata hmax
    exact exec_handleNotOpen hs (rolesNeeded_register hr rfl) hchecks rfl rfl hhandle

end Sys2Proof.Machine
end

section
/-! The decoding of a pulse train (44_single_wire.md R208 to R215): its bits, its checksum, its result in tenths. -/

namespace Sys2Proof.Machine

/-! ## Bits and bytes -/

theorem byteOfBits_concat (bits : List Bool) (b : Bool) :
    byteOfBits (bits ++ [b]) = byteOfBits bits <<< 1 ||| (BitVec.ofBool b).setWidth 8 := by
  simp [byteOfBits]

/-- The last bit given is the lowest (44_single_wire.md R209). -/
theorem getLsbD_byteOfBits (bits : List Bool) (i : Nat) (hi : i < 8) :
    (byteOfBits bits).getLsbD i = bits.reverse.getD i false := by
  induction bits using List.reverseRecOn generalizing i with
  | nil => simp [byteOfBits]
  | append_singleton bits b ih =>
    rw [byteOfBits_concat, BitVec.getLsbD_or, List.reverse_concat]
    cases i with
    | zero => simp
    | succ i => simpa [hi, List.getD_eq_getElem?_getD, ← BitVec.getLsbD_eq_getElem] using ih i (by omega)

/-- Bit `7 - j` of byte `k` is bit `8k + j` of the train (R209). -/
theorem getLsbD_packBytes {bits : List Bool} {k j : Nat} (hbits : bits.length = 40) (hk : k < 5) (hj : j < 8) :
    ((packBytes bits).getD k 0).getLsbD (7 - j) = bits.getD (8 * k + j) false := by
  have hpack : packBytes bits = (List.range 5).map fun k => byteOfBits ((bits.drop (8 * k)).take 8) := rfl
  have hbyte : (packBytes bits).getD k 0 = byteOfBits ((bits.drop (8 * k)).take 8) := by
    simp [hpack, List.getD_eq_getElem?_getD, hk]
  have hlen : ((bits.drop (8 * k)).take 8).length = 8 := by
    simp only [List.length_take, List.length_drop]
    omega
  rw [hbyte, getLsbD_byteOfBits _ _ (by omega), List.getD_eq_getElem?_getD, List.getElem?_reverse (by omega), hlen,
    List.getElem?_take_of_lt (by omega), List.getElem?_drop, List.getD_eq_getElem?_getD]
  congr 2
  omega

/-- Settles O45: the bit is the comparison of its high count with the threshold. -/
theorem trainBits : Obligations.TrainBits := by
  unfold Obligations.TrainBits
  intro low high hlow hhigh k hk j hj
  have hlt : 8 * k + j + 1 < high.length := by omega
  have hbits : (pulseBits (meanLow low) high).length = 40 := by simp [pulseBits, hhigh]
  rw [getLsbD_packBytes hbits hk hj]
  simp [pulseBits, meanLow, List.getD_eq_getElem?_getD, List.getElem?_eq_getElem hlt, ← Nat.ble_eq]

/-! ## The checksum -/

theorem checksumOk_iff {b0 b1 b2 b3 b4 : Byte} : checksumOk [b0, b1, b2, b3, b4] = true ↔ b4 = b0 + b1 + b2 + b3 := by
  simp [checksumOk]

/-- Byte addition is addition modulo 256 (R210). -/
theorem eq_add_iff_toNat {b0 b1 b2 b3 b4 : Byte} :
    b4 = b0 + b1 + b2 + b3 ↔ b4.toNat = (b0.toNat + b1.toNat + b2.toNat + b3.toNat) % 256 := by
  rw [← BitVec.toNat_inj]
  simp [BitVec.toNat_add]

theorem micro_validate_ok {j : Job} {s : State} (h : checksumOk j.dht.bytes = true) : micro .validate j s = .go j s := by
  simp only [micro, stepValidate, h, if_true]

theorem micro_validate_bad {j : Job} {s : State} (h : checksumOk j.dht.bytes = false) :
    micro .validate j s = .stop { j with result := .error .checksumFailed } s := by
  simp only [micro, stepValidate, h, Bool.false_eq_true, if_false, raise]

/-- Settles O46: the one comparison of the step. -/
theorem checksumRule : Obligations.ChecksumRule := by
  unfold Obligations.ChecksumRule
  intro j s b0 b1 b2 b3 b4 hbytes
  have hiff : checksumOk j.dht.bytes = true ↔ b4.toNat = (b0.toNat + b1.toNat + b2.toNat + b3.toNat) % 256 := by
    rw [hbytes, checksumOk_iff, eq_add_iff_toNat]
  exact ⟨fun h => micro_validate_ok (hiff.2 h), fun h => micro_validate_bad (Bool.eq_false_iff.2 fun hok => h (hiff.1 hok)),
    by decide⟩

theorem eq_five_of_checksumOk {bytes : List Byte} (h : checksumOk bytes = true) :
    ∃ b0 b1 b2 b3 b4, bytes = [b0, b1, b2, b3, b4] := by
  unfold checksumOk at h
  split at h
  next b0 b1 b2 b3 b4 => exact ⟨b0, b1, b2, b3, b4, rfl⟩
  next => cases h

theorem xor_bit_ne (b : Byte) {j : Nat} (hj : j < 8) : b ^^^ (1#8 <<< j) ≠ b := by
  intro h
  have hbit := congrArg (BitVec.getLsbD · j) h
  simp [hj] at hbit

/-- One byte changed changes the sum or the byte it is compared with. -/
theorem checksumOk_set {bytes : List Byte} {k : Nat} {d : Byte} (hok : checksumOk bytes = true) (hk : k < 5)
    (hd : d ≠ bytes.getD k 0) : checksumOk (bytes.set k d) = false := by
  obtain ⟨b0, b1, b2, b3, b4, rfl⟩ := eq_five_of_checksumOk hok
  have hsum := checksumOk_iff.1 hok
  rw [← Bool.not_eq_true]
  intro hflip
  interval_cases k
  all_goals
    have hsum' := checksumOk_iff.1 hflip
    simp only [List.getD_cons_zero, List.getD_cons_succ] at hd
    bv_omega

/-- Settles O47: a byte with one bit flipped is another byte. -/
theorem singleBitFlipCaught : Obligations.SingleBitFlipCaught := by
  unfold Obligations.SingleBitFlipCaught
  intro bytes k j hok hk hj
  exact checksumOk_set hok hk (xor_bit_ne _ hj)

/-! ## The result in tenths -/

/-- Two bytes as 16 bits, and as 15 without the sign (R212). -/
theorem toNat_append_bytes (hi lo : Byte) : (hi ++ lo).toNat = hi.toNat * 256 + lo.toNat := by
  rw [BitVec.toNat_append, ← Nat.shiftLeft_add_eq_or_of_lt lo.isLt, Nat.shiftLeft_eq]

theorem toNat_magnitude (hi lo : Byte) : ((hi ++ lo).setWidth 15).toNat = hi.toNat % 128 * 256 + lo.toNat := by
  rw [BitVec.toNat_setWidth, toNat_append_bytes]
  omega

/-- A magnitude with its sign (R212). -/
def signed (negative : Bool) (m : Nat) : Int := if negative then -(m : Int) else m

theorem natAbs_signed (negative : Bool) (m : Nat) : (signed negative m).natAbs = m := by
  cases negative <;> simp [signed]

theorem negative_of_signed_neg {negative : Bool} {m : Nat} (h : signed negative m < 0) : negative = true := by
  cases negative with
  | true => rfl
  | false => exact absurd h (by simp [signed])

theorem positive_of_signed_pos {negative : Bool} {m : Nat} (h : 0 < signed negative m) : negative = false := by
  cases negative with
  | false => rfl
  | true => exact absurd h (by simp [signed])

/-- The fractional result (R212, R213). -/
theorem climateOf_fractional (b0 b1 b2 b3 b4 : Byte) : climateOf .fractional [b0, b1, b2, b3, b4] =
    .climate (b0 ++ b1).toNat (signed b2.msb ((b2 ++ b3).setWidth 15).toNat) := by
  rw [toNat_append_bytes, toNat_magnitude, BitVec.msb_eq_getLsbD_last]
  rfl

/-- Settles O48: the bytes as numbers, the sign from bit 7 of byte 2. -/
theorem climateRepresentation : Obligations.ClimateRepresentation := by
  unfold Obligations.ClimateRepresentation
  intro b0 b1 b2 b3 b4
  have habs := natAbs_signed b2.msb ((b2 ++ b3).setWidth 15).toNat
  have hlt := ((b2 ++ b3).setWidth 15).isLt
  exact ⟨rfl, _, _, climateOf_fractional b0 b1 b2 b3 b4, rfl, (b0 ++ b1).isLt, habs, by omega, positive_of_signed_pos,
    negative_of_signed_neg⟩

end Sys2Proof.Machine
end

section
/-! Polled measurements and a whole single-wire read (44_single_wire.md R201 to R206, R214). -/

namespace Sys2Proof.Machine

/-! ## Samples -/

/-- From `s` to `t` the line was sampled and showed the levels; nothing else happened. -/
def Sampled (l : Line) (levels : List Bool) (s t : State) : Prop :=
  ∃ (pads driven : List Word) (draws : Nat), t = { s with
    env := { s.env with pads := pads, driven := driven, draws := draws }
    trace := s.trace ++ levels.map (Event.gpioSample l) }

section
variable {l : Line} {levels levels' : List Bool} {s t u : State} {v : Bool}

theorem Sampled.refl (l : Line) (s : State) : Sampled l [] s s := ⟨s.env.pads, s.env.driven, s.env.draws, by simp⟩

theorem Sampled.trans (h : Sampled l levels s t) (h' : Sampled l levels' t u) : Sampled l (levels ++ levels') s u := by
  obtain ⟨pads, driven, draws, rfl⟩ := h
  obtain ⟨pads', driven', draws', rfl⟩ := h'
  exact ⟨pads', driven', draws', by simp⟩

theorem sampled_polled (l : Line) (v : Bool) (s : State) : Sampled l [v] s (polled l v s) := ⟨_, _, _, rfl⟩

theorem Sampled.lineReady (h : Sampled l levels s t) (hs : LineReady s l) : LineReady t l := by
  obtain ⟨pads, driven, draws, rfl⟩ := h
  exact hs

theorem Sampled.oe (h : Sampled l levels s t) : t.oe = s.oe := by
  obtain ⟨pads, driven, draws, rfl⟩ := h
  rfl

/-- The levels are those of the events. -/
theorem Sampled.of_trace (h : Sampled l levels s t) (ht : t.trace = s.trace ++ levels'.map (Event.gpioSample l)) :
    Sampled l levels' s t := by
  obtain ⟨pads, driven, draws, rfl⟩ := h
  exact ⟨pads, driven, draws, by simpa using ht⟩

end

/-! ## One measurement -/

section
variable {l : Line} {s t : State} {j j' : Job} {level : Bool} {dest : CountDest} {n : Nat} {m : Micro} {ms : List Micro}

/-- The job of a measurement that has counted to `c`. -/
def counted (c : Nat) (j : Job) : Job := { j with dht := { j.dht with count := c } }

/-- A poll that sees the other level ends the measurement. -/
theorem settle_poll_other (hr : LineReady s l) (hs : sampledBit s l ≠ level) (n : Nat) :
    settle n (.poll (.line l) level dest) j s =
      .go { j with dht := j.dht.store dest } (polled l (sampledBit s l) s) := by
  have hgo : micro (.poll (.line l) level dest) j s =
      .go { j with dht := j.dht.store dest } (polled l (sampledBit s l) s) := by
    simp only [micro, stepPoll_ready hr, hs, if_false]
  rw [settle_eq_micro (by simp [hgo]), hgo]

/-- A poll that sees the level is counted; over the bound it is the last. -/
theorem settle_poll_over (hr : LineReady s l) (hs : sampledBit s l = level) (hb : Config.dhtSpinBound < j.dht.count + 1)
    (n : Nat) :
    settle n (.poll (.line l) level dest) j s =
      .stop { counted (j.dht.count + 1) j with result := .error .timeout } (polled l level s) := by
  have hstop : micro (.poll (.line l) level dest) j s =
      .stop { counted (j.dht.count + 1) j with result := .error .timeout } (polled l level s) := by
    simp only [micro, stepPoll_ready hr, hs, gt_iff_lt, hb, if_true, counted]
  rw [settle_eq_micro (by simp [hstop]), hstop]

theorem settle_poll_again (hr : LineReady s l) (hs : sampledBit s l = level)
    (hb : ¬ Config.dhtSpinBound < j.dht.count + 1) :
    settle (n + 1) (.poll (.line l) level dest) j s =
      settle n (.poll (.line l) level dest) (counted (j.dht.count + 1) j) (polled l level s) := by
  simp only [settle, micro, stepPoll_ready hr, hs, gt_iff_lt, hb, if_true, if_false, counted]

/-- A measurement of at most `n + 1` polls ends with a count or a timeout. -/
def PollEnds (n : Nat) (l : Line) (level : Bool) (dest : CountDest) (j : Job) (s : State) : Prop :=
  ∃ levels t, Sampled l levels s t ∧ 1 ≤ levels.length ∧ levels.length ≤ n + 1 ∧ ∃ c,
    (settle n (.poll (.line l) level dest) j s = .go { j with dht := (counted c j).dht.store dest } t ∨
      settle n (.poll (.line l) level dest) j s = .stop { counted c j with result := .error .timeout } t)

theorem PollEnds.other (hr : LineReady s l) (hs : sampledBit s l ≠ level) : PollEnds n l level dest j s :=
  ⟨_, _, sampled_polled l (sampledBit s l) s, by simp, by simp, j.dht.count, .inl (settle_poll_other hr hs n)⟩

theorem PollEnds.over (hr : LineReady s l) (hs : sampledBit s l = level) (hb : Config.dhtSpinBound < j.dht.count + 1) :
    PollEnds n l level dest j s :=
  ⟨_, _, sampled_polled l level s, by simp, by simp, _, .inr (settle_poll_over hr hs hb n)⟩

/-- A measurement ends within its bound, whatever the line does (R205). -/
theorem pollEnds (hr : LineReady s l) (hn : Config.dhtSpinBound ≤ j.dht.count + n) : PollEnds n l level dest j s := by
  induction n generalizing j s with
  | zero =>
    by_cases hs : sampledBit s l = level
    · exact .over hr hs (by omega)
    · exact .other hr hs
  | succ n ih =>
    by_cases hs : sampledBit s l = level
    · by_cases hb : Config.dhtSpinBound < j.dht.count + 1
      · exact .over hr hs hb
      · have hfirst := sampled_polled l level s
        obtain ⟨levels, t, hrest, -, hlen, c, hend⟩ := ih (j := counted (j.dht.count + 1) j) (hfirst.lineReady hr)
          (by simp only [counted]; omega)
        exact ⟨_, t, hfirst.trans hrest, by simp, by simpa using hlen, c, settle_poll_again hr hs hb ▸ hend⟩
    · exact .other hr hs

/-- `n + 1` polls that see the level, the last of them over the bound (R205, D26). -/
theorem measure_timeout {ws rest : List Word} (hr : LineReady s l) (hi : lineBit s.oe[l.bank] l = true)
    (hw : ∀ v ∈ ws, lineBit v l = level) (hp : s.env.pads = ws ++ rest) (hlen : ws.length = n + 1)
    (hb : j.dht.count + n = Config.dhtSpinBound) :
    ∃ t, settle n (.poll (.line l) level dest) j s =
        .stop { counted (Config.dhtSpinBound + 1) j with result := .error .timeout } t ∧
      t.env.pads = rest ∧ t.trace = s.trace ++ List.replicate (n + 1) (.gpioSample l level) := by
  obtain ⟨w, ws, rfl⟩ := List.exists_cons_of_length_eq_add_one hlen
  have hs := (sampled_head hi hp).trans (hw w (by simp))
  have hpads : (polled l level s).env.pads = ws ++ rest := by rw [polled_pads, hp]; rfl
  induction n generalizing w ws j s with
  | zero =>
    obtain rfl : ws = [] := by simpa using hlen
    refine ⟨polled l level s, ?_, hpads, by simp [polled]⟩
    rw [settle_poll_over hr hs (by omega), ← hb]
  | succ n ih =>
    obtain ⟨w', ws, rfl⟩ := List.exists_cons_of_length_eq_add_one (Nat.succ.inj hlen)
    have hw' : ∀ v ∈ w' :: ws, lineBit v l = level := fun v hv => hw v (List.mem_cons_of_mem _ hv)
    have hs' := (sampled_head (s := polled l level s) hi hpads).trans (hw' w' (by simp))
    obtain ⟨t, hend, hrest, htrace⟩ := ih (s := polled l level s) (j := counted (j.dht.count + 1) j) hr hi
      (by simp only [counted]; omega) w' ws hw' hpads (Nat.succ.inj hlen) hs' (by rw [polled_pads, hpads]; rfl)
    exact ⟨t, (settle_poll_again hr hs (by omega)).trans hend, hrest,
      by rw [htrace]; simp [polled, List.replicate_succ]⟩

end

/-- Settles O44: the polls up to the one that sees the other level, or to the one over the bound. -/
theorem measureCounts : Obligations.MeasureCounts := by
  unfold Obligations.MeasureCounts
  intro s j l level dest ws rest w hr hi hc hw
  refine ⟨fun hlen hl hp => ?count, fun hlen hp => ?timeout⟩
  case count =>
    have hmeasure := measure_go 32000 (j := j) (dest := dest) hr hi hw hl hp hlen (by rw [hc, Nat.zero_add]; exact hlen)
    rwa [hc, Nat.zero_add] at hmeasure
  case timeout => exact measure_timeout (n := 32000) hr hi hw hp hlen (by rw [hc]; rfl)

end Sys2Proof.Machine
end

section
/-! A whole single-wire read (44_single_wire.md R201 to R214): it completes whatever the line does, and decodes the train the
line shows. -/

namespace Sys2Proof.Machine

/-! ## Up to the first poll -/

/-- The state in which a read begins to poll its line (R204). -/
def listening (l : Line) (s : State) : State :=
  { s with
    oe := s.oe.set l.bank (s.oe[l.bank] ||| mask l)
    dataOut := setLatch l false s.dataOut
    trace := s.trace ++ wakeEvents l }

/-- The registers of a read at its first poll: the word it last read from `OE`, and nothing measured (R204). -/
def listeningJob (k : SensorKind) (l : Line) (s : State) : Job :=
  { Job.fresh s.cur (.wireRead k l) (codeWireRead k l) with
    oeWord := (s.oe.set l.bank (withDir s.oe[l.bank] l .out))[l.bank]
    dht := { Dht.fresh with phase := .listen } }

/-- The steps of a read from its first poll on (R204 to R213). -/
def pollingSteps (k : SensorKind) (l : Line) : List Micro :=
  .poll (.line l) true .wait :: .phase .sample :: (pairSteps l Config.dhtPairs ++ decodeSteps k)

section
variable {s : State} {k : SensorKind} {l : Line}

/-- An output and then an input again is an input. -/
theorem withDir_out_inp (v : Word) (l : Line) : withDir (withDir v l .out) l .inp = v ||| mask l := by
  ext i hi
  simp only [withDir, BitVec.getElem_or, BitVec.getElem_and, BitVec.getElem_not]
  cases v[i] <;> cases (mask l)[i] <;> rfl

theorem listening_input (l : Line) (s : State) : lineBit (listening l s).oe[l.bank] l = true := by
  have hl := l.bit.isLt
  simp [listening, lineBit, mask, hl]

theorem runCode_level {j : Job} {rest : List Micro} (v : Bool) (h : LineReady s l) :
    runCode (.level (.line l) v :: rest) j s =
      runCode rest j (emit (.gpioLevel l v) { s with dataOut := setLatch l v s.dataOut }) :=
  runCode_go (stepLevel_line h.1 h.2 v)

/-- The wake and the request drive the line, then it is an input again (R202 to R204, decision D25). -/
theorem exec_wireRead_polling (hi : Idle s) (hl : LineReady s l) (hsole : lineBusy l s = false) :
    exec (.wireRead k l) s = runCode (pollingSteps k l) (listeningJob k l s) (listening l s) := by
  have hgo : ∀ j, micro (.requireSole l) j s = .go j s := fun j => by
    simp only [micro, demand, hsole, Bool.not_false, if_true]
  calc exec (.wireRead k l) s
    _ = runCode (codeWireRead k l) (Job.fresh s.cur (.wireRead k l) (codeWireRead k l)) s := execCode_ready hi.1
    _ = _ := runCode_go (hgo _)
    _ = _ := runCode_go (m := .phase .idle) rfl
    _ = _ := runCode_direction .out hl
    _ = _ := runCode_level true hl
    _ = _ := runCode_go (m := .phase .wake) rfl
    _ = _ := runCode_go (m := .hold Config.tWakeMs) rfl
    _ = _ := runCode_level false hl
    _ = _ := runCode_go (m := .phase .request) rfl
    _ = _ := runCode_go (m := .hold Config.tReqMs) rfl
    _ = _ := runCode_direction .inp hl
    _ = _ := runCode_go (m := .phase .listen) rfl
    _ = runCode (pollingSteps k l) (listeningJob k l s) (listening l s) := congrArg (runCode (pollingSteps k l) _) (by
      simp [listening, emit, wakeEvents, withDir_out_inp, setLatch_high_low])

end

/-! ## After the last poll -/

section
variable {s t : State} {j : Job} {k : SensorKind} {l : Line} {r : Result}

/-- What a completed train answers depends on its counts and the kind alone (R208 to R213, R215). -/
theorem returns_decode (j : Job) (s : State) (k : SensorKind) :
    Returns (decodeSteps k) j s (decodeTrain k j.dht.low j.dht.high) s := by
  refine .go (m := .phase .decode) rfl rfl (.go (m := .threshold) rfl rfl (.go (m := .packBits) rfl rfl
    (.go (m := .phase .validate) rfl rfl ?_)))
  simp only [Option.getD_some, decodeTrain]
  cases hok : checksumOk (packBytes (pulseBits (meanLow j.dht.low) j.dht.high)) with
  | false => exact .stop (micro_validate_bad hok) rfl rfl
  | true =>
    exact .go (micro_validate_ok hok) rfl (.go (m := .phase .interpret) rfl rfl
      (.go (m := .interpret k) rfl rfl (.nil rfl)))

/-- The results a read may have (R201). -/
def WireResult (r : Result) : Prop := r = .error .timeout ∨ r = .error .checksumFailed ∨ ∃ h t, r = .ok (.climate h t)

theorem wireResult_decodeTrain (k : SensorKind) (low high : List Nat) : WireResult (decodeTrain k low high) := by
  simp only [decodeTrain]
  split
  · cases k <;> exact .inr (.inr ⟨_, _, rfl⟩)
  · exact .inr (.inl rfl)

/-- The end of a read that came to its polls. -/
theorem exec_wireRead_returns (hi : Idle s) (hl : LineReady s l) (hsole : lineBusy l s = false) {levels : List Bool}
    (hsamp : Sampled l levels (listening l s) t)
    (h : Returns (pollingSteps k l) (listeningJob k l s) (listening l s) r t) :
    exec (.wireRead k l) s = .next (answered r t) := by
  obtain ⟨j, hrun, hwho, hres⟩ := h
  obtain ⟨pads, driven, draws, rfl⟩ := hsamp
  rw [exec_wireRead_polling hi hl hsole, hrun]
  exact congrArg _ (finish_idle hwho hres hi.2.1 hi.2.2)

end

/-! ## Whatever the line does -/

/-- A step list comes to its end with a result a read may have, after `lo` to `hi` samples of the line. -/
def Completes (l : Line) (lo hi : Nat) (ms : List Micro) (j : Job) (s : State) : Prop :=
  ∃ r levels t, Returns ms j s r t ∧ WireResult r ∧ Sampled l levels s t ∧ lo ≤ levels.length ∧ levels.length ≤ hi

section
variable {s : State} {j : Job} {l : Line} {ms : List Micro} {lo hi n : Nat}

theorem Returns.settle_go {m : Micro} {j' : Job} {s' t : State} {r : Result}
    (hm : settle Config.dhtSpinBound m j s = .go j' s') (hwho : j'.who = j.who) (h : Returns ms j' s' r t) :
    Returns (m :: ms) j s r t := by
  obtain ⟨k, hrun, hk, hr⟩ := h
  exact ⟨k, by simp only [runCode, hm, hrun], hk.trans hwho, hr⟩

theorem Returns.settle_stop {m : Micro} {j' : Job} {t : State} {r : Result}
    (hm : settle Config.dhtSpinBound m j s = .stop j' t) (hwho : j'.who = j.who) (hr : j'.result = r) :
    Returns (m :: ms) j s r t :=
  ⟨j', by simp only [runCode, hm], hwho, hr⟩

/-- A count stored clears the counter for the next measurement. -/
theorem count_store (d : Dht) (dest : CountDest) : (d.store dest).count = 0 := by
  cases dest <;> rfl

theorem Completes.poll {level : Bool} {dest : CountDest} (hc : j.dht.count = 0) (hr : LineReady s l)
    (h : ∀ j' s', j'.dht.count = 0 → LineReady s' l → Completes l 0 hi ms j' s') :
    Completes l 1 (hi + (Config.dhtSpinBound + 1)) (.poll (.line l) level dest :: ms) j s := by
  obtain ⟨levels, t, hsamp, hlo, hhi, c, hend⟩ :=
    pollEnds (n := Config.dhtSpinBound) (level := level) (dest := dest) (j := j) hr (by omega)
  obtain hgo | hstop := hend
  · obtain ⟨r, levels', t', hret, hres, hsamp', -, hhi'⟩ :=
      h { j with dht := (counted c j).dht.store dest } t (count_store _ dest) (hsamp.lineReady hr)
    exact ⟨r, _, t', .settle_go hgo rfl hret, hres, hsamp.trans hsamp', by simp; omega, by simp; omega⟩
  · exact ⟨_, levels, t, .settle_stop hstop rfl rfl, .inl rfl, hsamp, hlo, by omega⟩

theorem Completes.of_le {lo' hi' : Nat} (h : Completes l lo hi ms j s) (hlo : lo' ≤ lo) (hhi : hi ≤ hi') :
    Completes l lo' hi' ms j s := by
  obtain ⟨r, levels, t, hret, hres, hsamp, hlo1, hhi1⟩ := h
  exact ⟨r, levels, t, hret, hres, hsamp, hlo.trans hlo1, hhi1.trans hhi⟩

/-- The pairs after the preamble (R206). -/
theorem Completes.pairs (n : Nat) (hc : j.dht.count = 0) (hr : LineReady s l)
    (h : ∀ j' s', j'.dht.count = 0 → LineReady s' l → Completes l 0 hi ms j' s') :
    Completes l 0 (hi + n * (2 * (Config.dhtSpinBound + 1))) (pairSteps l n ++ ms) j s := by
  induction n generalizing j s with
  | zero => exact (h j s hc hr).of_le le_rfl (by simp)
  | succ n ih =>
    have hhigh : ∀ j' s', j'.dht.count = 0 → LineReady s' l →
        Completes l 0 (hi + n * (2 * (Config.dhtSpinBound + 1)) + (Config.dhtSpinBound + 1))
          (.poll (.line l) true .high :: (pairSteps l n ++ ms)) j' s' := fun j' s' hc' hr' =>
      (Completes.poll hc' hr' fun j' s' hc' hr' => ih hc' hr').of_le (Nat.zero_le _) le_rfl
    exact (Completes.poll hc hr hhigh).of_le (Nat.zero_le _) (by rw [Nat.succ_mul n]; omega)

/-- From the first poll on a read completes. -/
theorem completes_polling (k : SensorKind) (hc : j.dht.count = 0) (hr : LineReady s l) :
    Completes l 1 (83 * 32001) (pollingSteps k l) j s := by
  have hdecode : ∀ j' s', j'.dht.count = 0 → LineReady s' l → Completes l 0 0 (decodeSteps k) j' s' := fun j' s' _ _ =>
    ⟨_, [], s', returns_decode j' s' k, wireResult_decodeTrain .., .refl l s', le_rfl, le_rfl⟩
  have hsample : ∀ j' s', j'.dht.count = 0 → LineReady s' l →
      Completes l 0 (0 + Config.dhtPairs * (2 * (Config.dhtSpinBound + 1)))
        (.phase .sample :: (pairSteps l Config.dhtPairs ++ decodeSteps k)) j' s' := fun j' s' hc' hr' => by
    obtain ⟨r, levels, t, hret, hrest⟩ := Completes.pairs (j := { j' with dht := { j'.dht with phase := .sample } })
      Config.dhtPairs hc' hr' hdecode
    exact ⟨r, levels, t, .go rfl rfl hret, hrest⟩
  exact (Completes.poll hc hr hsample).of_le le_rfl (by decide)

end

/-- Settles O49: the polls are bounded and what follows them makes none. -/
theorem wireReadCompletes : Obligations.WireReadCompletes := by
  unfold Obligations.WireReadCompletes
  intro s k l hi hl hsole
  obtain ⟨r, levels, t, hret, hres, hsamp, hlo, hhi⟩ :=
    completes_polling (l := l) (s := listening l s) (j := listeningJob k l s) k rfl hl
  have hexec := exec_wireRead_returns hi hl hsole hsamp hret
  obtain ⟨pads, driven, draws, rfl⟩ := hsamp
  refine ⟨r, pads, driven, draws, levels, hexec.trans ?_, hres, List.ne_nil_of_length_pos hlo, hhi⟩
  simp only [listening, List.append_assoc]

end Sys2Proof.Machine
end

section
/-! A single-wire read of a line that shows a pulse train (44_single_wire.md R204 to R213, vector M4 of
95_test_vectors.md). -/

namespace Sys2Proof.Machine

section
variable {s : State} {j : Job} {l : Line} {level : Bool} {dest : CountDest} {n : Nat} {ws rest : List Word} {ms : List Micro}

/-- The next words of the script show these levels, and the line is an input: the polls will see them. -/
structure Shows (l : Line) (levels : List Bool) (rest : List Word) (s : State) : Prop where
  ready : LineReady s l
  input : lineBit s.oe[l.bank] l = true
  words : ∃ ws, s.env.pads = ws ++ rest ∧ ws.map (fun w => lineBit w l) = levels

/-- The polls of one measurement take its levels from the script (R205). -/
theorem Shows.measure {levels : List Bool} (hs : Shows l (List.replicate n level ++ (!level) :: levels) rest s)
    (hc : j.dht.count = 0) (hn : n ≤ Config.dhtSpinBound) :
    ∃ t, settle Config.dhtSpinBound (.poll (.line l) level dest) j s =
        .go { j with dht := (counted n j).dht.store dest } t ∧
      Sampled l (List.replicate n level ++ [!level]) s t ∧ Shows l levels rest t := by
  obtain ⟨hready, hinput, ws, hpads, hlevels⟩ := hs
  obtain ⟨ws1, ws2, rfl, hws1, hws2⟩ := List.map_eq_append_iff.1 hlevels
  obtain ⟨w, ws3, rfl, hw, hws3⟩ := List.map_eq_cons_iff.1 hws2
  have hlen : ws1.length = n := by simpa using congrArg List.length hws1
  have hsame : ∀ v ∈ ws1, lineBit v l = level := fun v hv =>
    List.eq_of_mem_replicate (hws1 ▸ List.mem_map_of_mem (f := fun w => lineBit w l) hv)
  obtain ⟨t, hgo, hpads', htrace⟩ := measure_go Config.dhtSpinBound (j := j) (dest := dest) (rest := ws3 ++ rest) hready
    hinput hsame hw (by simpa using hpads) (hlen ▸ hn) (by rw [hc, Nat.zero_add, hlen]; exact hn)
  rw [hc, Nat.zero_add, hlen] at hgo
  obtain ⟨levels', t', hsamp, -, -, c, hend⟩ :=
    pollEnds (n := Config.dhtSpinBound) (level := level) (dest := dest) (j := j) hready (by omega)
  obtain rfl : t' = t := by
    obtain hgo' | hstop := hend
    · exact (MicroOut.go.inj (hgo'.symm.trans hgo)).2
    · exact absurd (hstop.symm.trans hgo) (by simp)
  exact ⟨t', hgo, hsamp.of_trace (by simpa [hlen] using htrace), hsamp.lineReady hready, hsamp.oe ▸ hinput, ws3,
    hpads', hws3⟩

theorem runCode_settle_go {m : Micro} {j' : Job} {s' : State} (h : settle Config.dhtSpinBound m j s = .go j' s') :
    runCode (m :: ms) j s = runCode ms j' s' := by
  simp only [runCode, h]

/-- The pairs of a train are measured one after the other (R206). -/
theorem Shows.pairs {low high : List Nat} (hs : Shows l (pairLevels low high) rest s) (hlen : high.length = low.length)
    (hb : ∀ c ∈ low ++ high, c ≤ Config.dhtSpinBound) (hc : j.dht.count = 0) :
    ∃ j' t, j'.who = j.who ∧ j'.dht.low = j.dht.low ++ low ∧ j'.dht.high = j.dht.high ++ high ∧
      Sampled l (pairLevels low high) s t ∧ t.env.pads = rest ∧
      runCode (pairSteps l low.length ++ ms) j s = runCode ms j' t := by
  induction low generalizing high j s with
  | nil =>
    obtain rfl : high = [] := List.eq_nil_of_length_eq_zero hlen
    obtain ⟨-, -, ws, hpads, hlevels⟩ := hs
    obtain rfl : ws = [] := List.map_eq_nil_iff.1 hlevels
    exact ⟨j, s, rfl, by simp, by simp, .refl l s, hpads, rfl⟩
  | cons lo low ih =>
    obtain ⟨hi, high, rfl⟩ := List.exists_cons_of_length_eq_add_one hlen
    obtain ⟨s1, hgo1, hsamp1, hs1⟩ := hs.measure (dest := .low) hc (hb lo (by simp))
    obtain ⟨s2, hgo2, hsamp2, hs2⟩ := hs1.measure (dest := .high) (j := { j with dht := (counted lo j).dht.store .low }) rfl
      (hb hi (by simp))
    obtain ⟨j', t, hwho, hlow, hhigh, hsamp, hpads, hrun⟩ :=
      ih (j := { j with dht := (counted hi { j with dht := (counted lo j).dht.store .low }).dht.store .high }) hs2
        (Nat.succ.inj hlen) (fun c hc => hb c (by simp at hc ⊢; tauto)) rfl
    refine ⟨j', t, hwho, hlow.trans ?_, hhigh.trans ?_, ?_, hpads, ?_⟩
    · simp [Dht.store, counted]
    · simp [Dht.store, counted]
    · have hall := (hsamp1.trans hsamp2).trans hsamp
      simpa [pairLevels] using hall
    · exact (runCode_settle_go hgo1).trans ((runCode_settle_go hgo2).trans hrun)

end

/-- Settles O50: the wait, the 41 pairs, and the train decoded. -/
theorem wireReadDecodesTrain : Obligations.WireReadDecodesTrain := by
  unfold Obligations.WireReadDecodesTrain
  intro s k l wait low high ws rest hi hl hsole hlow hhigh hwait hb hpads hlevels
  have hs : Shows l (trainLevels wait low high) rest (listening l s) :=
    ⟨hl, listening_input l s, ws, hpads, hlevels⟩
  obtain ⟨s1, hgo, hsamp1, hs1⟩ := hs.measure (dest := .wait) (j := listeningJob k l s) rfl hwait
  obtain ⟨j, t, hwho, hlows, hhighs, hsamp, hrest, hrun⟩ := hs1.pairs (ms := decodeSteps k)
    (j := { listeningJob k l s with dht := { (counted wait (listeningJob k l s)).dht.store .wait with phase := .sample } })
    (hhigh.trans hlow.symm) hb rfl
  rw [hlow] at hrun
  have htrain : Returns (decodeSteps k) j t (decodeTrain k low high) t := by
    have hdecode := returns_decode j t k
    rwa [hlows, hhighs] at hdecode
  obtain ⟨j', hdecode, hwho', hres⟩ := htrain
  have hpolled : Sampled l (trainLevels wait low high) (listening l s) t := by
    simpa [trainLevels] using hsamp1.trans hsamp
  have hexec := exec_wireRead_returns hi hl hsole hpolled
    (.settle_go hgo rfl (.go rfl rfl ⟨j', hrun.trans hdecode, hwho'.trans hwho, hres⟩))
  obtain ⟨pads, driven, draws, rfl⟩ := hpolled
  exact ⟨_, hexec, rfl, hrest, List.append_assoc _ _ _⟩

end Sys2Proof.Machine
end
